-- ==== Sys2Proof/Word.lean ====
section
/-! DEFINITION. The bit vectors of the spec's registers and fields (00_scope.md R11, R12). -/

namespace Sys2Proof

/-- A byte of a block, of the output window or of a file (u8). -/
abbrev Byte := BitVec 8

/-- A 16-bit field (u16): the block header's two fields, a table entry's codes and bases. -/
abbrev Half := BitVec 16

/-- The bit reader's word and the code accumulator (u32; 00_scope.md R9). -/
abbrev Word := BitVec 32

end Sys2Proof
end

