-- ==== Sys2Proof/Syntax.lean ====
section
/-! DEFINITION. Syntax: the code table catalog's records (41_code_tables.md R140, R146, R147) and the
three commands of a block's bit stream (30_encoding.md R84, R88; spec/opcode_table.json). -/

namespace Sys2Proof

/-- The three command kinds (30_encoding.md R88). -/
inductive CommandKind where
  /-- CopyLiteralByte, mnemonic LIT. -/
  | copyLiteralByte
  /-- CopyBytesFromInput, mnemonic RAW. -/
  | copyBytesFromInput
  /-- CopyBytesFromOutput, mnemonic MATCH. -/
  | copyBytesFromOutput
  deriving DecidableEq, Repr

/-- A code table entry (41_code_tables.md R140). `cmd` is none for a stored value that is none of
the three kinds: the catalog check CT-KIND refuses it (R141). `stored1` and `stored2` are the two
further fields that no rule reads (R147). -/
structure CodeTableEntry where
  code : Half
  codeLen : BitVec 8
  cmd : Option CommandKind
  lenExtraBits : BitVec 8
  lenBase : Half
  offsetExtraBits : BitVec 8
  offsetBase : Half
  stored1 : Nat
  stored2 : Nat
  deriving DecidableEq, Repr

/-- A code table: its entries in the catalog's order, the constant its `offsetShift` is derived from
(41_code_tables.md R146), and the further constants that no rule reads (R147). -/
structure CodeTable where
  entries : List CodeTableEntry
  tableConstant : Nat
  otherConstants : List Nat
  deriving DecidableEq, Repr

/-- The parameter CATALOG: the code tables in order (00_scope.md R7). How many there must be is the
check CT-COUNT (41_code_tables.md R141), not the type. -/
abbrev Catalog := List CodeTable

/-- The parameter LITERAL_START as plain data (00_scope.md R8): the header values at which it differs
from the default `4 + len`, each with its offset. Every function of a 16-bit value is one such list. -/
abbrev LiteralStart := List (Half × Nat)

/-- A command of the bit stream with its operands: the table entry its code selects and the values of
its extra-bit fields (30_encoding.md R84). -/
inductive Instr where
  /-- LIT: the code alone. -/
  | lit (e : CodeTableEntry)
  /-- RAW: the code, then `extraLen`. -/
  | raw (e : CodeTableEntry) (extraLen : Nat)
  /-- MATCH: the code, then `extraLen`, then `extraOff`. -/
  | matchCopy (e : CodeTableEntry) (extraLen extraOff : Nat)
  deriving DecidableEq, Repr

/-- The table entry a command's code selects. -/
def Instr.entry : Instr → CodeTableEntry
  | .lit e => e
  | .raw e _ => e
  | .matchCopy e _ _ => e

end Sys2Proof
end

