-- ==== Sys2Proof/Config.lean ====
section
/-! DEFINITION. Config: the parameters of 00_scope.md section 4 and the fixed sizes of R9. A parameter
the spec gives no value for is a constant without a body, so nothing can be proved of its value. -/

namespace Sys2Proof

/-- A value of the parameter INSTANCES: a positive natural (00_scope.md R10). -/
abbrev Instances := { n : Nat // 0 < n }

end Sys2Proof

namespace Sys2Proof.Config

/-- CATALOG (00_scope.md R7): no source gives its values (91_not_in_source.md N1; log 1). -/
opaque catalog : Catalog

/-- LITERAL_START (00_scope.md R8): OPEN (92_eei_decisions.md D2; log 2). -/
opaque literalStart : LiteralStart

/-- INSTANCES at its default (00_scope.md R10; log 3). -/
def instances : Instances := ⟨1, Nat.one_pos⟩

/-- The most bytes a block can produce, and the padding unit of the output (00_scope.md R9;
45_host_container.md R220). -/
def maxBlockOutput : Nat := 0x4000

/-- The number of code tables (00_scope.md R9). -/
def tableCount : Nat := 4

/-- The number of entries of a code table (00_scope.md R9). -/
def entryCount : Nat := 9

/-- The greatest code length (00_scope.md R9; 92_eei_decisions.md D9). -/
def maxCodeLen : Nat := 16

end Sys2Proof.Config
end

