-- ==== Sys2Proof/Machine/CodeTables.lean ====
section
/-! DEFINITION. Unit CT: catalog checks, decode index, code table store and lookup
(41_code_tables.md R141 to R148), and the spec's example catalog EXCAT (R149). -/

namespace Sys2Proof

/-- `maxLen` of a table: the greatest `codeLen` of its entries (41_code_tables.md R142). -/
def maxLenOf (es : List CodeTableEntry) : Nat :=
  es.foldr (fun e m => max e.codeLen.toNat m) 0

/-- The entry matches the pattern: the pattern's low `codeLen` bits equal its code
(41_code_tables.md R141 CT-COMPLETE, R144). -/
def CodeTableEntry.matchesPattern (e : CodeTableEntry) (p : Nat) : Bool :=
  p % 2 ^ e.codeLen.toNat == e.code.toNat

/-- Why a catalog is refused: the checks of 41_code_tables.md R141 by name. -/
inductive CatalogDefect where
  /-- CT-COUNT: not exactly 4 tables of exactly 9 entries. -/
  | ctCount
  /-- CT-LEN: a `codeLen` outside 1 to 16. -/
  | ctLen
  /-- CT-CODE: a `code` at or above `2^codeLen`. -/
  | ctCode
  /-- CT-COMPLETE: a pattern that not exactly one entry matches. -/
  | ctComplete
  /-- CT-KIND: a `cmd` that is none of the three kinds. -/
  | ctKind
  deriving DecidableEq, Repr

/-- CT-COUNT for one table. -/
def CodeTable.hasCount (t : CodeTable) : Bool := t.entries.length == Config.entryCount

/-- CT-LEN for one table. -/
def CodeTable.hasLengths (t : CodeTable) : Bool :=
  t.entries.all fun e => decide (1 ≤ e.codeLen.toNat) && decide (e.codeLen.toNat ≤ Config.maxCodeLen)

/-- CT-CODE for one table. -/
def CodeTable.hasCodes (t : CodeTable) : Bool :=
  t.entries.all fun e => decide (e.code.toNat < 2 ^ e.codeLen.toNat)

/-- CT-COMPLETE for one table. -/
def CodeTable.isComplete (t : CodeTable) : Bool :=
  (List.range (2 ^ maxLenOf t.entries)).all fun p => t.entries.countP (·.matchesPattern p) == 1

/-- CT-KIND for one table. -/
def CodeTable.hasKinds (t : CodeTable) : Bool := t.entries.all fun e => e.cmd.isSome

/-- The checks a model makes of CATALOG, in the order 41_code_tables.md R141 lists them: none for an
accepted catalog, else the first check that fails. -/
def Catalog.defect? (c : Catalog) : Option CatalogDefect :=
  if !(c.length == Config.tableCount && c.all (·.hasCount)) then some .ctCount
  else if !c.all (·.hasLengths) then some .ctLen
  else if !c.all (·.hasCodes) then some .ctCode
  else if !c.all (·.isComplete) then some .ctComplete
  else if !c.all (·.hasKinds) then some .ctKind
  else none

/-- The inner loop of `buildIndex` (41_code_tables.md R143): slots `i`, `i + step`, ... below the
index's size are written with entry index `k`. -/
def fillSlots (k step : Nat) : Nat → Nat → List (Option Nat) → List (Option Nat)
  | 0, _, slots => slots
  | fuel + 1, i, slots =>
    if i < slots.length then fillSlots k step fuel (i + step) (slots.set i (some k)) else slots

/-- The outer loop of `buildIndex` (41_code_tables.md R143): entries from index `k` on, in order. -/
def fillEntries : Nat → List CodeTableEntry → List (Option Nat) → List (Option Nat)
  | _, [], slots => slots
  | k, e :: es, slots =>
    fillEntries (k + 1) es (fillSlots k (2 ^ e.codeLen.toNat) slots.length e.code.toNat slots)

/-- The decode index of a table: `2^maxLen` slots, each an entry index, none where no entry has
written (41_code_tables.md R143). -/
def buildIndex (es : List CodeTableEntry) : List (Option Nat) :=
  fillEntries 0 es (List.replicate (2 ^ maxLenOf es) none)

/-- One table of the code table store (10_state.md R37). -/
structure TableStore where
  table : CodeTable
  maxLen : Nat
  decodeIndex : List (Option Nat)
  offsetShift : Nat
  deriving DecidableEq, Repr

/-- The code table store: its tables in order (10_state.md R37). -/
abbrev CodeTableStore := List TableStore

/-- A table as the store holds it (41_code_tables.md R142, R143, R146). -/
def TableStore.build (t : CodeTable) : TableStore :=
  { table := t
    maxLen := maxLenOf t.entries
    decodeIndex := buildIndex t.entries
    offsetShift := t.tableConstant >>> 1 }

/-- `buildIndex(CATALOG)`: the store's content from power-up on (10_state.md R37). -/
def buildStore (c : Catalog) : CodeTableStore := c.map TableStore.build

/-- The catalog a store was built from. -/
def catalogOf (st : CodeTableStore) : Catalog := st.map (·.table)

/-- `tableIndexMask` (41_code_tables.md R142). -/
def TableStore.tableIndexMask (t : TableStore) : Nat := 2 ^ t.maxLen - 1

/-- The entry index LOOKUP reads for a pattern source (41_code_tables.md R145): the decode index at
`source & tableIndexMask`, none for a slot that is absent or was never written. -/
def TableStore.slot? (t : TableStore) (source : Nat) : Option Nat :=
  (t.decodeIndex[source &&& t.tableIndexMask]?).getD none

/-- LOOKUP (41_code_tables.md R145): the entry the decode index gives. -/
def TableStore.lookup? (t : TableStore) (source : Nat) : Option CodeTableEntry :=
  (t.slot? source).bind fun k => t.table.entries[k]?

/-- The numbers of the command kinds, for spec/opcode_table.json only (30_encoding.md R88). -/
def CommandKind.ofNumber : Nat → Option CommandKind
  | 0 => some .copyLiteralByte
  | 1 => some .copyBytesFromInput
  | 2 => some .copyBytesFromOutput
  | _ => none

/-- One row of EXCAT's table (41_code_tables.md R149). R149 gives the two further stored fields no value:
that they are 0 here is a DESIGN CHOICE (log 16), and no rule reads them (R147). -/
def excatEntry (code codeLen : Nat) (cmd : CommandKind)
    (lenExtraBits lenBase offsetExtraBits offsetBase : Nat) : CodeTableEntry :=
  { code := BitVec.ofNat 16 code
    codeLen := BitVec.ofNat 8 codeLen
    cmd := some cmd
    lenExtraBits := BitVec.ofNat 8 lenExtraBits
    lenBase := BitVec.ofNat 16 lenBase
    offsetExtraBits := BitVec.ofNat 8 offsetExtraBits
    offsetBase := BitVec.ofNat 16 offsetBase
    stored1 := 0
    stored2 := 0 }

/-- The 9 entries every table of EXCAT has (41_code_tables.md R149). -/
def excatEntries : List CodeTableEntry :=
  [ excatEntry 0 2 .copyLiteralByte 0 0 0 0
  , excatEntry 1 3 .copyBytesFromInput 2 1 0 0
  , excatEntry 5 3 .copyBytesFromOutput 0 3 0 1
  , excatEntry 2 3 .copyBytesFromOutput 2 2 4 1
  , excatEntry 6 3 .copyBytesFromOutput 3 4 8 1
  , excatEntry 3 4 .copyBytesFromInput 4 5 0 0
  , excatEntry 11 4 .copyBytesFromOutput 0 3 12 1
  , excatEntry 7 4 .copyLiteralByte 0 0 0 0
  , excatEntry 15 4 .copyBytesFromOutput 5 10 10 1 ]

/-- A table of EXCAT with the given table constant (41_code_tables.md R149). R149 names no further
constants: that there are none here is a DESIGN CHOICE (log 16). -/
def excatTable (tableConstant : Nat) : CodeTable :=
  { entries := excatEntries, tableConstant := tableConstant, otherConstants := [] }

/-- EXCAT, the spec's example catalog, not the format's (41_code_tables.md R149; log 13). -/
def excat : Catalog := [excatTable 0, excatTable 2, excatTable 0, excatTable 0]

end Sys2Proof
end

