-- ==== Sys2Proof/WellFormed.lean ====
section
/-! DEFINITION. Well-formedness: which commands an encoding admits (30_encoding.md R83 to R85) and
which code table stores the machine runs with (41_code_tables.md R141, R143). -/

namespace Sys2Proof

/-- A command is well formed for a table: its entry is one of the table's, of the command's own kind,
and each extra-bit field fits the entry's count (30_encoding.md R84). -/
def Instr.wellFormed (t : CodeTable) : Instr → Bool
  | .lit e => decide (e ∈ t.entries) && e.cmd == some .copyLiteralByte
  | .raw e x =>
    decide (e ∈ t.entries) && e.cmd == some .copyBytesFromInput
      && decide (x < 2 ^ e.lenExtraBits.toNat)
  | .matchCopy e x y =>
    decide (e ∈ t.entries) && e.cmd == some .copyBytesFromOutput
      && decide (x < 2 ^ e.lenExtraBits.toNat) && decide (y < 2 ^ e.offsetExtraBits.toNat)

/-- The checks of 41_code_tables.md R141 that speak of one table, CT-COUNT's number of tables apart. -/
def CodeTable.wellFormed (t : CodeTable) : Bool :=
  t.hasCount && t.hasLengths && t.hasCodes && t.isComplete && t.hasKinds

/-- A catalog the model accepts (41_code_tables.md R141). -/
def Catalog.wellFormed (c : Catalog) : Bool := c.defect? == none

/-- A store the engine runs with: built from an accepted catalog (70_reset_and_hazards.md R272 (1)). -/
def CodeTableStore.wellFormed (st : CodeTableStore) : Bool :=
  (catalogOf st).wellFormed && st == buildStore (catalogOf st)

end Sys2Proof
end

