-- ==== Sys2Proof/Decode.lean ====
section
/-! DEFINITION. Decode and encode: a command is its code and then its extra-bit fields, each least
significant bit first (30_encoding.md R81 to R86), over a stream of bits held as a natural number
whose bit `k` is stream bit `k`. After the decoder stand the encoder and the spec's assembler
notation (R92). -/

namespace Sys2Proof

/-- Why a bit pattern decodes to no command. None of these arises with an accepted catalog
(30_encoding.md R89). -/
inductive DecodeReject where
  /-- The selector names a table the store does not have. -/
  | noTable
  /-- The decode index gives no entry for the pattern. -/
  | unmappedPattern
  /-- The entry's command is none of the three kinds. -/
  | unknownKind
  deriving DecidableEq, Repr

/-- LOOKUP by name of its failure (41_code_tables.md R145). -/
def decodeEntry (t : TableStore) (source : Nat) : Except DecodeReject CodeTableEntry :=
  match t.lookup? source with
  | some e => .ok e
  | none => .error .unmappedPattern

/-- The command of an entry, its extra-bit fields taken from the low end of `extras`: `extraLen`
first, then `extraOff` (30_encoding.md R84). -/
def decodeFields (e : CodeTableEntry) (extras : Nat) : Except DecodeReject Instr :=
  match e.cmd with
  | some .copyLiteralByte => .ok (.lit e)
  | some .copyBytesFromInput => .ok (.raw e (extras % 2 ^ e.lenExtraBits.toNat))
  | some .copyBytesFromOutput =>
    .ok (.matchCopy e (extras % 2 ^ e.lenExtraBits.toNat)
      ((extras >>> e.lenExtraBits.toNat) % 2 ^ e.offsetExtraBits.toNat))
  | none => .error .unknownKind

/-- The length of a command in stream bits (30_encoding.md R86). -/
def Instr.bitLength : Instr → Nat
  | .lit e => e.codeLen.toNat
  | .raw e _ => e.codeLen.toNat + e.lenExtraBits.toNat
  | .matchCopy e _ _ => e.codeLen.toNat + e.lenExtraBits.toNat + e.offsetExtraBits.toNat

/-- The decoder: the first command of a stream and the stream after it. Total: every stream of bits
gives a command or a rejection by name. -/
def decodeStream (t : TableStore) (stream : Nat) : Except DecodeReject (Instr × Nat) :=
  match decodeEntry t stream with
  | .error r => .error r
  | .ok e =>
    match decodeFields e (stream >>> e.codeLen.toNat) with
    | .error r => .error r
    | .ok i => .ok (i, stream >>> i.bitLength)

/-- The stream of a list of bytes: stream bit `k` is bit `k mod 8` of byte `k / 8`, 0 beyond the end
(30_encoding.md R81). -/
def streamOfBytes : List Byte → Nat
  | [] => 0
  | b :: bs => b.toNat + 2 ^ 8 * streamOfBytes bs

/-- The decoder on bytes. -/
def decodeBytes (t : TableStore) (bytes : List Byte) : Except DecodeReject (Instr × Nat) :=
  decodeStream t (streamOfBytes bytes)

/-- The encoder: a command's stream bits as a number, code lowest, then `extraLen`, then `extraOff`
(30_encoding.md R84, R82). Its length is `Instr.bitLength`. -/
def Instr.encode : Instr → Nat
  | .lit e => e.code.toNat
  | .raw e x => e.code.toNat + 2 ^ e.codeLen.toNat * x
  | .matchCopy e x y =>
    e.code.toNat + 2 ^ e.codeLen.toNat * (x + 2 ^ e.lenExtraBits.toNat * y)

/-- The low `n` bytes of a number, lowest first. -/
def leBytes : Nat → Nat → List Byte
  | 0, _ => []
  | n + 1, v => BitVec.ofNat 8 v :: leBytes n (v >>> 8)

/-- Bits and length of a list of commands, first command lowest (30_encoding.md R81). -/
def encodeAll : List Instr → Nat × Nat
  | [] => (0, 0)
  | i :: is => (i.encode + 2 ^ i.bitLength * (encodeAll is).1, i.bitLength + (encodeAll is).2)

/-- A block in the assembler notation of 30_encoding.md R92: `.table`, the commands, `.lit`, `.cap`. -/
structure BlockSource where
  table : BitVec 2
  commands : List Instr
  literals : List Byte
  capacity : Nat
  deriving DecidableEq, Repr

/-- The number of 32-bit stream words of a source: the selector's 2 bits and the commands, zero-padded
(30_encoding.md R92). -/
def BlockSource.streamWords (b : BlockSource) : Nat := ((encodeAll b.commands).2 + 2 + 31) / 32

/-- The block's bytes under the default LITERAL_START (30_encoding.md R80, R92): the two 16-bit header
fields, the stream words, the literal bytes. -/
def BlockSource.assemble (b : BlockSource) : List Byte :=
  leBytes 2 (4 * b.streamWords) ++ leBytes 2 (0x4000 - b.capacity)
    ++ leBytes (4 * b.streamWords) (b.table.toNat + 2 ^ 2 * (encodeAll b.commands).1) ++ b.literals

/-- The table of EXCAT that words of spec/opcode_table.json are read against (log 13). -/
def tableWordStore : TableStore := TableStore.build (excatTable 0)

/-- The stream that a word of spec/opcode_table.json stands for. The table's bits 1:0 are a command
kind (30_encoding.md R88), which no stream holds, so the word stands for EXCAT's first entry of that
kind: its code, and above it extra-bit fields of zeros (log 13). -/
def tableWordStream (w : Nat) : Option Nat :=
  (CommandKind.ofNumber (w % 4)).bind fun kind =>
    (excatEntries.find? fun e => e.cmd == some kind).map fun e => e.code.toNat

/-- The instruction the decoder reads from a word of spec/opcode_table.json, laid out as stream bytes.
`nbits` is the table's row length; a row here has no bits beyond the kind. -/
def decodeTableWord (_nbits w : Nat) : Option Instr :=
  (tableWordStream w).bind fun v =>
    match decodeBytes tableWordStore (leBytes 4 v) with
    | .ok (i, _) => some i
    | .error _ => none

end Sys2Proof
end

