-- ==== Sys2Proof/Machine/State.lean ====
section
/-! DEFINITION. The machine's state as plain data (10_state.md, 20_memory.md section 1, 45_host_container.md
section 3), the machine right after power-up, and the reasons a step can stop. -/

namespace Sys2Proof.Machine

/-- A memory: (address, byte) pairs, addresses strictly rising, no byte 0; an unlisted address reads
as 0, which is what 45_host_container.md R219 gives the output buffer at its allocation (log 6). -/
abbrev Memory := List Host.Cell

/-- The engine's phase (10_state.md R31). -/
inductive Phase where
  | idle
  | setup
  | check
  | decode
  | done
  | fault
  deriving DecidableEq, Repr

/-- The fault kinds `status.kind` takes (60_exceptions.md R240). -/
inductive FaultKind where
  | none
  | invalidHeader
  | unsupportedOffsetTable
  | truncatedBlock
  | invalidBitRequest
  | invalidBackReference
  | invalidCapacity
  | capacityOverrun
  deriving DecidableEq, Repr

/-- The fields of the file header, in offset order (45_host_container.md R211). -/
inductive HeaderField where
  | version
  | flag
  | signature
  | totalUncompressedSize
  | compressionMode
  | reserved
  deriving DecidableEq, Repr

/-- A header field's value as an error reports it (45_host_container.md R212). -/
inductive HeaderValue where
  | num (n : Nat)
  | text (bytes : List Byte)
  deriving DecidableEq, Repr

/-- What a header field is required to be (45_host_container.md R211). -/
inductive HeaderExpected where
  | equals (v : HeaderValue)
  | atMost (n : Nat)
  | anything
  deriving DecidableEq, Repr

/-- `status.info`, one constructor per record of 60_exceptions.md R240. -/
inductive FaultInfo where
  | none
  /-- InvalidHeader; `actual` is none where the file does not hold the field (R214). -/
  | header (field : HeaderField) (expected : HeaderExpected) (actual : Option HeaderValue)
  /-- UnsupportedOffsetTable `{cursor, V0}`; V0 is none where R215's record has no V0. -/
  | offsetTable (cursor : Nat) (v0 : Option Nat)
  /-- UnsupportedOffsetTable `{block}`. -/
  | offsetTableBlock (block : Nat)
  /-- TruncatedBlock of the engine, `{inPtr, amount, L}`. -/
  | truncated (inPtr amount inLen : Nat)
  /-- TruncatedBlock of the host, `{block, end, fileLength}`. -/
  | truncatedRange (block stop fileLength : Nat)
  | bitRequest (n fetchPtr : Nat)
  | backReference (written backOffset : Nat)
  | capacity (capField windowCapacity : Nat)
  | overrun (written logicalCapacity : Nat)
  deriving DecidableEq, Repr

/-- The status record (10_state.md R34). -/
structure Status where
  kind : FaultKind
  info : FaultInfo
  deriving DecidableEq, Repr

/-- `{kind: NONE}` (60_exceptions.md R240). -/
def Status.clear : Status := { kind := .none, info := .none }

/-- The bit reader's registers (10_state.md R20 to R23). -/
structure BitReader where
  word : Word
  bitsUsed : Nat
  remainder : Word
  fetchPtr : Nat
  deriving DecidableEq, Repr

/-- The registers of one engine instance: the bit reader's, the block decoder's (10_state.md R24 to
R29), the launch values (R30) with the places of IN and OUT (20_memory.md R51, R52), phase and status
(R31, R34). -/
structure Engine where
  br : BitReader
  acc : Word
  pendingBits : Nat
  tableSel : BitVec 2
  offsetShift : Nat
  unpackInfoByteLength : Half
  logicalCapacity : Nat
  written : Nat
  inPtr : Nat
  /-- The file offset at which IN starts (20_memory.md R51). -/
  inBase : Nat
  /-- The launch value L. -/
  inLen : Nat
  /-- The buffer offset at which OUT starts (20_memory.md R52). -/
  windowBase : Nat
  windowCapacity : Nat
  phase : Phase
  status : Status
  deriving DecidableEq, Repr

/-- The input file: its length and its bytes (45_host_container.md R210). -/
structure FileImage where
  len : Nat
  bytes : Memory
  deriving DecidableEq, Repr

/-- A block's range in the file (45_host_container.md R216). -/
structure BlockRange where
  start : Nat
  stop : Nat
  deriving DecidableEq, Repr

/-- What the container decoder returns (45_host_container.md R221, R222). -/
inductive ContainerResult where
  /-- The output buffer, of `totalUncompressedSize` bytes. -/
  | buffer
  /-- The error `{kind, info, block}`; `block` is none for an error found before any block. -/
  | error (status : Status) (block : Option Nat)
  deriving DecidableEq, Repr

/-- Where the container decoder stands in the order of 70_reset_and_hazards.md R272 (log 11). -/
inductive ContainerPhase where
  /-- Power-up: CATALOG is to be accepted or refused (R272 (1)). -/
  | powerUp
  /-- CATALOG is accepted; no file has been given. -/
  | awaitFile
  /-- A file has been given: its header, offset table and ranges are to be checked (R272 (2), (3)). -/
  | checkFile
  /-- The next block, if there is one, is to be started (R272 (4)). -/
  | nextBlock
  /-- The engine has a block. -/
  | decoding
  /-- The file's result stands. -/
  | returned (r : ContainerResult)
  deriving DecidableEq, Repr

/-- The container decoder's state (45_host_container.md R216, R219). -/
structure Container where
  phase : ContainerPhase
  totalUncompressedSize : Nat
  blocks : List BlockRange
  blockIndex : Nat
  writeCursor : Nat
  deriving DecidableEq, Repr

/-- The whole machine. -/
structure State where
  /-- The code table store, read-only (10_state.md R37). -/
  store : CodeTableStore
  /-- The parameter LITERAL_START, fixed for the machine (00_scope.md R8). -/
  literalStart : LiteralStart
  engine : Engine
  /-- The file; IN is the view `IN[i] = FILE[inBase + i]` (20_memory.md R51). -/
  file : FileImage
  /-- The output buffer; OUT is the view `OUT[j] = BUF[windowBase + j]` (20_memory.md R52). -/
  buf : Memory
  container : Container
  deriving DecidableEq, Repr

/-- The engine after power-up: phase IDLE (70_reset_and_hazards.md R271). The spec leaves every other
register unspecified; they hold 0 here. DESIGN CHOICE (log 4), unsafe; START writes each of them. -/
def Engine.powerUp : Engine :=
  { br := { word := 0, bitsUsed := 0, remainder := 0, fetchPtr := 0 }
    acc := 0
    pendingBits := 0
    tableSel := 0
    offsetShift := 0
    unpackInfoByteLength := 0
    logicalCapacity := 0
    written := 0
    inPtr := 0
    inBase := 0
    inLen := 0
    windowBase := 0
    windowCapacity := 0
    phase := .idle
    status := Status.clear }

/-- The container decoder before it has a file (log 4, log 11). -/
def Container.powerUp : Container :=
  { phase := .powerUp, totalUncompressedSize := 0, blocks := [], blockIndex := 0, writeCursor := 0 }

/-- The machine after power-up with the given parameters: the store holds `buildIndex(CATALOG)`
(70_reset_and_hazards.md R271). File and buffer belong to the host (10_state.md R38), and the spec gives
neither a value before the host has a file: here the file has length 0 and no bytes, and the buffer
lists none. DESIGN CHOICE (log 25), unsafe. -/
def State.powerUp (c : Catalog) (ls : LiteralStart) : State :=
  { store := buildStore c
    literalStart := ls
    engine := Engine.powerUp
    file := { len := 0, bytes := [] }
    buf := []
    container := Container.powerUp }

/-- The machine right after reset: power-up with the parameters of Config, whose values nothing
fixes. -/
def State.reset : State := State.powerUp Config.catalog Config.literalStart

/-- Why the machine stops. -/
inductive Fault where
  /-- Raised by `step` in a state in which the spec enables no step: an engine in IDLE, DONE or FAULT
  that no START is due for (42_block_decoder.md R174; log 8). Safe: the machine stops. -/
  | noStepEnabled
  /-- Raised by LIT, RAW and MATCH for a copy that would reach an offset of OUT at or above
  `windowCapacity`, which does not exist (20_memory.md R52; log 9). Safe; no state of the invariant
  raises it. -/
  | outsideWindow (offset : Nat)
  deriving DecidableEq, Repr

/-- The premises of START that a launch can break (70_reset_and_hazards.md R270, R273). -/
inductive LaunchPremise where
  /-- START in a phase other than IDLE, DONE and FAULT (R270). -/
  | enginePhase
  /-- `windowCapacity` above 0x4000 (R273). -/
  | windowTooLarge
  /-- IN not inside the file (R273). -/
  | inputOutsideFile
  /-- OUT not inside the output buffer (45_host_container.md R219). -/
  | windowOutsideBuffer
  /-- OUT shares a byte with the window of an instance that runs (20_memory.md R64): raised by
  `Cluster.startBlock`. -/
  | windowShared
  deriving DecidableEq, Repr

/-- Why the model gives a situation no meaning. -/
inductive Refusal where
  /-- An instruction with no meaning yet: raised by `exec` alone. Safe. -/
  | notModelled (mnemonic : String)
  /-- A CATALOG that fails 41_code_tables.md R141: raised by the container's power-up step. Safe. -/
  | catalogRefused (defect : CatalogDefect)
  /-- A lookup that gives no command: raised by a SETUP or DECODE step whose store was built from no
  accepted catalog (30_encoding.md R89). Safe; no state of the invariant raises it. -/
  | undecodable (reason : DecodeReject)
  /-- A START that breaks a premise: raised by the container's launch and by `Cluster.startBlock`
  (70_reset_and_hazards.md R273; log 19). Safe. -/
  | launchRefused (premise : LaunchPremise)
  deriving DecidableEq, Repr

end Sys2Proof.Machine
end

