-- ==== Sys2Proof/Machine/Memory.lean ====
section
/-! DEFINITION. Operations on a memory in its canonical form, and the little-endian reads of the file
(00_scope.md R13; 45_host_container.md R213). -/

namespace Sys2Proof.Machine

/-- The byte at an address; an unlisted address reads as 0 (log 6). -/
def Memory.read : Memory → Nat → Byte
  | [], _ => 0
  | (b, w) :: m, a => if a = b then w else Memory.read m a

/-- Write one byte, keeping the canonical form: a 0 removes the entry. -/
def Memory.write : Memory → Nat → Byte → Memory
  | [], a, v => if v = 0 then [] else [(a, v)]
  | (b, w) :: m, a, v =>
    if a < b then (if v = 0 then (b, w) :: m else (a, v) :: (b, w) :: m)
    else if a = b then (if v = 0 then m else (a, v) :: m)
    else (b, w) :: Memory.write m a v

/-- The form holds from address `lo` on: addresses at least `lo`, strictly rising, no byte 0. -/
def Memory.wfFrom : Nat → Memory → Bool
  | _, [] => true
  | lo, (b, w) :: m => decide (lo ≤ b) && !(w == 0) && Memory.wfFrom (b + 1) m

/-- The canonical form. -/
def Memory.wf (m : Memory) : Bool := Memory.wfFrom 0 m

/-- The memory that holds the given bytes from address `base` on, and 0 elsewhere. -/
def Memory.ofBytes : Nat → List Byte → Memory
  | _, [] => []
  | base, v :: vs => if v = 0 then Memory.ofBytes (base + 1) vs else (base, v) :: Memory.ofBytes (base + 1) vs

/-- `n` bytes of a memory from address `base` on. -/
def Memory.slice (m : Memory) (base n : Nat) : List Byte := (List.range n).map fun k => m.read (base + k)

/-- Copy `n` bytes of `src` from `from_` into a memory at `to_`, one at a time in increasing order
(20_memory.md R57; RAW's copy). -/
def copyInput (src : Memory) : Nat → Nat → Nat → Memory → Memory
  | 0, _, _, m => m
  | n + 1, from_, to_, m => copyInput src n (from_ + 1) (to_ + 1) (m.write to_ (src.read from_))

/-- Copy `n` bytes inside one memory, one at a time in increasing order, each read after every earlier
write (20_memory.md R61; MATCH's copy). -/
def copyOutput : Nat → Nat → Nat → Memory → Memory
  | 0, _, _, m => m
  | n + 1, from_, to_, m => copyOutput n (from_ + 1) (to_ + 1) (m.write to_ (m.read from_))

/-- The image of a file's bytes (45_host_container.md R210). -/
def FileImage.ofBytes (bytes : List Byte) : FileImage :=
  { len := bytes.length, bytes := Memory.ofBytes 0 bytes }

/-- `LE16(FILE, a)` (00_scope.md R13). -/
def FileImage.le16 (f : FileImage) (a : Nat) : Half := f.bytes.read (a + 1) ++ f.bytes.read a

/-- `LE32(FILE, a)` (00_scope.md R13). -/
def FileImage.le32 (f : FileImage) (a : Nat) : Word :=
  f.bytes.read (a + 3) ++ f.bytes.read (a + 2) ++ f.bytes.read (a + 1) ++ f.bytes.read a

end Sys2Proof.Machine
end

