-- ==== Sys2Proof/Machine/Reader.lean ====
section
/-! DEFINITION. Unit BR: the word fetch and the bit reader's one operation NEXT (20_memory.md R53;
40_bit_reader.md R110 to R122). -/

namespace Sys2Proof.Machine

/-- The byte FetchWord reads at a block-relative offset: 0 at or past L (20_memory.md R53). -/
def State.fetchByte (s : State) (i : Nat) : Byte :=
  if i < s.engine.inLen then s.file.bytes.read (s.engine.inBase + i) else 0

/-- `FetchWord(a)`: LE32 of four block bytes, zero-filled past the block's end (20_memory.md R53). -/
def State.fetchWord (s : State) (a : Nat) : Word :=
  s.fetchByte (a + 3) ++ s.fetchByte (a + 2) ++ s.fetchByte (a + 1) ++ s.fetchByte a

/-- NEXT(n) on the reader's registers, with the block's word fetch as an argument: the result and the
registers after it, or the fault InvalidBitRequest, which changes no register. The branches are
40_bit_reader.md R111, R112, R113, R114, R115, R116 in that order. -/
def BitReader.next (fetch : Nat → Word) (n : Nat) (br : BitReader) : Except Status (Word × BitReader) :=
  if n < 1 ∨ 32 < n then
    .error { kind := .invalidBitRequest, info := .bitRequest n br.fetchPtr }
  else if br.bitsUsed = 0 then
    if n = 32 then
      .ok (br.word, { br with word := fetch br.fetchPtr, fetchPtr := br.fetchPtr + 4 })
    else
      let result := br.word <<< (32 - n)
      .ok (result,
        { word := fetch br.fetchPtr
          bitsUsed := n
          remainder := br.word ^^^ (result >>> (32 - n))
          fetchPtr := br.fetchPtr + 4 })
  else if n = 32 - br.bitsUsed then
    .ok (br.remainder, { br with bitsUsed := 0 })
  else if n < 32 - br.bitsUsed then
    let shift := 32 - n - br.bitsUsed
    let result := br.remainder <<< shift
    .ok (result,
      { br with
        remainder := br.remainder ^^^ (result >>> shift)
        bitsUsed := br.bitsUsed + n })
  else
    let extra := n - (32 - br.bitsUsed)
    let top := br.word <<< (32 - extra)
    .ok ((br.remainder >>> extra) ||| top,
      { word := fetch br.fetchPtr
        bitsUsed := extra
        remainder := br.word ^^^ (top >>> (32 - extra))
        fetchPtr := br.fetchPtr + 4 })

/-- The value of an `n`-bit field that NEXT(n) delivered left-justified (40_bit_reader.md R121). -/
def fieldValue (n : Nat) (result : Word) : Nat := result.toNat >>> (32 - n)

end Sys2Proof.Machine
end

