-- ==== Sys2Proof/Machine/Ops.lean ====
section
/-! DEFINITION. The named updates of the state and the operations the steps share: taking a fault
(60_exceptions.md R246), START (70_reset_and_hazards.md R270), NEXT on the whole state, the consumption
of a code field, Refill and Extract (42_block_decoder.md R164, R166, R167). -/

namespace Sys2Proof.Machine

/-- The state with another engine. -/
def State.withEngine (s : State) (e : Engine) : State := { s with engine := e }

/-- The state with another output buffer. -/
def State.withBuf (s : State) (m : Memory) : State := { s with buf := m }

/-- The state with another container decoder. -/
def State.withContainer (s : State) (c : Container) : State := { s with container := c }

/-- The engine with another bit reader. -/
def Engine.withReader (e : Engine) (br : BitReader) : Engine := { e with br := br }

/-- The engine with another accumulator and count of consumed bits. -/
def Engine.withAcc (e : Engine) (acc : Word) (pendingBits : Nat) : Engine :=
  { e with acc := acc, pendingBits := pendingBits }

/-- `phase <- P`. -/
def Engine.withPhase (e : Engine) (p : Phase) : Engine := { e with phase := p }

/-- The engine after `n` bytes written to OUT. -/
def Engine.advanceOut (e : Engine) (n : Nat) : Engine := { e with written := e.written + n }

/-- The engine after `n` literal bytes read from IN. -/
def Engine.advanceIn (e : Engine) (n : Nat) : Engine := { e with inPtr := e.inPtr + n }

/-- Fault entry in the engine: status and phase are written, every other register keeps its value
(60_exceptions.md R246). -/
def Engine.takeFault (e : Engine) (st : Status) : Engine := { e with status := st, phase := .fault }

/-- TAKING A FAULT: `raise F(info)` in an engine step (60_exceptions.md R246; log 7). There is no
vector, no saved pc and no mode; the register writes the step made before the raise stand. There is no
return from a fault: FAULT is left only by START (R249). -/
def State.raise (s : State) (st : Status) : State := s.withEngine (s.engine.takeFault st)

/-- What the host gives START: the places and lengths of IN and OUT (45_host_container.md R219). -/
structure Launch where
  inBase : Nat
  inLen : Nat
  windowBase : Nat
  windowCapacity : Nat
  deriving DecidableEq, Repr

/-- The first premise of START that a launch breaks (70_reset_and_hazards.md R270, R273; log 19). IN and
OUT never overlap here, since file and buffer are separate memories (20_memory.md R64). -/
def brokenPremise? (l : Launch) (s : State) : Option LaunchPremise :=
  if ¬(s.engine.phase = .idle ∨ s.engine.phase = .done ∨ s.engine.phase = .fault) then some .enginePhase
  else if Config.maxBlockOutput < l.windowCapacity then some .windowTooLarge
  else if s.file.len < l.inBase + l.inLen then some .inputOutsideFile
  else if s.container.totalUncompressedSize < l.windowBase + l.windowCapacity then
    some .windowOutsideBuffer
  else none

/-- The engine with the launch's values, for START's own fetch of word 0. -/
def Engine.launched (e : Engine) (l : Launch) : Engine :=
  { e with
    inBase := l.inBase
    inLen := l.inLen
    windowBase := l.windowBase
    windowCapacity := l.windowCapacity }

/-- The engine START leaves (70_reset_and_hazards.md R270), `word0` being FetchWord(0) of the new
block. -/
def Engine.started (l : Launch) (word0 : Word) : Engine :=
  { br := { word := word0, bitsUsed := 0, remainder := 0, fetchPtr := 4 }
    acc := 0
    pendingBits := 0
    tableSel := 0
    offsetShift := 0
    unpackInfoByteLength := 0
    logicalCapacity := 0
    written := 0
    inPtr := 0
    inBase := l.inBase
    inLen := l.inLen
    windowBase := l.windowBase
    windowCapacity := l.windowCapacity
    phase := .setup
    status := Status.clear }

/-- START (70_reset_and_hazards.md R270): the per-block reset. It reads and writes no byte of OUT. -/
def start (l : Launch) (s : State) : Except LaunchPremise State :=
  match brokenPremise? l s with
  | some p => .error p
  | none => .ok (s.withEngine (Engine.started l ((s.withEngine (s.engine.launched l)).fetchWord 0)))

/-- NEXT(n) of the engine (40_bit_reader.md R110): only the bit reader's registers change (R122). -/
def State.nextBits (n : Nat) (s : State) : Except Status (Word × State) :=
  match s.engine.br.next s.fetchWord n with
  | .error st => .error st
  | .ok (r, br) => .ok (r, s.withEngine (s.engine.withReader br))

/-- The consumption of the code field that begins every DECODE step (42_block_decoder.md R164). -/
def State.consumeCode (e : CodeTableEntry) (s : State) : State :=
  s.withEngine
    (s.engine.withAcc (s.engine.acc >>> e.codeLen.toNat) (s.engine.pendingBits + e.codeLen.toNat))

/-- Refill (42_block_decoder.md R166): `acc <- acc | NEXT(pendingBits)`. -/
def State.refill (s : State) : Except Status State :=
  match s.nextBits s.engine.pendingBits with
  | .error st => .error st
  | .ok (r, s') => .ok (s'.withEngine (s'.engine.withAcc (s'.engine.acc ||| r) s'.engine.pendingBits))

/-- Extract(k) (42_block_decoder.md R167): the low `k` bits of the accumulator, and the accumulator
shifted right by `k`. -/
def extract (k : Nat) (acc : Word) : Nat × Word := (acc.toNat % 2 ^ k, acc >>> k)

/-- The accumulator's side of Extract(k) (42_block_decoder.md R167). Its value is the command's
operand, which `fetch` read with the same `extract` (log 14). -/
def State.dropBits (k : Nat) (s : State) : State :=
  s.withEngine (s.engine.withAcc (extract k s.engine.acc).2 s.engine.pendingBits)

/-- `pendingBits <- n`. -/
def State.setPending (n : Nat) (s : State) : State :=
  s.withEngine (s.engine.withAcc s.engine.acc n)

/-- Whether a copy of `amount` bytes to OUT at `written` would reach an offset that OUT does not have
(20_memory.md R52; log 9). -/
abbrev Engine.leavesWindow (e : Engine) (amount : Nat) : Prop :=
  0 < amount ∧ e.windowCapacity < e.written + amount

/-- The first offset of such a copy that OUT does not have. -/
def Engine.firstOutside (e : Engine) : Nat := max e.written e.windowCapacity

end Sys2Proof.Machine
end

