-- ==== Sys2Proof/Machine/Operands.lean ====
section
/-! DEFINITION. Operand assembly of RAW and MATCH (30_encoding.md R85) and the parameter LITERAL_START
(00_scope.md R8). -/

namespace Sys2Proof.Machine

/-- `LITERAL_START(len)`: the parameter's value where it differs from the default, else `4 + len`
(00_scope.md R8; 92_eei_decisions.md D2). -/
def literalOffset (ls : LiteralStart) (len : Half) : Nat :=
  match ls.find? (fun entry => entry.1 == len) with
  | some entry => entry.2
  | none => 4 + len.toNat

/-- `lenBase + extraLen`, before the clamp (30_encoding.md R85). -/
def copyLength (e : CodeTableEntry) (extraLen : Nat) : Nat := e.lenBase.toNat + extraLen

/-- The clamp of an amount to `logicalCapacity - written` (30_encoding.md R85). -/
def Engine.clamp (g : Engine) (amount : Nat) : Nat := min amount (g.logicalCapacity - g.written)

/-- `backOffset = offsetBase + (extraOff << offsetShift)` (30_encoding.md R85). -/
def backOffsetOf (e : CodeTableEntry) (offsetShift extraOff : Nat) : Nat :=
  e.offsetBase.toNat + (extraOff <<< offsetShift)

end Sys2Proof.Machine
end

