-- ==== Sys2Proof/Machine/Flags.lean ====
section
/-! DEFINITION. The engine has no flags and no condition codes: what a caller can test is `phase`,
`written` and `status` (10_state.md R35), and only once the block has ended (20_memory.md R62;
60_exceptions.md R258). -/

namespace Sys2Proof.Machine

/-- What the host reads of an engine (10_state.md R35). -/
structure Report where
  phase : Phase
  written : Nat
  status : Status
  deriving DecidableEq, Repr

/-- The host's reading of an engine: none before DONE or FAULT (60_exceptions.md R258). -/
def Engine.report (e : Engine) : Option Report :=
  match e.phase with
  | .done => some { phase := e.phase, written := e.written, status := e.status }
  | .fault => some { phase := e.phase, written := e.written, status := e.status }
  | .idle => none
  | .setup => none
  | .check => none
  | .decode => none

/-- The numbers of the fault kinds (60_exceptions.md R240). -/
def FaultKind.number : FaultKind → Nat
  | .none => 0
  | .invalidHeader => 1
  | .unsupportedOffsetTable => 2
  | .truncatedBlock => 3
  | .invalidBitRequest => 4
  | .invalidBackReference => 5
  | .invalidCapacity => 6
  | .capacityOverrun => 7

/-- The bits NEXT has delivered since START (10_state.md R36, its `D`). -/
def BitReader.delivered (br : BitReader) : Nat :=
  if br.bitsUsed = 0 then 32 * (br.fetchPtr / 4 - 1)
  else 32 * (br.fetchPtr / 4 - 2) + br.bitsUsed

/-- `streamPos`: the stream bits the decoder has consumed, while `pendingBits <= 32`
(10_state.md R36). -/
def Engine.streamPos (e : Engine) : Nat := e.br.delivered - (32 - e.pendingBits)

end Sys2Proof.Machine
end

