-- ==== Sys2Proof/Machine/Copy.lean ====
section
/-! DEFINITION. The meanings of the three commands, each from the start of its DECODE step: the
consumption of the code field (42_block_decoder.md R164), then the command's own text (R168, R171, R172).
The extra-bit operands are the values Extract reads from the refilled accumulator (log 14). -/

namespace Sys2Proof.Machine

/-- LIT (42_block_decoder.md R172): CapacityOverrun, then TruncatedBlock, then one byte of IN to OUT. -/
def execLit (e : CodeTableEntry) (s : State) : Host.Outcome State Fault Refusal :=
  let s₁ := s.consumeCode e
  let g := s₁.engine
  if g.written = g.logicalCapacity then
    .next (s₁.raise { kind := .capacityOverrun, info := .overrun g.written g.logicalCapacity })
  else if g.inLen ≤ g.inPtr then
    .next (s₁.raise { kind := .truncatedBlock, info := .truncated g.inPtr 1 g.inLen })
  else if g.leavesWindow 1 then .fault (.outsideWindow g.firstOutside)
  else
    .next ((s₁.withBuf
        (s₁.buf.write (g.windowBase + g.written) (s₁.file.bytes.read (g.inBase + g.inPtr)))).withEngine
      (((g.advanceOut 1).advanceIn 1).withPhase .check))

/-- RAW (42_block_decoder.md R171): Refill (InvalidBitRequest), Extract, the clamp, TruncatedBlock, then
a run of bytes of IN to OUT. A run of no byte faults on no cursor: R171's corner cases, and
70_reset_and_hazards.md R276 and R278, which send it to CHECK (log 10). -/
def execRaw (e : CodeTableEntry) (extraLen : Nat) (s : State) : Host.Outcome State Fault Refusal :=
  let s₁ := s.consumeCode e
  match s₁.refill with
  | .error st => .next (s₁.raise st)
  | .ok s₂ =>
    let s₃ := (s₂.dropBits e.lenExtraBits.toNat).setPending e.lenExtraBits.toNat
    let g := s₃.engine
    let amount := g.clamp (copyLength e extraLen)
    if 0 < amount ∧ g.inLen < g.inPtr + amount then
      .next (s₃.raise { kind := .truncatedBlock, info := .truncated g.inPtr amount g.inLen })
    else if g.leavesWindow amount then .fault (.outsideWindow g.firstOutside)
    else
      .next ((s₃.withBuf
          (copyInput s₃.file.bytes amount (g.inBase + g.inPtr) (g.windowBase + g.written) s₃.buf)).withEngine
        (((g.advanceOut amount).advanceIn amount).withPhase .check))

/-- MATCH (42_block_decoder.md R168 to R170): Refill (InvalidBitRequest), two Extracts, the clamp,
InvalidBackReference where a byte is to be copied, then the byte-serial copy of earlier output. -/
def execMatch (e : CodeTableEntry) (extraLen extraOff : Nat) (s : State) :
    Host.Outcome State Fault Refusal :=
  let s₁ := s.consumeCode e
  match s₁.refill with
  | .error st => .next (s₁.raise st)
  | .ok s₂ =>
    let s₃ := (s₂.dropBits e.lenExtraBits.toNat).dropBits e.offsetExtraBits.toNat
    let g := s₃.engine
    let backOffset := backOffsetOf e g.offsetShift extraOff
    let amount := g.clamp (copyLength e extraLen)
    if 0 < amount ∧ (backOffset = 0 ∨ g.written < backOffset) then
      .next (s₃.raise { kind := .invalidBackReference, info := .backReference g.written backOffset })
    else if g.leavesWindow amount then .fault (.outsideWindow g.firstOutside)
    else
      .next ((s₃.withBuf
          (copyOutput amount (g.windowBase + (g.written - backOffset)) (g.windowBase + g.written)
            s₃.buf)).withEngine
        (((g.advanceOut amount).withAcc g.acc
          (e.lenExtraBits.toNat + e.offsetExtraBits.toNat)).withPhase .decode))

end Sys2Proof.Machine
end

