-- ==== Sys2Proof/Machine/Dispatch.lean ====
section
/-! DEFINITION. The dispatch: one arm per command of spec/opcode_table.json. -/

namespace Sys2Proof.Machine

/-- What the engine does with a decoded command in a DECODE step (42_block_decoder.md R164). -/
def exec (i : Instr) (s : State) : Host.Outcome State Fault Refusal :=
  match i with
  | .lit e => Sys2Proof.Machine.execLit e s
  | .raw e extraLen => Sys2Proof.Machine.execRaw e extraLen s
  | .matchCopy e extraLen extraOff => Sys2Proof.Machine.execMatch e extraLen extraOff s

end Sys2Proof.Machine
end

