-- ==== Sys2Proof/Machine/Control.lean ====
section
/-! DEFINITION. The engine's steps that are no command: SETUP and CHECK (42_block_decoder.md R161 to
R163), and the reading of the command a DECODE step executes (R164). -/

namespace Sys2Proof.Machine

/-- The table the selector names (30_encoding.md R80; 10_state.md R26). -/
def selectedTable? (st : CodeTableStore) (sel : BitVec 2) : Option TableStore := st[sel.toNat]?

/-- The engine after SETUP's last writes, `f` being the 32-bit selector field (42_block_decoder.md
R161). -/
def Engine.afterSetup (g : Engine) (capField : Nat) (f : Word) (offsetShift inPtr : Nat) : Engine :=
  { g with
    logicalCapacity := Config.maxBlockOutput - capField
    tableSel := f.setWidth 2
    acc := f >>> 2
    pendingBits := 2
    offsetShift := offsetShift
    inPtr := inPtr
    phase := .check }

/-- The engine with the block's first header field (42_block_decoder.md R161). -/
def Engine.withUnpackInfo (g : Engine) (v : Half) : Engine := { g with unpackInfoByteLength := v }

/-- The last third of SETUP: the selector field (42_block_decoder.md R161). -/
def setupSelector (capField : Nat) (s : State) : Host.Outcome State Fault Refusal :=
  match s.nextBits 32 with
  | .error st => .next (s.raise st)
  | .ok (f, s') =>
    match selectedTable? s'.store (f.setWidth 2) with
    | none => .refused (.undecodable .noTable)
    | some t =>
      .next (s'.withEngine
        (s'.engine.afterSetup capField f t.offsetShift
          (literalOffset s'.literalStart s'.engine.unpackInfoByteLength)))

/-- The middle third of SETUP: the capacity field and its check (42_block_decoder.md R161, R162). -/
def setupCapacity (s : State) : Host.Outcome State Fault Refusal :=
  match s.nextBits 16 with
  | .error st => .next (s.raise st)
  | .ok (r, s') =>
    let capField := fieldValue 16 r
    if Config.maxBlockOutput < capField ∨
        s'.engine.windowCapacity < Config.maxBlockOutput - capField then
      .next (s'.raise
        { kind := .invalidCapacity, info := .capacity capField s'.engine.windowCapacity })
    else setupSelector capField s'

/-- SETUP (42_block_decoder.md R161): the block header and the table selector. -/
def setupStep (s : State) : Host.Outcome State Fault Refusal :=
  match s.nextBits 16 with
  | .error st => .next (s.raise st)
  | .ok (r, s') =>
    setupCapacity (s'.withEngine (s'.engine.withUnpackInfo (BitVec.ofNat 16 (fieldValue 16 r))))

/-- CHECK (42_block_decoder.md R163): the termination test. -/
def checkStep (s : State) : Host.Outcome State Fault Refusal :=
  if s.engine.written = s.engine.logicalCapacity then
    .next (s.withEngine (s.engine.withPhase .done))
  else .next (s.withEngine (s.engine.withPhase .decode))

/-- The bits a command's extra-bit fields are extracted from: the accumulator after the code field is
consumed and the refill is made (30_encoding.md R87). Where the refill faults there are none, and the
command raises that fault before it uses them (log 14). -/
def extraBitsAt (e : CodeTableEntry) (s : State) : Nat :=
  match (s.consumeCode e).refill with
  | .ok s' => s'.engine.acc.toNat
  | .error _ => 0

/-- The command at the engine's stream position: the lookup of the accumulator's low bits in the
selected table, and the extra-bit fields (42_block_decoder.md R164, R167). -/
def fetch (s : State) : Except DecodeReject Instr :=
  match selectedTable? s.store s.engine.tableSel with
  | none => .error .noTable
  | some t =>
    match decodeEntry t s.engine.acc.toNat with
    | .error r => .error r
    | .ok e => decodeFields e (extraBitsAt e s)

/-- DECODE (42_block_decoder.md R164): one whole command, atomically. -/
def decodeStep (s : State) : Host.Outcome State Fault Refusal :=
  match fetch s with
  | .error r => .refused (.undecodable r)
  | .ok i => exec i s

/-- One step of an engine: one phase (00_scope.md R14; 42_block_decoder.md R174). IDLE, DONE and FAULT
have no step of their own (log 8). -/
def engineStep (s : State) : Host.Outcome State Fault Refusal :=
  match s.engine.phase with
  | .setup => setupStep s
  | .check => checkStep s
  | .decode => decodeStep s
  | .idle => .fault .noStepEnabled
  | .done => .fault .noStepEnabled
  | .fault => .fault .noStepEnabled

end Sys2Proof.Machine
end

