-- ==== Sys2Proof/Machine/Container.lean ====
section
/-! DEFINITION. The container decoder, the spec's host: header checks, offset table, block ranges, launch,
cursor and result (45_host_container.md R210 to R224; 70_reset_and_hazards.md R272). -/

namespace Sys2Proof.Machine

/-- A header field's file offset (45_host_container.md R211). -/
def HeaderField.offset : HeaderField → Nat
  | .version => 0x00
  | .flag => 0x02
  | .signature => 0x04
  | .totalUncompressedSize => 0x0C
  | .compressionMode => 0x10
  | .reserved => 0x12

/-- A header field's size in bytes (45_host_container.md R211). -/
def HeaderField.size : HeaderField → Nat
  | .version => 2
  | .flag => 2
  | .signature => 8
  | .totalUncompressedSize => 4
  | .compressionMode => 2
  | .reserved => 2

/-- The bytes of "CPRNAV_2" (45_host_container.md R211). -/
def signatureBytes : List Byte := [0x43, 0x50, 0x52, 0x4E, 0x41, 0x56, 0x5F, 0x32]

/-- What a header field must be (45_host_container.md R211, R212, R214). -/
def HeaderField.expected : HeaderField → HeaderExpected
  | .version => .equals (.num 5)
  | .flag => .atMost 64
  | .signature => .equals (.text signatureBytes)
  | .totalUncompressedSize => .anything
  | .compressionMode => .equals (.num 3)
  | .reserved => .anything

/-- A header field as the host reads it: numbers little-endian (45_host_container.md R213). -/
def FileImage.headerValue (f : FileImage) : HeaderField → HeaderValue
  | .version => .num (f.le16 0x00).toNat
  | .flag => .num (f.le16 0x02).toNat
  | .signature => .text (f.bytes.slice 0x04 8)
  | .totalUncompressedSize => .num (f.le32 0x0C).toNat
  | .compressionMode => .num (f.le16 0x10).toNat
  | .reserved => .num (f.le16 0x12).toNat

/-- Whether a value is what is expected. -/
def HeaderExpected.accepts : HeaderExpected → HeaderValue → Bool
  | .equals v, w => v == w
  | .atMost n, .num m => decide (m ≤ n)
  | .atMost _, .text _ => false
  | .anything, _ => true

/-- The fault of one header field: the file does not fully contain it, or its value is not the one
expected (45_host_container.md R212, R214). -/
def FileImage.fieldFault? (f : FileImage) (h : HeaderField) : Option Status :=
  if f.len < h.offset + h.size then
    some { kind := .invalidHeader, info := .header h h.expected none }
  else if h.expected.accepts (f.headerValue h) then none
  else some { kind := .invalidHeader, info := .header h h.expected (some (f.headerValue h)) }

/-- The header fields in the order the host checks them (45_host_container.md R214). -/
def headerFields : List HeaderField :=
  [.version, .flag, .signature, .totalUncompressedSize, .compressionMode, .reserved]

/-- The header check: the first field that fails (45_host_container.md R212, R214). -/
def FileImage.headerFault? (f : FileImage) : Option Status := headerFields.findSome? f.fieldFault?

/-- `UnsupportedOffsetTable` with the given record (45_host_container.md R215). -/
def offsetTableFault (cursor : Nat) (v0 : Option Nat) : Status :=
  { kind := .unsupportedOffsetTable, info := .offsetTable cursor v0 }

/-- The loop of 45_host_container.md R215 from `cur` on: the block ends and the cursor the loop stops
at, or the fault of an entry past the file's end. The cursor rises by 4 at each pass, so `v0` passes
are enough and the first line is never reached with `cur < v0`. -/
def FileImage.readEnds (f : FileImage) (v0 : Nat) : Nat → Nat → Except Status (List Nat × Nat)
  | 0, cur => .ok ([], cur)
  | fuel + 1, cur =>
    if cur < v0 then
      if f.len < cur + 4 then .error (offsetTableFault cur none)
      else
        match f.readEnds v0 fuel (cur + 4) with
        | .error st => .error st
        | .ok (ends, last) => .ok ((f.le32 cur).toNat :: ends, last)
    else .ok ([], cur)

/-- The block ranges: each block starts where the one before it ends (45_host_container.md R216). -/
def blockRanges : Nat → List Nat → List BlockRange
  | _, [] => []
  | start, stop :: ends => { start := start, stop := stop } :: blockRanges stop ends

/-- The range checks in block order, from block `i` on (45_host_container.md R217). -/
def rangeFault? (fileLength : Nat) : Nat → List BlockRange → Option Status
  | _, [] => none
  | i, b :: bs =>
    if b.stop < b.start then
      some { kind := .unsupportedOffsetTable, info := .offsetTableBlock i }
    else if fileLength < b.stop then
      some { kind := .truncatedBlock, info := .truncatedRange i b.stop fileLength }
    else rangeFault? fileLength (i + 1) bs

/-- The offset table: the block ranges, or the error (45_host_container.md R215 to R217). -/
def FileImage.parseBlocks (f : FileImage) : Except Status (List BlockRange) :=
  if f.len < 0x18 then .error (offsetTableFault 0x14 none)
  else
    let v0 := (f.le32 0x14).toNat
    match f.readEnds v0 v0 0x18 with
    | .error st => .error st
    | .ok (ends, cur) =>
      if cur = v0 then
        match rangeFault? f.len 0 (blockRanges v0 ends) with
        | some st => .error st
        | none => .ok (blockRanges v0 ends)
      else .error (offsetTableFault cur (some v0))

/-- The checks of a file before any block is started, in order: header, offset table, ranges
(60_exceptions.md R248; 70_reset_and_hazards.md R272 (2)). -/
def FileImage.parse (f : FileImage) : Except Status (List BlockRange) :=
  match f.headerFault? with
  | some st => .error st
  | none => f.parseBlocks

/-- The window a block is launched with at a cursor (45_host_container.md R219). -/
def windowCapacityAt (total writeCursor : Nat) : Nat := min Config.maxBlockOutput (total - writeCursor)

/-- The launch of a block (45_host_container.md R219). -/
def Container.launchOf (c : Container) (b : BlockRange) : Launch :=
  { inBase := b.start
    inLen := b.stop - b.start
    windowBase := c.writeCursor
    windowCapacity := windowCapacityAt c.totalUncompressedSize c.writeCursor }

/-- The cursor after a block that wrote `written` bytes (45_host_container.md R220). -/
def advanceCursor (total writeCursor written : Nat) : Nat :=
  min ((writeCursor + written + (Config.maxBlockOutput - 1)) / Config.maxBlockOutput
    * Config.maxBlockOutput) total

/-- The file's error result; no further block is started (45_host_container.md R221). -/
def Container.fail (c : Container) (st : Status) (block : Option Nat) : Container :=
  { c with phase := .returned (.error st block) }

/-- The step that checks CATALOG (70_reset_and_hazards.md R272 (1)). -/
def powerUpStep (s : State) : Host.Outcome State Fault Refusal :=
  match Catalog.defect? (catalogOf s.store) with
  | some d => .refused (.catalogRefused d)
  | none => .next (s.withContainer { s.container with phase := .awaitFile })

/-- The step that checks a file and allocates the output buffer, all bytes 0
(70_reset_and_hazards.md R272 (2), (3); 45_host_container.md R219). -/
def checkFileStep (s : State) : Host.Outcome State Fault Refusal :=
  match s.file.parse with
  | .error st => .next (s.withContainer (s.container.fail st none))
  | .ok blocks =>
    .next ((s.withBuf []).withContainer
      { phase := .nextBlock
        totalUncompressedSize := (s.file.le32 0x0C).toNat
        blocks := blocks
        blockIndex := 0
        writeCursor := 0 })

/-- The step that starts the next block, or returns the buffer when there is none
(45_host_container.md R218, R219, R222). -/
def nextBlockStep (s : State) : Host.Outcome State Fault Refusal :=
  match s.container.blocks[s.container.blockIndex]? with
  | none => .next (s.withContainer { s.container with phase := .returned .buffer })
  | some b =>
    match start (s.container.launchOf b) s with
    | .error p => .refused (.launchRefused p)
    | .ok s' => .next (s'.withContainer { s'.container with phase := .decoding })

/-- The step that takes a block's result from the engine (45_host_container.md R220, R221). -/
def collectStep (s : State) : Host.Outcome State Fault Refusal :=
  match s.engine.report with
  | none => .fault .noStepEnabled
  | some r =>
    if r.phase = .fault then
      .next (s.withContainer (s.container.fail r.status (some s.container.blockIndex)))
    else
      .next (s.withContainer
        { s.container with
          phase := .nextBlock
          blockIndex := s.container.blockIndex + 1
          writeCursor :=
            advanceCursor s.container.totalUncompressedSize s.container.writeCursor r.written })

/-- One step of the container decoder. Where it awaits a file, and where a result stands, the next event
is the caller's (log 8, log 12). -/
def containerStep (s : State) : Host.Outcome State Fault Refusal :=
  match s.container.phase with
  | .powerUp => powerUpStep s
  | .awaitFile => .fault .noStepEnabled
  | .checkFile => checkFileStep s
  | .nextBlock => nextBlockStep s
  | .decoding => collectStep s
  | .returned _ => .fault .noStepEnabled

/-- The caller hands over a file's bytes (45_host_container.md R210; log 12). It is no step of the
machine; it may come while a file is awaited or a result stands, and changes nothing otherwise. -/
def State.submit (bytes : List Byte) (s : State) : State :=
  match s.container.phase with
  | .awaitFile =>
    { s with file := FileImage.ofBytes bytes, container := { s.container with phase := .checkFile } }
  | .returned _ =>
    { s with file := FileImage.ofBytes bytes, container := { s.container with phase := .checkFile } }
  | .powerUp => s
  | .checkFile => s
  | .nextBlock => s
  | .decoding => s

/-- What the caller is given at the end: the buffer's bytes, or the error; none while no result stands
(45_host_container.md R221, R222). After an error the buffer has no value here (log 21). -/
def State.output (s : State) : Option (Except (Status × Option Nat) (List Byte)) :=
  match s.container.phase with
  | .returned .buffer => some (.ok (s.buf.slice 0 s.container.totalUncompressedSize))
  | .returned (.error st block) => some (.error (st, block))
  | .powerUp => none
  | .awaitFile => none
  | .checkFile => none
  | .nextBlock => none
  | .decoding => none

/-- `capField` of a block as its bytes give it: LE16 at offset 2, zero-filled past the block's end
(30_encoding.md R80). -/
def FileImage.capField (f : FileImage) (b : BlockRange) : Nat :=
  let byteAt := fun i => if i < b.stop - b.start then f.bytes.read (b.start + i) else (0 : Byte)
  (byteAt 3 ++ byteAt 2 : BitVec 16).toNat

/-- The window base of block `i` computed from the earlier blocks' capacity fields alone
(45_host_container.md R223). -/
def windowBaseOf (f : FileImage) (total : Nat) (blocks : List BlockRange) (i : Nat) : Nat :=
  min (Config.maxBlockOutput
    * (blocks.take i).countP (fun b => decide (f.capField b < Config.maxBlockOutput))) total

end Sys2Proof.Machine
end

