-- ==== Sys2Proof/Machine/Load.lean ====
section
/-! DEFINITION. Placing one command where the engine decodes next (log 13): a block whose command stream
begins with it, brought to its first DECODE step by START, SETUP and CHECK. -/

namespace Sys2Proof.Machine

/-- The bytes of a block of capacity 1 whose stream is selector 0 and then the given bits, with one
literal byte 0 (30_encoding.md R80). -/
def wordBlock (stream : Nat) : List Byte :=
  leBytes 2 4 ++ leBytes 2 (Config.maxBlockOutput - 1) ++ leBytes 4 (2 ^ 2 * stream) ++ [0]

/-- The machine with EXCAT, the default LITERAL_START and that block as its file, the engine idle and
the container ready to launch it. -/
def State.withWordBlock (s : State) (stream : Nat) : State :=
  { s with
    store := buildStore excat
    literalStart := []
    engine := s.engine.withPhase .idle
    file := FileImage.ofBytes (wordBlock stream)
    container :=
      { phase := .decoding
        totalUncompressedSize := 1
        blocks := [{ start := 0, stop := (wordBlock stream).length }]
        blockIndex := 0
        writeCursor := 0 } }

/-- START of that block, then SETUP and CHECK. -/
def State.launchWordBlock (s : State) (stream : Nat) : State :=
  let s₀ := s.withWordBlock stream
  match start (s₀.container.launchOf { start := 0, stop := (wordBlock stream).length }) s₀ with
  | .error _ => s₀
  | .ok s₁ =>
    match setupStep s₁ with
    | .fault _ => s₁
    | .refused _ => s₁
    | .next s₂ =>
      match checkStep s₂ with
      | .fault _ => s₂
      | .refused _ => s₂
      | .next s₃ => s₃

end Sys2Proof.Machine
end

