-- ==== Sys2Proof/Machine/Step.lean ====
section
/-! DEFINITION. The machine's step: the engine moves in SETUP, CHECK and DECODE, the container decoder
otherwise (70_reset_and_hazards.md R272; log 11). -/

namespace Sys2Proof.Machine

/-- One step of the machine. -/
def step (s : State) : Host.Outcome State Fault Refusal :=
  match s.engine.phase with
  | .setup => engineStep s
  | .check => engineStep s
  | .decode => engineStep s
  | .idle => containerStep s
  | .done => containerStep s
  | .fault => containerStep s

/-- The state with the instruction of a word of spec/opcode_table.json placed where the next step
decodes (log 13). `_nbits` is the row's length; a row here has no bits beyond the command kind. -/
def State.withFetchWord (s : State) (_nbits w : Nat) : State :=
  match tableWordStream w with
  | some stream => s.launchWordBlock stream
  | none => s

end Sys2Proof.Machine
end

