-- ==== Sys2Proof/Machine/Instances.lean ====
section
/-! DEFINITION. Several engine instances side by side (60_exceptions.md R256 to R258; 00_scope.md R10).
`step` is the machine at the default INSTANCES = 1; here the host has up to `limit` instances, which
share the store, the file and the buffer, and any of them may take the next step (log 3). -/

namespace Sys2Proof.Machine

/-- One instance: the block it was started on, and its registers. -/
structure Slot where
  block : Nat
  engine : Engine
  deriving DecidableEq, Repr

/-- The instances and what they share. -/
structure Cluster where
  /-- INSTANCES (00_scope.md R10). -/
  limit : Instances
  store : CodeTableStore
  literalStart : LiteralStart
  file : FileImage
  buf : Memory
  container : Container
  slots : List Slot
  deriving DecidableEq, Repr

/-- The instances of a machine whose file has been checked, none started yet; INSTANCES is 1 where no
other value is given (00_scope.md R10). -/
def State.cluster (s : State) (limit : Instances := Config.instances) : Cluster :=
  { limit := limit
    store := s.store
    literalStart := s.literalStart
    file := s.file
    buf := s.buf
    container := s.container
    slots := [] }

/-- The windows of two engines share no byte of the buffer (60_exceptions.md R256). -/
abbrev Engine.windowsDisjoint (e f : Engine) : Prop :=
  e.windowBase + e.windowCapacity ≤ f.windowBase ∨ f.windowBase + f.windowCapacity ≤ e.windowBase

/-- The machine as one of its instances sees it: its own registers and what all share. -/
def Cluster.view (c : Cluster) (e : Engine) : State :=
  { store := c.store
    literalStart := c.literalStart
    engine := e
    file := c.file
    buf := c.buf
    container := c.container }

/-- The instances after instance `j` moved to the given state. -/
def Cluster.put (c : Cluster) (j : Nat) (block : Nat) (s : State) : Cluster :=
  { c with buf := s.buf, slots := c.slots.set j { block := block, engine := s.engine } }

/-- One step of instance `j`: the same engine step as the machine's. -/
def Cluster.stepAt (c : Cluster) (j : Nat) : Host.Outcome Cluster Fault Refusal :=
  match c.slots[j]? with
  | none => .fault .noStepEnabled
  | some slot =>
    match engineStep (c.view slot.engine) with
    | .next s => .next (c.put j slot.block s)
    | .fault r => .fault r
    | .refused r => .refused r

/-- The launch of block `i` on any instance: its window base is computed from the earlier blocks'
capacity fields (45_host_container.md R223), so it may be started while they run. -/
def Cluster.launchOf (c : Cluster) (i : Nat) (b : BlockRange) : Launch :=
  let base := windowBaseOf c.file c.container.totalUncompressedSize c.container.blocks i
  { inBase := b.start
    inLen := b.stop - b.start
    windowBase := base
    windowCapacity := windowCapacityAt c.container.totalUncompressedSize base }

/-- Whether the host may start block `i` now: it is the next in order, so that every block below it has
been started, fewer than INSTANCES instances run, and none has faulted (60_exceptions.md R248, R249, R256;
45_host_container.md R221). -/
def Cluster.mayStart (c : Cluster) (i : Nat) : Bool :=
  decide (i = c.slots.length)
    && decide (c.slots.countP (fun slot => slot.engine.report.isNone) < c.limit.val)
    && c.slots.all fun slot => slot.engine.phase != .fault

/-- Whether an engine's window shares a byte with that of an instance that runs (20_memory.md R64). -/
def Cluster.sharesWindow (c : Cluster) (e : Engine) : Bool :=
  c.slots.any fun slot =>
    slot.engine.report.isNone && !decide (slot.engine.windowsDisjoint e)

/-- START of block `i` on a fresh instance (60_exceptions.md R256). A START whose window another running
instance writes is refused (20_memory.md R64; 70_reset_and_hazards.md R273). -/
def Cluster.startBlock (c : Cluster) (i : Nat) : Host.Outcome Cluster Fault Refusal :=
  match c.container.blocks[i]? with
  | none => .fault .noStepEnabled
  | some b =>
    if c.mayStart i then
      match start (c.launchOf i b) (c.view Engine.powerUp) with
      | .error p => .refused (.launchRefused p)
      | .ok s =>
        if c.sharesWindow s.engine then .refused (.launchRefused .windowShared)
        else .next { c with slots := c.slots ++ [{ block := i, engine := s.engine }] }
    else .fault .noStepEnabled

/-- The fault the host reports: that of the lowest block index among the instances that faulted
(60_exceptions.md R257; 92_eei_decisions.md D23). -/
def reportedFault : List Slot → Option (Nat × Status)
  | [] => none
  | slot :: slots =>
    match slot.engine.phase, reportedFault slots with
    | .fault, none => some (slot.block, slot.engine.status)
    | .fault, some (i, st) => if slot.block ≤ i then some (slot.block, slot.engine.status) else some (i, st)
    | _, r => r

/-- Whether block `i` has been started and has ended. -/
def Cluster.ended (c : Cluster) (i : Nat) : Bool :=
  c.slots.any fun slot => slot.block == i && slot.engine.report.isSome

/-- A file's result with several instances: the fault of the lowest faulted block, once every block
below it has ended, so that none of them can still fault (log 3); else the buffer, once every block has
ended (45_host_container.md R221, R222; 60_exceptions.md R257). -/
def Cluster.output (c : Cluster) : Option (Except (Status × Option Nat) (List Byte)) :=
  match reportedFault c.slots with
  | some (i, st) => if (List.range i).all c.ended then some (.error (st, some i)) else none
  | none =>
    if (List.range c.container.blocks.length).all c.ended then
      some (.ok (c.buf.slice 0 c.container.totalUncompressedSize))
    else none

end Sys2Proof.Machine
end

