-- ==== Sys2Proof/Safety.lean ====
section
/-! DEFINITION. Safety: the invariants the spec's rules state of the machine, and the stream a block's
bytes are, in the terms the obligations use. -/

namespace Sys2Proof.Machine

/-- The engine has a block to work on: the phases in which it takes its own steps. -/
abbrev Phase.running (p : Phase) : Prop := p = .setup ∨ p = .check ∨ p = .decode

/-- From the end of SETUP on, until the block has ended (42_block_decoder.md R175; 10_state.md R33). -/
abbrev Phase.pastSetup (p : Phase) : Prop := p = .check ∨ p = .decode ∨ p = .done

/-- The bit reader's invariant (10_state.md R21, R23, R32). -/
abbrev BitReader.Inv (br : BitReader) : Prop :=
  br.bitsUsed < 32 ∧ br.fetchPtr % 4 = 0 ∧
    (0 < br.bitsUsed → br.remainder.toNat % 2 ^ br.bitsUsed = 0)

/-- The accumulator's invariant: its top `min(pendingBits, 32)` bits are zero (10_state.md R33). -/
abbrev Engine.AccInv (e : Engine) : Prop :=
  e.acc.toNat >>> (32 - min e.pendingBits 32) = 0

/-- The bounds of 42_block_decoder.md R175. -/
abbrev Engine.BoundsInv (e : Engine) : Prop :=
  e.written ≤ e.logicalCapacity ∧ e.logicalCapacity ≤ e.windowCapacity ∧
    e.windowCapacity ≤ Config.maxBlockOutput

/-- What holds of the engine in each phase: nothing is written before SETUP ends; afterwards the
accumulator's invariant and the bounds hold, literal bytes have come from inside the block, a command
is decoded only in a block of some capacity, and DONE means full (42_block_decoder.md R163, R173,
R175). -/
abbrev Engine.Inv (e : Engine) : Prop :=
  e.br.Inv ∧
  (e.phase = .setup → e.written = 0 ∧ e.windowCapacity ≤ Config.maxBlockOutput) ∧
  (e.phase.pastSetup → e.AccInv ∧ e.BoundsInv ∧ (0 < e.written → e.inPtr ≤ e.inLen)) ∧
  (e.phase = .decode → 0 < e.logicalCapacity) ∧
  (e.phase = .done → e.written = e.logicalCapacity)

/-- The blocks and the cursor the container decoder works with (45_host_container.md R216, R217,
R220). -/
abbrev State.BlocksInv (s : State) : Prop :=
  (∀ b ∈ s.container.blocks, b.start ≤ b.stop ∧ b.stop ≤ s.file.len) ∧
    s.container.writeCursor ≤ s.container.totalUncompressedSize

/-- The engine has the block the container decoder launched: its input is inside the file, its window
lies at the cursor (45_host_container.md R219). -/
abbrev State.LaunchInv (s : State) : Prop :=
  s.engine.phase ≠ .idle ∧
  s.engine.inBase + s.engine.inLen ≤ s.file.len ∧
  s.engine.windowBase = s.container.writeCursor ∧
  s.engine.windowCapacity =
    windowCapacityAt s.container.totalUncompressedSize s.container.writeCursor

/-- `offsetShift` is the selected table's (10_state.md R26). -/
abbrev State.ShiftInv (s : State) : Prop :=
  (selectedTable? s.store s.engine.tableSel).map (·.offsetShift) = some s.engine.offsetShift

/-- The machine's invariant: memories in canonical form, the engine's invariant, a store built
from its catalog, which is an accepted one from the first step on, and the agreement of engine and container decoder. -/
abbrev State.Inv (s : State) : Prop :=
  (s.file.bytes.wf = true ∧ s.buf.wf = true) ∧
  s.engine.Inv ∧
  s.store = buildStore (catalogOf s.store) ∧
  (s.container.phase ≠ .powerUp → Catalog.wellFormed (catalogOf s.store) = true) ∧
  (s.engine.phase.running → s.container.phase = .decoding) ∧
  (s.container.phase = .decoding → s.LaunchInv) ∧
  (s.container.phase = .nextBlock ∨ s.container.phase = .decoding → s.BlocksInv) ∧
  (s.engine.phase.pastSetup → s.ShiftInv)

/-- Stream bit `k` of the block (30_encoding.md R81; 40_bit_reader.md R118). -/
def State.streamBit (s : State) (k : Nat) : Bool := (s.fetchWord (4 * (k / 32))).getLsbD (k % 32)

/-- The block's stream as one number, bit `k` being stream bit `k` (30_encoding.md R81). -/
def State.blockStream (s : State) : Nat :=
  streamOfBytes ((List.range s.engine.inLen).map s.fetchByte)

/-- The bit reader's registers hold the words its position in the block gives (10_state.md R20 to
R23). -/
abbrev State.ReaderTracks (s : State) : Prop :=
  s.engine.br.word = s.fetchWord (s.engine.br.fetchPtr - 4) ∧ 4 ≤ s.engine.br.fetchPtr ∧
  (0 < s.engine.br.bitsUsed →
    8 ≤ s.engine.br.fetchPtr ∧
    s.engine.br.remainder =
      (s.fetchWord (s.engine.br.fetchPtr - 8) >>> s.engine.br.bitsUsed) <<< s.engine.br.bitsUsed)

/-- The accumulator's live bits are the stream bits from `streamPos` on (10_state.md R24, R36). -/
abbrev State.AccTracks (s : State) : Prop :=
  s.engine.pendingBits ≤ 32 →
    s.engine.acc.toNat = (s.blockStream >>> s.engine.streamPos) % 2 ^ (32 - s.engine.pendingBits)

/-- Reader and accumulator follow the block's stream (10_state.md R36). -/
abbrev State.StreamInv (s : State) : Prop :=
  (s.engine.phase = .setup → s.ReaderTracks ∧ s.engine.br.delivered = 0) ∧
  (s.engine.phase = .check ∨ s.engine.phase = .decode →
    s.ReaderTracks ∧ 32 ≤ s.engine.br.delivered ∧ s.AccTracks)

/-- A sequence of NEXT requests: the results and the state after the last (40_bit_reader.md R118). -/
def State.requestAll : List Nat → State → Except Status (List Word × State)
  | [], s => .ok ([], s)
  | n :: ns, s =>
    match s.nextBits n with
    | .error st => .error st
    | .ok (r, s') =>
      match State.requestAll ns s' with
      | .error st => .error st
      | .ok (rs, t) => .ok (r :: rs, t)

/-- The current block's part of the window bases' rule: the block in turn is the one launched, and
its capacity is the one its bytes give (45_host_container.md R223). -/
abbrev State.CurrentBlockInv (s : State) (b : BlockRange) : Prop :=
  s.engine.inBase = b.start ∧ s.engine.inLen = b.stop - b.start ∧
  (s.engine.phase = .setup → s.engine.br.bitsUsed = 0 ∧ s.engine.br.word = s.fetchWord 0) ∧
  (s.engine.phase.pastSetup →
    s.engine.logicalCapacity = Config.maxBlockOutput - s.file.capField b)

/-- Every block is launched at the window base its predecessors' capacity fields give
(45_host_container.md R223). -/
abbrev State.CursorInv (s : State) : Prop :=
  (s.container.phase = .nextBlock ∨ s.container.phase = .decoding →
    s.container.writeCursor =
      windowBaseOf s.file s.container.totalUncompressedSize s.container.blocks s.container.blockIndex) ∧
  (s.container.phase = .decoding →
    ∃ b ∈ s.container.blocks[s.container.blockIndex]?, s.CurrentBlockInv b)

/-- A byte of the buffer that a block has written: one of an earlier block's capacity, or one the
current block has written so far (42_block_decoder.md R173; 45_host_container.md R223). -/
abbrev State.WrittenByABlock (s : State) (a : Nat) : Prop :=
  (∃ k b, k < s.container.blockIndex ∧ s.container.blocks[k]? = some b ∧
    windowBaseOf s.file s.container.totalUncompressedSize s.container.blocks k ≤ a ∧
    a < windowBaseOf s.file s.container.totalUncompressedSize s.container.blocks k
      + (Config.maxBlockOutput - s.file.capField b)) ∨
  (s.container.phase = .decoding ∧ s.engine.windowBase ≤ a ∧
    a < s.engine.windowBase + s.engine.written)

/-- From the buffer's allocation on, every byte that no block has written is 0 (45_host_container.md
R220, R222). -/
abbrev State.PaddingInv (s : State) : Prop :=
  s.container.phase = .nextBlock ∨ s.container.phase = .decoding ∨
      s.container.phase = .returned .buffer →
    ∀ a, ¬s.WrittenByABlock a → s.buf.read a = 0

/-- A state's engine takes its steps without a stop of the model: no access outside the window, no
undecodable pattern, no refused launch. -/
def State.noStop (s : State) : Prop := ∃ t, step s = .next t

end Sys2Proof.Machine
end

