-- ==== Sys2Proof/Certificates/Slice0/Obligations.lean ====
section
/-! DEFINITION. The obligations: what the spec's rules say the engine, its encodings and its host do.
OBLIGATIONS.json gives each its rules. -/

open Sys2Proof Sys2Proof.Machine

/-! ### Encoding and code tables -/

/-- Words written out from the encoding of 30_encoding.md R84 over EXCAT's entries (41_code_tables.md
R149) decode to the commands they stand for. The two fields of an entry that R149 does not give are 0, the
model's choice (log 16). -/
def Obligations.EncodingWordsDecode : Prop :=
  let t := TableStore.build (excatTable 0)
  decodeBytes t [0x00] = .ok (.lit (excatEntry 0 2 .copyLiteralByte 0 0 0 0), 0) ∧
  decodeBytes t [0x07] = .ok (.lit (excatEntry 7 4 .copyLiteralByte 0 0 0 0), 0) ∧
  decodeBytes t [0x11] = .ok (.raw (excatEntry 1 3 .copyBytesFromInput 2 1 0 0) 2, 0) ∧
  decodeBytes t [0x8E, 0x00] = .ok (.matchCopy (excatEntry 6 3 .copyBytesFromOutput 3 4 8 1) 1 2, 0)

/-- Decode and encode agree: for every accepted table, every command that is well formed for it, with
every value of its extra-bit fields, and whatever follows it in the stream (30_encoding.md R83 to R86). -/
def Obligations.DecodeInvertsEncode : Prop :=
  ∀ (t : CodeTable) (i : Instr) (rest : Nat), t.wellFormed = true → i.wellFormed t = true →
    decodeStream (TableStore.build t) (i.encode + 2 ^ i.bitLength * rest) = .ok (i, rest)

/-- 41_code_tables.md R144: slot `p` of a built index holds the entry whose code equals the low
`codeLen` bits of `p`, and every pattern whose low bits are an entry's code maps to that entry. -/
def Obligations.IndexSlotHoldsTheMatchingEntry : Prop :=
  ∀ (t : CodeTable) (p : Nat), t.wellFormed = true → p < 2 ^ maxLenOf t.entries →
    (∃ k e, (buildIndex t.entries)[p]? = some (some k) ∧ t.entries[k]? = some e ∧
      p % 2 ^ e.codeLen.toNat = e.code.toNat) ∧
    ∀ k e, t.entries[k]? = some e → p % 2 ^ e.codeLen.toNat = e.code.toNat →
      (buildIndex t.entries)[p]? = some (some k)

/-- 30_encoding.md R89: with an accepted catalog all four selector values select a table, and every
pattern with every extra-bit field decodes to a well-formed command of exactly one entry. -/
def Obligations.NoPatternIsIllegal : Prop :=
  ∀ (c : Catalog) (sel : BitVec 2), Catalog.wellFormed c = true →
    ∃ t, selectedTable? (buildStore c) sel = some t ∧
      ∀ source, ∃ e ∈ t.table.entries, decodeEntry t source = .ok e ∧
        source % 2 ^ e.codeLen.toNat = e.code.toNat ∧
        ∀ extras, ∃ i, decodeFields e extras = .ok i ∧ i.wellFormed t.table = true

/-- 41_code_tables.md R141, 70_reset_and_hazards.md R272 (1): the machine's first step accepts the
catalog or refuses it by the name of the first check that fails. That the check is a step of its own is
the model's choice (log 11). -/
def Obligations.CatalogIsCheckedFirst : Prop :=
  ∀ (c : Catalog) (ls : LiteralStart),
    step (State.powerUp c ls) =
      match Catalog.defect? c with
      | some d => .refused (.catalogRefused d)
      | none => .next
          { State.powerUp c ls with container := { Container.powerUp with phase := .awaitFile } }

/-! ### Bit reader -/

/-- 20_memory.md R53: FetchWord is LE32 of four block bytes, each byte at or past L reading as 0. -/
def Obligations.FetchWordZeroFills : Prop :=
  ∀ (s : State) (a i : Nat), i < 4 →
    (s.fetchWord a).extractLsb' (8 * i) 8 =
      if a + i < s.engine.inLen then s.file.bytes.read (s.engine.inBase + (a + i)) else 0

/-- 40_bit_reader.md R111: a count outside 1 to 32 raises InvalidBitRequest, and no register of the
reader changes. -/
def Obligations.NextOutOfRangeRaises : Prop :=
  ∀ (s : State) (n : Nat), n < 1 ∨ 32 < n →
    s.nextBits n =
      .error { kind := .invalidBitRequest, info := .bitRequest n s.engine.br.fetchPtr } ∧
    ∀ st, (s.raise st).engine.br = s.engine.br

/-- 40_bit_reader.md R112 to R116: the five branches of NEXT. -/
def Obligations.NextTakesItsBranches : Prop :=
  ∀ (fetch : Nat → Word) (n : Nat) (br : BitReader), 1 ≤ n → n ≤ 32 → br.bitsUsed < 32 →
    (br.bitsUsed = 0 → n = 32 → br.next fetch n =
      .ok (br.word, { br with word := fetch br.fetchPtr, fetchPtr := br.fetchPtr + 4 })) ∧
    (br.bitsUsed = 0 → n < 32 → br.next fetch n =
      .ok (br.word <<< (32 - n),
        { word := fetch br.fetchPtr, bitsUsed := n, fetchPtr := br.fetchPtr + 4,
          remainder := br.word ^^^ ((br.word <<< (32 - n)) >>> (32 - n)) })) ∧
    (0 < br.bitsUsed → n = 32 - br.bitsUsed → br.next fetch n =
      .ok (br.remainder, { br with bitsUsed := 0 })) ∧
    (0 < br.bitsUsed → n < 32 - br.bitsUsed → br.next fetch n =
      .ok (br.remainder <<< (32 - n - br.bitsUsed),
        { br with
          bitsUsed := br.bitsUsed + n,
          remainder := br.remainder ^^^
            ((br.remainder <<< (32 - n - br.bitsUsed)) >>> (32 - n - br.bitsUsed)) })) ∧
    (0 < br.bitsUsed → 32 - br.bitsUsed < n → br.next fetch n =
      .ok ((br.remainder >>> (n - (32 - br.bitsUsed))) |||
          (br.word <<< (32 - (n - (32 - br.bitsUsed)))),
        { word := fetch br.fetchPtr, bitsUsed := n - (32 - br.bitsUsed), fetchPtr := br.fetchPtr + 4,
          remainder := br.word ^^^
            ((br.word <<< (32 - (n - (32 - br.bitsUsed)))) >>> (32 - (n - (32 - br.bitsUsed)))) }))

/-- 40_bit_reader.md R117: every result of NEXT(n) has its low `32 - n` bits zero. -/
def Obligations.NextResultLowBitsZero : Prop :=
  ∀ (fetch : Nat → Word) (n : Nat) (br br' : BitReader) (r : Word), br.Inv →
    br.next fetch n = .ok (r, br') → r.toNat % 2 ^ (32 - n) = 0

/-- 10_state.md R32: NEXT keeps the reader's invariant, and the value of `remainder` while `bitsUsed` is
0 is unobservable. -/
def Obligations.ReaderInvariantKeptByNext : Prop :=
  (∀ (fetch : Nat → Word) (n : Nat) (br br' : BitReader) (r : Word), br.Inv →
    br.next fetch n = .ok (r, br') → br'.Inv) ∧
  ∀ (fetch : Nat → Word) (n : Nat) (br : BitReader) (v : Word), br.bitsUsed = 0 →
    ∀ r br', br.next fetch n = .ok (r, br') →
      ∃ br'', { br with remainder := v }.next fetch n = .ok (r, br'') ∧
        br''.word = br'.word ∧ br''.bitsUsed = br'.bitsUsed ∧ br''.fetchPtr = br'.fetchPtr ∧
        (0 < br'.bitsUsed → br''.remainder = br'.remainder)

/-- 40_bit_reader.md R122: NEXT writes only the reader's registers and its answer depends only on them
and on IN. -/
def Obligations.NextTouchesOnlyTheReader : Prop :=
  ∀ (s u t : State) (n : Nat) (r : Word), s.nextBits n = .ok (r, t) →
    t = { s with engine := { s.engine with br := t.engine.br } } ∧
    (u.engine.br = s.engine.br → (∀ a, u.fetchWord a = s.fetchWord a) →
      u.nextBits n = .ok (r, { u with engine := { u.engine with br := t.engine.br } }))

/-- 40_bit_reader.md R118: requests with counts in 1 to 32 that follow START deliver, left-justified,
the block's stream bits in order, the earliest lowest. -/
def Obligations.RequestsDeliverTheStream : Prop :=
  ∀ (l : Launch) (s₀ s : State) (ns : List Nat), start l s₀ = .ok s →
    (∀ n ∈ ns, 1 ≤ n ∧ n ≤ 32) →
    ∃ rs t, s.requestAll ns = .ok (rs, t) ∧ rs.length = ns.length ∧
      ∀ i n r, ns[i]? = some n → rs[i]? = some r →
        ∀ j, j < n → r.getLsbD (32 - n + j) = s.streamBit ((ns.take i).sum + j)

/-- 40_bit_reader.md R119: after START and any requests that delivered `D` bits, `fetchPtr` and `word`
are one word ahead of the bits delivered. -/
def Obligations.ReaderStaysOneWordAhead : Prop :=
  ∀ (l : Launch) (s₀ s t : State) (ns : List Nat) (rs : List Word), start l s₀ = .ok s →
    (∀ n ∈ ns, 1 ≤ n ∧ n ≤ 32) → s.requestAll ns = .ok (rs, t) →
    t.engine.br.bitsUsed = ns.sum % 32 ∧
    t.engine.br.word = s.fetchWord (t.engine.br.fetchPtr - 4) ∧
    t.engine.br.fetchPtr =
      if t.engine.br.bitsUsed = 0 then 4 * (ns.sum / 32 + 1) else 4 * (ns.sum / 32 + 2)

/-- 30_encoding.md R81: stream bit `k` is bit `k mod 8` of byte `IN[k / 8]`, 0 beyond the block's end,
and it is bit `k` of the block's stream as one number. -/
def Obligations.StreamBitIsItsBytesBit : Prop :=
  ∀ (s : State) (k : Nat),
    s.streamBit k = (s.fetchByte (k / 8)).getLsbD (k % 8) ∧
    s.streamBit k = s.blockStream.testBit k

/-! ### Launch, header, termination test -/

/-- 70_reset_and_hazards.md R270: what START leaves, where no premise is broken; it is allowed in IDLE,
DONE and FAULT, and it reads and writes no byte of OUT. -/
def Obligations.StartLeavesTheStartState : Prop :=
  ∀ (l : Launch) (s : State),
    (s.engine.phase = .idle ∨ s.engine.phase = .done ∨ s.engine.phase = .fault) →
    l.windowCapacity ≤ 0x4000 → l.inBase + l.inLen ≤ s.file.len →
    l.windowBase + l.windowCapacity ≤ s.container.totalUncompressedSize →
    ∃ t, start l s = .ok t ∧
      t = { s with engine :=
        { br := { word := t.fetchWord 0, bitsUsed := 0, remainder := 0, fetchPtr := 4 }
          acc := 0, pendingBits := 0, tableSel := 0, offsetShift := 0
          unpackInfoByteLength := 0, logicalCapacity := 0, written := 0, inPtr := 0
          inBase := l.inBase, inLen := l.inLen
          windowBase := l.windowBase, windowCapacity := l.windowCapacity
          phase := .setup, status := { kind := .none, info := .none } } } ∧
      ∀ m, start l (s.withBuf m) = .ok (t.withBuf m)

/-- A START that breaks a premise is refused by the premise's name: the launch premises of
70_reset_and_hazards.md R273 and the phases of R270. That a window must also lie inside the output buffer
is the model's reading (log 19). -/
def Obligations.StartRefusesABrokenPremise : Prop :=
  ∀ (l : Launch) (s : State),
    (s.engine.phase.running → start l s = .error .enginePhase) ∧
    (¬s.engine.phase.running → 0x4000 < l.windowCapacity → start l s = .error .windowTooLarge) ∧
    (¬s.engine.phase.running → l.windowCapacity ≤ 0x4000 → s.file.len < l.inBase + l.inLen →
      start l s = .error .inputOutsideFile) ∧
    (¬s.engine.phase.running → l.windowCapacity ≤ 0x4000 → l.inBase + l.inLen ≤ s.file.len →
      s.container.totalUncompressedSize < l.windowBase + l.windowCapacity →
      start l s = .error .windowOutsideBuffer)

/-- 42_block_decoder.md R161 and R162, 20_memory.md R55: SETUP after START reads the two 16-bit fields
LE16(IN, 0) and LE16(IN, 2); a capacity field above 0x4000, or a capacity above the window's, raises
InvalidCapacity; else SETUP reads the selector field LE32(IN, 4), seeds the accumulator and goes to CHECK.
It changes nothing else but the bit reader. -/
def Obligations.SetupReadsTheBlockHeader : Prop :=
  ∀ (l : Launch) (s₀ s : State) (t : TableStore), start l s₀ = .ok s →
    let unpackInfo : Half := s.fetchByte 1 ++ s.fetchByte 0
    let capField : Half := s.fetchByte 3 ++ s.fetchByte 2
    let selector : Word := s.fetchByte 7 ++ s.fetchByte 6 ++ s.fetchByte 5 ++ s.fetchByte 4
    (0x4000 < capField.toNat ∨ l.windowCapacity < 0x4000 - capField.toNat →
      ∃ br, step s = .next { s with engine := { s.engine with
          br := br
          unpackInfoByteLength := unpackInfo
          status := { kind := .invalidCapacity
                      info := .capacity capField.toNat l.windowCapacity }
          phase := .fault } }) ∧
    (capField.toNat ≤ 0x4000 → 0x4000 - capField.toNat ≤ l.windowCapacity →
      selectedTable? s.store (selector.setWidth 2) = some t →
      ∃ br, step s = .next { s with engine := { s.engine with
          br := br
          unpackInfoByteLength := unpackInfo
          logicalCapacity := 0x4000 - capField.toNat
          tableSel := selector.setWidth 2
          acc := selector >>> 2
          pendingBits := 2
          offsetShift := t.offsetShift
          inPtr := literalOffset s.literalStart unpackInfo
          phase := .check } } ∧
        br.word = s.fetchWord 8 ∧ br.bitsUsed = 0 ∧ br.fetchPtr = 12)

/-- 42_block_decoder.md R163: CHECK ends the block exactly when `written = logicalCapacity`, changing
nothing else, and a step reaches CHECK only from SETUP, RAW and LIT, never from MATCH. -/
def Obligations.CheckTestsForTheEnd : Prop :=
  (∀ s : State, s.engine.phase = .check →
    step s = .next { s with engine := { s.engine with
      phase := if s.engine.written = s.engine.logicalCapacity then .done else .decode } }) ∧
  ∀ s t : State, step s = .next t → t.engine.phase = .check →
    s.engine.phase = .setup ∨
    s.engine.phase = .decode ∧
      ∃ i, fetch s = .ok i ∧ ((∃ e, i = .lit e) ∨ ∃ e x, i = .raw e x)

/-! ### Commands -/

/-- A DECODE step runs the command decoded at the engine's stream position, with nothing around it
(42_block_decoder.md R164). That command's entry is the one the selected table's index gives for the
accumulator's low bits, vacated zeros among them (30_encoding.md R87; 70_reset_and_hazards.md R277), the
command is of the entry's kind, and where its refill answers, its operands are what Extract gives of the
refilled accumulator (R167; that they are read before exec makes the refill is log 14). -/
def Obligations.StepRunsTheDecodedCommand : Prop :=
  ∀ (s : State) (i : Instr), s.engine.phase = .decode → fetch s = .ok i →
    step s = exec i s ∧
    (∃ t k, selectedTable? s.store s.engine.tableSel = some t ∧
      t.decodeIndex[s.engine.acc.toNat &&& (2 ^ t.maxLen - 1)]? = some (some k) ∧
      t.table.entries[k]? = some i.entry) ∧
    (match i with
      | .lit e => e.cmd = some .copyLiteralByte
      | .raw e _ => e.cmd = some .copyBytesFromInput
      | .matchCopy e _ _ => e.cmd = some .copyBytesFromOutput) ∧
    ∀ r br, s.engine.br.next s.fetchWord
        (s.engine.pendingBits + i.entry.codeLen.toNat) = .ok (r, br) →
      let refilled := (s.engine.acc >>> i.entry.codeLen.toNat) ||| r
      match i with
      | .lit _ => True
      | .raw e x => x = (extract e.lenExtraBits.toNat refilled).1
      | .matchCopy e x y =>
        x = (extract e.lenExtraBits.toNat refilled).1 ∧
          y = (extract e.offsetExtraBits.toNat (extract e.lenExtraBits.toNat refilled).2).1

/-- 42_block_decoder.md R172, LIT: CapacityOverrun when the block is full, else TruncatedBlock when the
literal cursor is at or past the block's end, else one byte copied; the code field is consumed in every
case, and nothing else changes. -/
def Obligations.LitFollowsItsRule : Prop :=
  ∀ (e : CodeTableEntry) (s : State),
    (s.engine.written = s.engine.logicalCapacity →
      exec (.lit e) s = .next { s with engine := { s.engine with
        acc := s.engine.acc >>> e.codeLen.toNat
        pendingBits := s.engine.pendingBits + e.codeLen.toNat
        status := { kind := .capacityOverrun
                    info := .overrun s.engine.written s.engine.logicalCapacity }
        phase := .fault } }) ∧
    (s.engine.written ≠ s.engine.logicalCapacity → s.engine.inLen ≤ s.engine.inPtr →
      exec (.lit e) s = .next { s with engine := { s.engine with
        acc := s.engine.acc >>> e.codeLen.toNat
        pendingBits := s.engine.pendingBits + e.codeLen.toNat
        status := { kind := .truncatedBlock
                    info := .truncated s.engine.inPtr 1 s.engine.inLen }
        phase := .fault } }) ∧
    (s.engine.written ≠ s.engine.logicalCapacity → s.engine.inPtr < s.engine.inLen →
      s.engine.written < s.engine.windowCapacity →
      exec (.lit e) s = .next { s with
        engine := { s.engine with
          acc := s.engine.acc >>> e.codeLen.toNat
          pendingBits := s.engine.pendingBits + e.codeLen.toNat
          written := s.engine.written + 1
          inPtr := s.engine.inPtr + 1
          phase := .check }
        buf := s.buf.write (s.engine.windowBase + s.engine.written)
          (s.file.bytes.read (s.engine.inBase + s.engine.inPtr)) })

/-- 42_block_decoder.md R171, RAW: with `pendingBits` counting the code, a refill outside NEXT's range
raises InvalidBitRequest; else, with the accumulator refilled and `extraLen` taken from it, a clamped run
of at least one byte past the block's end raises TruncatedBlock, and any other run is copied; nothing else
changes. That a run of no byte faults nowhere follows R171's corner cases against its pseudocode: the
model's reading (log 10). -/
def Obligations.RawFollowsItsRule : Prop :=
  ∀ (e : CodeTableEntry) (x : Nat) (s : State),
    let pending := s.engine.pendingBits + e.codeLen.toNat
    let amount := min (e.lenBase.toNat + x) (s.engine.logicalCapacity - s.engine.written)
    (pending < 1 ∨ 32 < pending →
      exec (.raw e x) s = .next { s with engine := { s.engine with
        acc := s.engine.acc >>> e.codeLen.toNat
        pendingBits := pending
        status := { kind := .invalidBitRequest
                    info := .bitRequest pending s.engine.br.fetchPtr }
        phase := .fault } }) ∧
    (1 ≤ pending → pending ≤ 32 →
      ∃ r br, s.engine.br.next s.fetchWord pending = .ok (r, br) ∧
        (0 < amount → s.engine.inLen < s.engine.inPtr + amount →
          exec (.raw e x) s = .next { s with engine := { s.engine with
            br := br
            acc := ((s.engine.acc >>> e.codeLen.toNat) ||| r) >>> e.lenExtraBits.toNat
            pendingBits := e.lenExtraBits.toNat
            status := { kind := .truncatedBlock
                        info := .truncated s.engine.inPtr amount s.engine.inLen }
            phase := .fault } }) ∧
        (amount = 0 ∨ s.engine.inPtr + amount ≤ s.engine.inLen ∧
            s.engine.written + amount ≤ s.engine.windowCapacity →
          exec (.raw e x) s = .next { s with
            engine := { s.engine with
              br := br
              acc := ((s.engine.acc >>> e.codeLen.toNat) ||| r) >>> e.lenExtraBits.toNat
              pendingBits := e.lenExtraBits.toNat
              written := s.engine.written + amount
              inPtr := s.engine.inPtr + amount
              phase := .check }
            buf := copyInput s.file.bytes amount (s.engine.inBase + s.engine.inPtr)
              (s.engine.windowBase + s.engine.written) s.buf }))

/-- 42_block_decoder.md R168 and R170, MATCH: a refill outside NEXT's range raises InvalidBitRequest;
else, with the accumulator refilled and both extra fields taken from it, a copy of at least one byte whose
offset is 0 or reaches before the window raises InvalidBackReference, and any other copy is made, a copy
of no byte whatever its offset; nothing else changes. -/
def Obligations.MatchFollowsItsRule : Prop :=
  ∀ (e : CodeTableEntry) (x y : Nat) (s : State),
    let pending := s.engine.pendingBits + e.codeLen.toNat
    let amount := min (e.lenBase.toNat + x) (s.engine.logicalCapacity - s.engine.written)
    let backOffset := e.offsetBase.toNat + y * 2 ^ s.engine.offsetShift
    (pending < 1 ∨ 32 < pending →
      exec (.matchCopy e x y) s = .next { s with engine := { s.engine with
        acc := s.engine.acc >>> e.codeLen.toNat
        pendingBits := pending
        status := { kind := .invalidBitRequest
                    info := .bitRequest pending s.engine.br.fetchPtr }
        phase := .fault } }) ∧
    (1 ≤ pending → pending ≤ 32 →
      ∃ r br, s.engine.br.next s.fetchWord pending = .ok (r, br) ∧
        (0 < amount → backOffset = 0 ∨ s.engine.written < backOffset →
          exec (.matchCopy e x y) s = .next { s with engine := { s.engine with
            br := br
            acc := (((s.engine.acc >>> e.codeLen.toNat) ||| r) >>> e.lenExtraBits.toNat)
              >>> e.offsetExtraBits.toNat
            pendingBits := pending
            status := { kind := .invalidBackReference
                        info := .backReference s.engine.written backOffset }
            phase := .fault } }) ∧
        (amount = 0 ∨ 0 < backOffset ∧ backOffset ≤ s.engine.written ∧
            s.engine.written + amount ≤ s.engine.windowCapacity →
          exec (.matchCopy e x y) s = .next { s with
            engine := { s.engine with
              br := br
              acc := (((s.engine.acc >>> e.codeLen.toNat) ||| r) >>> e.lenExtraBits.toNat)
                >>> e.offsetExtraBits.toNat
              pendingBits := e.lenExtraBits.toNat + e.offsetExtraBits.toNat
              written := s.engine.written + amount
              phase := .decode }
            buf := copyOutput amount (s.engine.windowBase + (s.engine.written - backOffset))
              (s.engine.windowBase + s.engine.written) s.buf }))

/-- What LIT and RAW store and what every command leaves alone, read byte by byte: LIT stores IN's byte at
`written`, RAW stores a run of IN's bytes from `written` on, and outside the bytes stored, which lie from
`windowBase + written` on, every address reads as before (20_memory.md R57). -/
def Obligations.LiteralBytesLandAtWritten : Prop :=
  ∀ (e : CodeTableEntry) (x : Nat) (s t : State), s.buf.wf = true →
    (exec (.lit e) s = .next t → t.engine.phase = .check →
      t.buf.read (s.engine.windowBase + s.engine.written) =
        s.file.bytes.read (s.engine.inBase + s.engine.inPtr) ∧
      ∀ a, a ≠ s.engine.windowBase + s.engine.written → t.buf.read a = s.buf.read a) ∧
    (exec (.raw e x) s = .next t → t.engine.phase = .check →
      (∀ j, j < s.engine.clamp (copyLength e x) →
        t.buf.read (s.engine.windowBase + s.engine.written + j) =
          s.file.bytes.read (s.engine.inBase + s.engine.inPtr + j)) ∧
      ∀ a, a < s.engine.windowBase + s.engine.written ∨
          s.engine.windowBase + s.engine.written + s.engine.clamp (copyLength e x) ≤ a →
        t.buf.read a = s.buf.read a)

/-- 42_block_decoder.md R169: MATCH repeats the last `backOffset` bytes, whether or not the copy overlaps
itself, and leaves every other byte alone. -/
def Obligations.MatchRepeatsItsSource : Prop :=
  ∀ (e : CodeTableEntry) (x y : Nat) (s t : State), s.buf.wf = true →
    exec (.matchCopy e x y) s = .next t → t.engine.phase = .decode →
    (∀ j, j < s.engine.clamp (copyLength e x) →
      t.buf.read (s.engine.windowBase + s.engine.written + j) =
        s.buf.read (s.engine.windowBase +
          (s.engine.written - backOffsetOf e s.engine.offsetShift y) +
            j % backOffsetOf e s.engine.offsetShift y)) ∧
    ∀ a, a < s.engine.windowBase + s.engine.written ∨
        s.engine.windowBase + s.engine.written + s.engine.clamp (copyLength e x) ≤ a →
      t.buf.read a = s.buf.read a

/-- The frame of all three commands, faulting or not: the store, the parameters, the file, the container
decoder, the block header's registers and the launch values keep their values, the status changes only
with a fault, `written` and `inPtr` never fall, and every byte outside `OUT[written ..)` up to the new
`written` reads as before. -/
def Obligations.CommandsLeaveTheRestAlone : Prop :=
  ∀ (i : Instr) (s t : State), exec i s = .next t →
    t.store = s.store ∧ t.literalStart = s.literalStart ∧ t.file = s.file ∧
    t.container = s.container ∧
    t.engine.tableSel = s.engine.tableSel ∧ t.engine.offsetShift = s.engine.offsetShift ∧
    t.engine.unpackInfoByteLength = s.engine.unpackInfoByteLength ∧
    t.engine.logicalCapacity = s.engine.logicalCapacity ∧
    t.engine.inBase = s.engine.inBase ∧ t.engine.inLen = s.engine.inLen ∧
    t.engine.windowBase = s.engine.windowBase ∧
    t.engine.windowCapacity = s.engine.windowCapacity ∧
    (t.engine.phase ≠ .fault → t.engine.status = s.engine.status) ∧
    s.engine.written ≤ t.engine.written ∧ s.engine.inPtr ≤ t.engine.inPtr ∧
    ∀ a, a < s.engine.windowBase + s.engine.written ∨
        s.engine.windowBase + t.engine.written ≤ a → t.buf.read a = s.buf.read a

/-- Where a copy would reach an offset of OUT at or above `windowCapacity`, the machine stops: the
model's choice for an access the spec says no run makes (log 9). Every command's checks come first. -/
def Obligations.CopiesOutsideTheWindowStop : Prop :=
  ∀ (e : CodeTableEntry) (x y : Nat) (s : State),
    let pending := s.engine.pendingBits + e.codeLen.toNat
    (s.engine.written ≠ s.engine.logicalCapacity → s.engine.inPtr < s.engine.inLen →
      s.engine.windowCapacity ≤ s.engine.written →
      exec (.lit e) s = .fault (.outsideWindow s.engine.written)) ∧
    (1 ≤ pending → pending ≤ 32 →
      s.engine.inPtr + s.engine.clamp (copyLength e x) ≤ s.engine.inLen →
      s.engine.leavesWindow (s.engine.clamp (copyLength e x)) →
      exec (.raw e x) s = .fault (.outsideWindow (max s.engine.written s.engine.windowCapacity))) ∧
    (1 ≤ pending → pending ≤ 32 → 0 < backOffsetOf e s.engine.offsetShift y →
      backOffsetOf e s.engine.offsetShift y ≤ s.engine.written →
      s.engine.leavesWindow (s.engine.clamp (copyLength e x)) →
      exec (.matchCopy e x y) s =
        .fault (.outsideWindow (max s.engine.written s.engine.windowCapacity)))

/-- After a MATCH has filled the block a RAW ends it: it copies nothing, raises nothing, and the CHECK
that follows goes to DONE (70_reset_and_hazards.md R276, its RAW case). -/
def Obligations.RawEndsAFilledBlock : Prop :=
  ∀ (s : State) (e : CodeTableEntry) (x : Nat), s.Inv → s.engine.phase = .decode →
    s.engine.written = s.engine.logicalCapacity → fetch s = .ok (.raw e x) →
    s.engine.pendingBits + e.codeLen.toNat ≤ 32 →
    ∃ t u, step s = .next t ∧ step t = .next u ∧ u.engine.phase = .done ∧
      u.engine.written = s.engine.written ∧ u.engine.inPtr = s.engine.inPtr ∧ u.buf = s.buf

/-! ### Faults and phases -/

/-- 60_exceptions.md R246: taking a fault writes `status` and goes to FAULT, and leaves every other part
of the state as the step's earlier writes left it. -/
def Obligations.FaultEntryWritesStatusAndPhase : Prop :=
  ∀ (s : State) (kind : FaultKind) (info : FaultInfo),
    s.raise { kind := kind, info := info } =
      { s with engine := { s.engine with status := { kind := kind, info := info }, phase := .fault } }

/-- 60_exceptions.md R247: the faulting command writes no byte of OUT, and moves neither cursor. -/
def Obligations.FaultingCommandWritesNoByte : Prop :=
  ∀ (i : Instr) (s t : State), exec i s = .next t → t.engine.phase = .fault →
    t.buf = s.buf ∧ t.engine.written = s.engine.written ∧ t.engine.inPtr = s.engine.inPtr

/-- Which faults a step can raise, and the first of them where several apply (60_exceptions.md R248, its
engine part): LIT CapacityOverrun before TruncatedBlock, RAW InvalidBitRequest before TruncatedBlock,
MATCH InvalidBitRequest before InvalidBackReference. -/
def Obligations.FaultsComeInOrder : Prop :=
  ∀ (i : Instr) (s t : State), exec i s = .next t → t.engine.phase = .fault →
    match i with
    | .lit _ =>
      t.engine.status.kind =
        if s.engine.written = s.engine.logicalCapacity then .capacityOverrun else .truncatedBlock
    | .raw e _ =>
      t.engine.status.kind =
        if s.engine.pendingBits + e.codeLen.toNat < 1 ∨ 32 < s.engine.pendingBits + e.codeLen.toNat
        then .invalidBitRequest else .truncatedBlock
    | .matchCopy e _ _ =>
      t.engine.status.kind =
        if s.engine.pendingBits + e.codeLen.toNat < 1 ∨ 32 < s.engine.pendingBits + e.codeLen.toNat
        then .invalidBitRequest else .invalidBackReference

/-- 42_block_decoder.md R174: the complete list of phase transitions. -/
def Obligations.PhaseTransitionsAreListed : Prop :=
  ∀ s t : State, step s = .next t →
    match s.engine.phase with
    | .setup =>
      t.engine.phase = .check ∨
      t.engine.phase = .fault ∧ t.engine.status.kind = .invalidCapacity
    | .check =>
      t.engine.phase = if s.engine.written = s.engine.logicalCapacity then .done else .decode
    | .decode => ∃ i, fetch s = .ok i ∧
      match i with
      | .lit _ => t.engine.phase = .check ∨ t.engine.phase = .fault ∧
          (t.engine.status.kind = .capacityOverrun ∨ t.engine.status.kind = .truncatedBlock)
      | .raw _ _ => t.engine.phase = .check ∨ t.engine.phase = .fault ∧
          (t.engine.status.kind = .invalidBitRequest ∨ t.engine.status.kind = .truncatedBlock)
      | .matchCopy _ _ _ => t.engine.phase = .decode ∨ t.engine.phase = .fault ∧
          (t.engine.status.kind = .invalidBitRequest ∨
            t.engine.status.kind = .invalidBackReference)
    | .idle => t.engine = s.engine ∨ t.engine.phase = .setup
    | .done => t.engine = s.engine ∨ t.engine.phase = .setup
    | .fault => t.engine = s.engine ∨ t.engine.phase = .setup

/-- 60_exceptions.md R250: no step but START clears `status`, and no step but START leaves FAULT. -/
def Obligations.StatusIsSticky : Prop :=
  ∀ s t : State, step s = .next t →
    (t.engine.status = s.engine.status ∨
      t.engine.phase = .fault ∧ t.engine.status.kind ≠ .none ∨
      ¬s.engine.phase.running ∧ t.engine.phase = .setup ∧ t.engine.status = Status.clear) ∧
    (s.engine.phase = .fault → t.engine = s.engine ∨
      t.engine.phase = .setup ∧ t.engine.status = Status.clear)

/-- A fault ends the file: the container decoder returns the engine's status with the block's index, the
engine keeps its registers, and no step follows (45_host_container.md R221; 60_exceptions.md R249). The
stop that says so is the model's choice (log 8). -/
def Obligations.FaultEndsTheFile : Prop :=
  ∀ s : State, s.container.phase = .decoding → s.engine.phase = .fault →
    ∃ t, step s = .next t ∧ t.engine = s.engine ∧
      t.output = some (.error (s.engine.status, some s.container.blockIndex)) ∧
      step t = .fault .noStepEnabled

/-! ### Invariants and isolation -/

/-- Reset meets the machine's invariants, in IDLE with the catalog's store (70_reset_and_hazards.md R271).
That its other registers meet them rests on the model's choice of their values (log 4). -/
def Obligations.ResetMeetsTheInvariant : Prop :=
  State.reset.Inv ∧ State.reset.StreamInv ∧ State.reset.CursorInv ∧
    State.reset.engine.phase = .idle ∧ State.reset.store = buildStore Config.catalog

/-- Every step keeps the machine's invariant: memories canonical, reader and accumulator invariants
(10_state.md R32, R33), bounds (42_block_decoder.md R175), and the launch's agreement with the host. -/
def Obligations.StepKeepsTheInvariant : Prop :=
  ∀ s t : State, s.Inv → step s = .next t → t.Inv

/-- A file handed over keeps the machine's invariant and, with it, those of the stream, the cursor and the
padding; how it is handed over is the model's choice (log 12). -/
def Obligations.SubmitKeepsTheInvariant : Prop :=
  ∀ (s : State) (bytes : List Byte), s.Inv →
    (s.submit bytes).Inv ∧
    (s.StreamInv → (s.submit bytes).StreamInv) ∧
    (s.CursorInv → (s.submit bytes).CursorInv) ∧
    (s.PaddingInv → (s.submit bytes).PaddingInv)

/-- 42_block_decoder.md R175: the bounds from the end of SETUP on, OUT written only below
`logicalCapacity`, and MATCH reading only below the current `written`. -/
def Obligations.OutputStaysInBounds : Prop :=
  ∀ s t : State, s.Inv → step s = .next t →
    (t.engine.phase.pastSetup →
      t.engine.written ≤ t.engine.logicalCapacity ∧
      t.engine.logicalCapacity ≤ t.engine.windowCapacity ∧ t.engine.windowCapacity ≤ 0x4000) ∧
    (s.engine.phase.running → ∀ a,
      a < s.engine.windowBase ∨ s.engine.windowBase + t.engine.logicalCapacity ≤ a →
        t.buf.read a = s.buf.read a) ∧
    (∀ e x y, s.engine.phase = .decode → fetch s = .ok (.matchCopy e x y) →
      s.engine.written < t.engine.written →
      0 < backOffsetOf e s.engine.offsetShift y ∧
        backOffsetOf e s.engine.offsetShift y ≤ s.engine.written)

/-- A running engine never stops: from every state of the invariant, SETUP, CHECK and DECODE answer a
next state (30_encoding.md R89; 60_exceptions.md R246). -/
def Obligations.RunningEngineNeverStops : Prop :=
  ∀ s : State, s.Inv → s.engine.phase.running → s.noStop

/-- 20_memory.md R51, R65: no step writes the file or the code table store. -/
def Obligations.InputAndStoreAreReadOnly : Prop :=
  ∀ s t : State, step s = .next t →
    t.file = s.file ∧ t.store = s.store ∧ t.literalStart = s.literalStart

/-- 42_block_decoder.md R176, step by step: a machine with the same engine and the same parameters, whose
file may differ outside the block, whose buffer may differ outside the bytes this block has written, and
whose container decoder may differ at will, takes the same step: the engine ends the same, the bytes the
block has written are the same, and file and container decoder are left as they were. -/
def Obligations.BlocksAreIndependent : Prop :=
  ∀ s t u : State, s.Inv → s.engine.phase.running → step s = .next t →
    u.engine = s.engine → u.store = s.store → u.literalStart = s.literalStart →
    u.buf.wf = true →
    (∀ a, s.engine.inBase ≤ a → a < s.engine.inBase + s.engine.inLen →
      u.file.bytes.read a = s.file.bytes.read a) →
    (∀ j, j < s.engine.written →
      u.buf.read (s.engine.windowBase + j) = s.buf.read (s.engine.windowBase + j)) →
    ∃ v, step u = .next v ∧ v.engine = t.engine ∧ v.file = u.file ∧ v.container = u.container ∧
      t.file = s.file ∧ t.container = s.container ∧
      ∀ j, j < t.engine.written →
        v.buf.read (t.engine.windowBase + j) = t.buf.read (t.engine.windowBase + j)

/-- Reader and accumulator follow the block's stream at every step (10_state.md R20 to R24, R36). -/
def Obligations.StepKeepsTheStreamPosition : Prop :=
  ∀ s t : State, s.Inv → s.StreamInv → step s = .next t → t.StreamInv

/-- The command the engine executes is the one the decoder reads from the block's own bits at
`streamPos`, while the code and the extra fields fit what a refill gives (30_encoding.md R82, R87). -/
def Obligations.EngineDecodesTheBlockStream : Prop :=
  ∀ (s : State) (t : TableStore) (i : Instr) (rest : Nat), s.Inv → s.StreamInv →
    s.engine.phase = .decode → selectedTable? s.store s.engine.tableSel = some t →
    decodeStream t (s.blockStream >>> s.engine.streamPos) = .ok (i, rest) →
    s.engine.pendingBits + i.entry.codeLen.toNat ≤ 32 →
    i.bitLength ≤ i.entry.codeLen.toNat + 32 →
    fetch s = .ok i

/-- The stream position: 34 after SETUP, and each command moves it by exactly its own length, while
`pendingBits` stays within 32 (10_state.md R36). -/
def Obligations.StreamPositionAdvances : Prop :=
  (∀ s t : State, s.Inv → s.StreamInv → s.engine.phase = .setup → step s = .next t →
    t.engine.phase = .check → t.engine.streamPos = 34) ∧
  ∀ (s t : State) (i : Instr), s.Inv → s.StreamInv → s.engine.phase = .decode → fetch s = .ok i →
    s.engine.pendingBits + i.entry.codeLen.toNat ≤ 32 →
    i.bitLength ≤ i.entry.codeLen.toNat + 32 →
    step s = .next t → t.engine.phase ≠ .fault →
    t.engine.streamPos = s.engine.streamPos + i.bitLength

/-- 42_block_decoder.md R166: a refill of `pendingBits` bits leaves the live bits in place and puts the
next stream bits above them, so that all 32 bits are live. -/
def Obligations.RefillPutsStreamBitsAbove : Prop :=
  ∀ s t : State, s.engine.br.Inv → s.ReaderTracks → s.engine.AccInv → s.refill = .ok t →
    ∀ j, j < 32 → t.engine.acc.getLsbD j =
      if j < 32 - s.engine.pendingBits then s.engine.acc.getLsbD j
      else s.streamBit (s.engine.br.delivered + (j - (32 - s.engine.pendingBits)))

/-! ### The host -/

/-- The header check accepts exactly the headers of 45_host_container.md R212, of files of at least 0x14
bytes (R214). -/
def Obligations.HeaderIsAcceptedExactly : Prop :=
  ∀ f : FileImage, f.headerFault? = none ↔
    0x14 ≤ f.len ∧ (f.le16 0x00).toNat = 5 ∧ (f.le16 0x02).toNat ≤ 64 ∧
    (∀ k b, signatureBytes[k]? = some b → f.bytes.read (0x04 + k) = b) ∧
    (f.le16 0x10).toNat = 3

/-- The field a header error reports is the first, in offset order, that the file does not hold or that
is wrong; a field the file does not hold has no actual value (45_host_container.md R214). For a file shorter
than 0x14 bytes with a wrong field before the first it does not hold, R214 names both: that the checks of
presence and of value are made field by field, so that the wrong one is reported, is the model's choice
(log 18). That error is the file's, before any other check's (60_exceptions.md R248). -/
def Obligations.FirstWrongHeaderFieldIsReported : Prop :=
  ∀ (f : FileImage) (st : Status), f.headerFault? = some st →
    f.parse = .error st ∧ ∃ (n : Nat) (h : HeaderField), headerFields[n]? = some h ∧
      (∀ (m : Nat) (g : HeaderField), m < n → headerFields[m]? = some g →
        g.offset + g.size ≤ f.len ∧ g.expected.accepts (f.headerValue g) = true) ∧
      (f.len < h.offset + h.size ∧
          st = { kind := .invalidHeader, info := .header h h.expected none } ∨
        h.offset + h.size ≤ f.len ∧ h.expected.accepts (f.headerValue h) = false ∧
          st = { kind := .invalidHeader, info := .header h h.expected (some (f.headerValue h)) })

/-- A file is accepted, with the blocks of 45_host_container.md R216, exactly when its header passes, V0 is
0x18 and a multiple of 4 above it, not past the file's end, and the `(V0 - 0x18) / 4` blocks, block 0 from
V0 on and every other from the end of the one before it, block `i` up to the table's entry `i`, pass R217's
checks. -/
def Obligations.BlockRangesComeFromTheTable : Prop :=
  ∀ (f : FileImage) (blocks : List BlockRange), f.parse = .ok blocks ↔
    f.headerFault? = none ∧
    (f.le32 0x14).toNat = 0x18 + 4 * blocks.length ∧ (f.le32 0x14).toNat ≤ f.len ∧
    ∀ i b, blocks[i]? = some b →
      b.stop = (f.le32 (0x18 + 4 * i)).toNat ∧ b.start ≤ b.stop ∧ b.stop ≤ f.len ∧
      (i = 0 → b.start = (f.le32 0x14).toNat) ∧
      ∀ j a, i = j + 1 → blocks[j]? = some a → b.start = a.stop

/-- An offset table that does not reach V0 is UnsupportedOffsetTable, with the record of each case: a file
with no room for V0, `{cursor: 0x14}`; V0 below 0x18, `{cursor: 0x18, V0}`; an entry below V0 past the
file's end, the cursor of the first such entry; else V0 on no entry boundary, the first cursor past it and
V0 (45_host_container.md R215). -/
def Obligations.UnreachableTableEndIsUnsupported : Prop :=
  ∀ f : FileImage, f.headerFault? = none →
    let v0 := (f.le32 0x14).toNat
    let entries := (f.len - 0x18) / 4
    let fails := fun (cursor : Nat) (v : Option Nat) =>
      f.parse = .error { kind := .unsupportedOffsetTable, info := .offsetTable cursor v }
    (f.len < 0x18 → fails 0x14 none) ∧
    (0x18 ≤ f.len → v0 < 0x18 → fails 0x18 (some v0)) ∧
    (0x18 ≤ f.len → 0x18 + 4 * entries < v0 → fails (0x18 + 4 * entries) none) ∧
    (0x18 ≤ f.len → 0x18 ≤ v0 → v0 ≤ 0x18 + 4 * entries → (v0 - 0x18) % 4 ≠ 0 →
      fails (0x18 + 4 * ((v0 - 0x18) / 4 + 1)) (some v0))

/-- The first bad range is the one reported: a range that decreases as UnsupportedOffsetTable, one past
the file's end as TruncatedBlock (45_host_container.md R217). Of a file whose header and offset table are
good, that is the error (60_exceptions.md R248). -/
def Obligations.FirstBadRangeIsReported : Prop :=
  (∀ (fileLength i : Nat) (bs : List BlockRange) (b : BlockRange), bs[i]? = some b →
    (∀ j a, j < i → bs[j]? = some a → a.start ≤ a.stop ∧ a.stop ≤ fileLength) →
    (b.stop < b.start → rangeFault? fileLength 0 bs =
      some { kind := .unsupportedOffsetTable, info := .offsetTableBlock i }) ∧
    (b.start ≤ b.stop → fileLength < b.stop → rangeFault? fileLength 0 bs =
      some { kind := .truncatedBlock, info := .truncatedRange i b.stop fileLength })) ∧
  ∀ (f : FileImage) (n i : Nat), f.headerFault? = none →
    (f.le32 0x14).toNat = 0x18 + 4 * n → (f.le32 0x14).toNat ≤ f.len → i < n →
    let stop := fun k => (f.le32 (0x18 + 4 * k)).toNat
    let start := fun k => if k = 0 then (f.le32 0x14).toNat else stop (k - 1)
    (∀ j, j < i → start j ≤ stop j ∧ stop j ≤ f.len) →
    (stop i < start i →
      f.parse = .error { kind := .unsupportedOffsetTable, info := .offsetTableBlock i }) ∧
    (start i ≤ stop i → f.len < stop i →
      f.parse = .error { kind := .truncatedBlock, info := .truncatedRange i (stop i) f.len })

/-- What a file's check leaves, in one step, as the model cuts the host's work (log 11): a file that fails
ends with its error, which names no block, before any START (R272); that the engine, its status among it, is
left alone then is the model's inference (log 17). An accepted file leaves an allocated buffer that reads 0 everywhere, its blocks, block 0 in turn and the cursor at 0
(45_host_container.md R219; 70_reset_and_hazards.md R272). A file whose offset table is empty then yields
`totalUncompressedSize` zero bytes (45_host_container.md R218). -/
def Obligations.ZeroBlocksGiveZeroBytes : Prop :=
  ∀ s : State, s.container.phase = .checkFile → ¬s.engine.phase.running →
    (∀ st, s.file.parse = .error st →
      ∃ t, step s = .next t ∧ t = { s with container := t.container } ∧
        t.output = some (.error (st, none))) ∧
    (∀ blocks, s.file.parse = .ok blocks →
      ∃ t, step s = .next t ∧ t = { s with
          buf := t.buf
          container :=
            { phase := .nextBlock, totalUncompressedSize := (s.file.le32 0x0C).toNat
              blocks := blocks, blockIndex := 0, writeCursor := 0 } } ∧
        t.buf.wf = true ∧ ∀ a, t.buf.read a = 0) ∧
    (s.file.headerFault? = none → 0x18 ≤ s.file.len → (s.file.le32 0x14).toNat = 0x18 →
      ∃ t u, step s = .next t ∧ step t = .next u ∧
        u.output = some (.ok (List.replicate (s.file.le32 0x0C).toNat 0)))

/-- 45_host_container.md R219: the next block is started on its own bytes, with a window at the cursor of
capacity `min(0x4000, totalUncompressedSize - writeCursor)`; no premise of START is ever broken. -/
def Obligations.NextBlockIsLaunchedAtTheCursor : Prop :=
  ∀ (s : State) (b : BlockRange), s.Inv → s.container.phase = .nextBlock →
    s.container.blocks[s.container.blockIndex]? = some b →
    ∃ t, step s = .next t ∧ t.container = { s.container with phase := .decoding } ∧
      t.buf = s.buf ∧ t.engine.phase = .setup ∧
      t.engine.inBase = b.start ∧ t.engine.inLen = b.stop - b.start ∧
      t.engine.windowBase = s.container.writeCursor ∧
      t.engine.windowCapacity =
        min 0x4000 (s.container.totalUncompressedSize - s.container.writeCursor)

/-- 45_host_container.md R220, in one step of the model's (log 11): after DONE the cursor moves by `written` and then up to the least multiple
of 0x4000 that is not below it, or to the total if that is smaller, without a write. -/
def Obligations.CursorIsRoundedUp : Prop :=
  ∀ s : State, s.Inv → s.container.phase = .decoding → s.engine.phase = .done →
    ∃ t k, step s = .next t ∧ t.engine = s.engine ∧ t.buf = s.buf ∧
      s.container.writeCursor + s.engine.written ≤ 0x4000 * k ∧
      0x4000 * k < s.container.writeCursor + s.engine.written + 0x4000 ∧
      t.container = { s.container with
        phase := .nextBlock
        blockIndex := s.container.blockIndex + 1
        writeCursor := min (0x4000 * k) s.container.totalUncompressedSize } ∧
      s.container.writeCursor + s.engine.written ≤ t.container.writeCursor

/-- 45_host_container.md R224: a block whose capacity exceeds the room left, a block of any capacity
above 0 once the cursor has reached the total among them, faults InvalidCapacity at its SETUP, and the
container decoder returns that fault with the block's index; how many steps that is, is the model's choice
(log 11). -/
def Obligations.BlockLargerThanTheRoomFaults : Prop :=
  ∀ (s : State) (b : BlockRange), s.Inv → s.container.phase = .nextBlock →
    s.container.blocks[s.container.blockIndex]? = some b → s.file.capField b ≤ 0x4000 →
    s.container.totalUncompressedSize - s.container.writeCursor < 0x4000 - s.file.capField b →
    ∃ t u v, step s = .next t ∧ step t = .next u ∧ u.engine.phase = .fault ∧
      u.engine.status = { kind := .invalidCapacity
                          info := .capacity (s.file.capField b)
                            (min 0x4000
                              (s.container.totalUncompressedSize - s.container.writeCursor)) } ∧
      step u = .next v ∧ v.output = some (.error (u.engine.status, some s.container.blockIndex))

/-- 45_host_container.md R223: every block's window base is `min(0x4000 * m, totalUncompressedSize)`, `m`
the number of earlier blocks of capacity above 0, computed from their capacity fields alone. -/
def Obligations.WindowBasesComeFromCapacityFields : Prop :=
  ∀ s t : State, s.Inv → s.CursorInv → step s = .next t → t.CursorInv

/-- Once every block has reached DONE, that is when no block is left in turn, the step returns the buffer
and changes nothing else; a returned buffer has exactly `totalUncompressedSize` bytes, those of the output
buffer (45_host_container.md R222). That returning is a step of its own is the model's choice (log 11). -/
def Obligations.OutputHasTheTotalLength : Prop :=
  ∀ s : State,
    (s.container.phase = .nextBlock → ¬s.engine.phase.running →
      s.container.blocks.length ≤ s.container.blockIndex →
      ∃ t bytes, step s = .next t ∧ t = { s with container := t.container } ∧
        t.output = some (.ok bytes) ∧ bytes.length = s.container.totalUncompressedSize ∧
        ∀ k, k < bytes.length → bytes[k]? = some (s.buf.read k)) ∧
    ∀ bytes, s.output = some (.ok bytes) →
      bytes.length = s.container.totalUncompressedSize ∧
      ∀ k, k < bytes.length → bytes[k]? = some (s.buf.read k)

/-- Every step keeps: a byte that no block has written reads 0, padding among them (45_host_container.md
R220, R222); so such a byte of a returned buffer is 0. -/
def Obligations.UnwrittenBytesStayZero : Prop :=
  (∀ s t : State, s.Inv → s.CursorInv → s.PaddingInv → step s = .next t → t.PaddingInv) ∧
  ∀ (s : State) (bytes : List Byte), s.PaddingInv → s.output = some (.ok bytes) →
    ∀ k, k < bytes.length → ¬s.WrittenByABlock k → bytes[k]? = some 0

/-- The host reads a block's result only after DONE or FAULT (60_exceptions.md R258; 20_memory.md R62). -/
def Obligations.ResultsAreReadOnlyAtTheEnd : Prop :=
  ∀ e : Engine,
    (e.report.isSome = true ↔ e.phase = .done ∨ e.phase = .fault) ∧
    ∀ r, e.report = some r → r.phase = e.phase ∧ r.written = e.written ∧ r.status = e.status

/-! ### Several instances -/

/-- 60_exceptions.md R257: instances with disjoint windows may take their steps in either order. -/
def Obligations.InstancesDoNotInterfere : Prop :=
  ∀ (c c₁ c₂ : Cluster) (j k : Nat) (a b : Slot), c.buf.wf = true → j ≠ k →
    c.slots[j]? = some a → c.slots[k]? = some b → a.engine.windowsDisjoint b.engine →
    c.stepAt j = .next c₁ → c.stepAt k = .next c₂ →
    ∃ d, c₁.stepAt k = .next d ∧ c₂.stepAt j = .next d

/-- One instance's step keeps the shared buffer canonical, writes no byte outside its own window and
leaves every other instance and all that the instances share alone. A START adds one instance, on the next
block in order, while fewer than INSTANCES run and none has faulted (60_exceptions.md R248, R249, R256): it
stands as START leaves it on that block's bytes (70_reset_and_hazards.md R270), in the window of
45_host_container.md R223, which no running instance shares (20_memory.md R64). -/
def Obligations.InstanceStaysInItsWindow : Prop :=
  (∀ (c d : Cluster) (j : Nat) (a : Slot), c.buf.wf = true → c.slots[j]? = some a →
    c.stepAt j = .next d →
    d.buf.wf = true ∧ d = { c with buf := d.buf, slots := d.slots } ∧
    (∀ k, k ≠ j → d.slots[k]? = c.slots[k]?) ∧
    (∃ b, d.slots[j]? = some b ∧ b.block = a.block ∧
      b.engine.windowBase = a.engine.windowBase ∧
      b.engine.windowCapacity = a.engine.windowCapacity) ∧
    ∀ n, n < a.engine.windowBase ∨ a.engine.windowBase + a.engine.windowCapacity ≤ n →
      d.buf.read n = c.buf.read n) ∧
  ∀ (c d : Cluster) (i : Nat), c.startBlock i = .next d →
    c.slots.length = i ∧
    c.slots.countP (fun slot => slot.engine.report.isNone) < c.limit.val ∧
    (∀ slot ∈ c.slots, slot.engine.phase ≠ .fault) ∧
    ∃ b e, c.container.blocks[i]? = some b ∧
      d = { c with slots := c.slots ++ [{ block := i, engine := e }] } ∧
      e.phase = .setup ∧ e.status = Status.clear ∧ e.written = 0 ∧
      e.br = { word := (c.view e).fetchWord 0, bitsUsed := 0, remainder := 0, fetchPtr := 4 } ∧
      e.inBase = b.start ∧ e.inLen = b.stop - b.start ∧
      e.windowBase =
        windowBaseOf c.file c.container.totalUncompressedSize c.container.blocks i ∧
      e.windowCapacity = min 0x4000 (c.container.totalUncompressedSize - e.windowBase) ∧
      ∀ slot ∈ c.slots, slot.engine.report = none → slot.engine.windowsDisjoint e

/-- Among the instances that faulted the host reports the lowest block's fault, and it reports one exactly
where one has faulted (60_exceptions.md R257; 92_eei_decisions.md D23). A file's error is that fault, and it
stands exactly once every block below it is DONE: this condition is the model's choice (log 3). A file's
buffer is returned where no instance has faulted and every block is DONE (45_host_container.md R222). -/
def Obligations.LowestBlocksFaultIsReported : Prop :=
  (∀ slots : List Slot,
    (reportedFault slots = none ↔ ∀ slot ∈ slots, slot.engine.phase ≠ .fault) ∧
    ∀ i st, reportedFault slots = some (i, st) →
      (∃ slot ∈ slots, slot.engine.phase = .fault ∧ slot.block = i ∧ slot.engine.status = st) ∧
      ∀ slot ∈ slots, slot.engine.phase = .fault → i ≤ slot.block) ∧
  ∀ c : Cluster,
    let isDone := fun k => ∃ slot ∈ c.slots, slot.block = k ∧ slot.engine.phase = .done
    (∀ i st, c.output = some (.error (st, some i)) ↔
      reportedFault c.slots = some (i, st) ∧ ∀ k, k < i → isDone k) ∧
    ∀ bytes, c.output = some (.ok bytes) ↔
      reportedFault c.slots = none ∧ (∀ k, k < c.container.blocks.length → isDone k) ∧
        bytes = c.buf.slice 0 c.container.totalUncompressedSize
end

