-- ==== Sys2Proof/Laws/Instances.lean ====
section
/-! SUPPORT. What the operations on several instances can do, once: a step of one instance, a START, and
the fields the cluster's updates leave alone. -/

namespace Sys2Proof.Machine

@[simp] theorem Cluster.view_engine (c : Cluster) (e : Engine) : (c.view e).engine = e := rfl
@[simp] theorem Cluster.view_store (c : Cluster) (e : Engine) : (c.view e).store = c.store := rfl
@[simp] theorem Cluster.view_file (c : Cluster) (e : Engine) : (c.view e).file = c.file := rfl
@[simp] theorem Cluster.view_buf (c : Cluster) (e : Engine) : (c.view e).buf = c.buf := rfl
@[simp] theorem Cluster.put_buf (c : Cluster) (j block : Nat) (s : State) :
    (c.put j block s).buf = s.buf := rfl
@[simp] theorem Cluster.put_slots (c : Cluster) (j block : Nat) (s : State) :
    (c.put j block s).slots = c.slots.set j { block := block, engine := s.engine } := rfl
@[simp] theorem Cluster.put_view (c : Cluster) (j block : Nat) (s : State) (e : Engine) :
    (c.put j block s).view e = (c.view e).withBuf s.buf := rfl
@[simp] theorem State.cluster_slots (s : State) (limit : Instances) :
    (s.cluster limit).slots = [] := rfl

/-- A step of instance `j` that goes on is its engine's step on its own view. -/
theorem stepAt_next_iff (c d : Cluster) (j : Nat) :
    c.stepAt j = .next d ↔
      ∃ slot s, c.slots[j]? = some slot ∧ engineStep (c.view slot.engine) = .next s ∧
        d = c.put j slot.block s := by
  unfold Cluster.stepAt
  cases h : c.slots[j]? with
  | none => simp
  | some slot => cases hs : engineStep (c.view slot.engine) <;> simp [hs, eq_comm]

/-- When the host may start a block. -/
theorem mayStart_iff (c : Cluster) (i : Nat) :
    c.mayStart i = true ↔
      i = c.slots.length ∧
        c.slots.countP (fun slot => slot.engine.report.isNone) < c.limit.val ∧
        ∀ slot ∈ c.slots, slot.engine.phase ≠ .fault := by
  simp only [Cluster.mayStart, Bool.and_eq_true, decide_eq_true_eq, List.all_eq_true,
    bne_iff_ne, and_assoc]

/-- A START that is made. -/
theorem startBlock_next_iff (c d : Cluster) (i : Nat) :
    c.startBlock i = .next d ↔
      ∃ b s, c.container.blocks[i]? = some b ∧ c.mayStart i = true ∧
        start (c.launchOf i b) (c.view Engine.powerUp) = .ok s ∧ c.sharesWindow s.engine = false ∧
        d = { c with slots := c.slots ++ [{ block := i, engine := s.engine }] } := by
  unfold Cluster.startBlock
  constructor
  · intro h
    split at h
    · cases h
    · next b hb =>
      split at h
      · next hm =>
        split at h
        · cases h
        · next s hs =>
          split at h
          · cases h
          · next hw =>
            cases h
            exact ⟨b, s, hb, hm, hs, Bool.eq_false_iff.2 hw, rfl⟩
      · cases h
  · rintro ⟨b, s, hb, hm, hs, hw, rfl⟩
    simp only [hb, hm, if_true]
    rw [hs]
    simp only [hw, Bool.false_eq_true, if_false]

/-- A window that no running instance shares, instance by instance. -/
theorem sharesWindow_eq_false_iff (c : Cluster) (e : Engine) :
    c.sharesWindow e = false ↔
      ∀ slot ∈ c.slots, slot.engine.report = none → slot.engine.windowsDisjoint e := by
  simp only [Cluster.sharesWindow, List.any_eq_false, Bool.and_eq_true, Bool.not_eq_true',
    decide_eq_false_iff_not, Option.isNone_iff_eq_none, not_and, not_not]

end Sys2Proof.Machine
end

