-- ==== Sys2Proof/Laws/Memory.lean ====
section
/-! SUPPORT. Reading after writing, the canonical form under every memory operation, and what the two
copies leave alone. -/

namespace Sys2Proof.Machine

theorem read_nil (a : Nat) : Memory.read [] a = 0 := rfl

theorem read_cons (b : Nat) (w : Byte) (m : Memory) (a : Nat) :
    Memory.read ((b, w) :: m) a = if a = b then w else Memory.read m a := rfl

theorem wfFrom_cons (lo b : Nat) (w : Byte) (m : Memory) :
    Memory.wfFrom lo ((b, w) :: m) = true ↔ lo ≤ b ∧ w ≠ 0 ∧ Memory.wfFrom (b + 1) m = true := by
  simp [Memory.wfFrom, and_assoc]

theorem wfFrom_mono {m : Memory} {lo hi : Nat} (h : lo ≤ hi) (w : Memory.wfFrom hi m = true) :
    Memory.wfFrom lo m = true := by
  cases m with
  | nil => rfl
  | cons c m =>
    obtain ⟨b, v⟩ := c
    rw [wfFrom_cons] at w ⊢
    exact ⟨le_trans h w.1, w.2⟩

/-- Below the first address of a canonical memory everything reads as 0. -/
theorem read_below {m : Memory} {lo a : Nat} (w : Memory.wfFrom lo m = true) (h : a < lo) :
    m.read a = 0 := by
  induction m generalizing lo with
  | nil => rfl
  | cons c m ih =>
    obtain ⟨b, v⟩ := c
    rw [wfFrom_cons] at w
    rw [read_cons, if_neg (by omega), ih w.2.2 (by omega)]

theorem write_nil (a : Nat) (v : Byte) : Memory.write [] a v = if v = 0 then [] else [(a, v)] := rfl

theorem write_cons (b : Nat) (w : Byte) (m : Memory) (a : Nat) (v : Byte) :
    Memory.write ((b, w) :: m) a v =
      if a < b then (if v = 0 then (b, w) :: m else (a, v) :: (b, w) :: m)
      else if a = b then (if v = 0 then m else (a, v) :: m)
      else (b, w) :: Memory.write m a v := rfl

/-- A write leaves every other address alone. -/
theorem read_write_other (m : Memory) {a b : Nat} (v : Byte) (h : b ≠ a) :
    (m.write a v).read b = m.read b := by
  induction m with
  | nil =>
    rw [write_nil]
    split
    · rfl
    · rw [read_cons, if_neg h]
  | cons c m ih =>
    obtain ⟨x, w⟩ := c
    rw [write_cons]
    split
    · split
      · rfl
      · rw [read_cons, if_neg h]
    · split
      · next hax =>
        split
        · rw [read_cons, if_neg (by omega)]
        · rw [read_cons, if_neg h, read_cons, if_neg (by omega)]
      · rw [read_cons, ih, read_cons]

theorem read_write_same_from {m : Memory} {lo : Nat} (w : Memory.wfFrom lo m = true) (a : Nat)
    (v : Byte) : (m.write a v).read a = v := by
  induction m generalizing lo with
  | nil =>
    rw [write_nil]
    split
    · next hv => rw [read_nil, hv]
    · rw [read_cons, if_pos rfl]
  | cons c m ih =>
    obtain ⟨b, x⟩ := c
    rw [wfFrom_cons] at w
    rw [write_cons]
    split
    · split
      · next hab hv =>
        rw [read_cons, if_neg (by omega), read_below w.2.2 (by omega), hv]
      · rw [read_cons, if_pos rfl]
    · split
      · next hab =>
        split
        · next hv => rw [read_below w.2.2 (by omega), hv]
        · rw [read_cons, if_pos rfl]
      · rw [read_cons, if_neg (by assumption), ih w.2.2]

/-- A read of what was just written gives it. -/
theorem read_write_same {m : Memory} (w : m.wf = true) (a : Nat) (v : Byte) :
    (m.write a v).read a = v := read_write_same_from w a v

theorem wfFrom_write {m : Memory} {lo a : Nat} (w : Memory.wfFrom lo m = true) (h : lo ≤ a) (v : Byte) :
    Memory.wfFrom lo (m.write a v) = true := by
  induction m generalizing lo with
  | nil =>
    rw [write_nil]
    split
    · rfl
    · next hv => rw [wfFrom_cons]; exact ⟨h, hv, rfl⟩
  | cons c m ih =>
    obtain ⟨b, x⟩ := c
    rw [wfFrom_cons] at w
    rw [write_cons]
    split
    · split
      · rw [wfFrom_cons]; exact w
      · next hv => rw [wfFrom_cons, wfFrom_cons]; exact ⟨h, hv, by omega, w.2⟩
    · split
      · split
        · exact wfFrom_mono (by omega) w.2.2
        · next hab hv => subst hab; rw [wfFrom_cons]; exact ⟨h, hv, w.2.2⟩
      · rw [wfFrom_cons]; exact ⟨w.1, w.2.1, ih w.2.2 (by omega)⟩

/-- A write keeps the canonical form. -/
theorem wf_write {m : Memory} (w : m.wf = true) (a : Nat) (v : Byte) : (m.write a v).wf = true :=
  wfFrom_write w (Nat.zero_le a) v

theorem wfFrom_ofBytes (base : Nat) (bytes : List Byte) :
    Memory.wfFrom base (Memory.ofBytes base bytes) = true := by
  induction bytes generalizing base with
  | nil => rfl
  | cons v vs ih =>
    rw [Memory.ofBytes]
    split
    · exact wfFrom_mono (Nat.le_succ base) (ih (base + 1))
    · next hv => rw [wfFrom_cons]; exact ⟨le_refl base, hv, ih (base + 1)⟩

/-- A file's image is canonical. -/
theorem wf_ofBytes (bytes : List Byte) : (FileImage.ofBytes bytes).bytes.wf = true :=
  wfFrom_ofBytes 0 bytes

/-- Reset's memories are in the canonical form. -/
theorem wf_reset : State.reset.file.bytes.wf = true ∧ State.reset.buf.wf = true := ⟨rfl, rfl⟩

/-- RAW's copy keeps the canonical form. -/
theorem wf_copyInput (src : Memory) (n from_ to_ : Nat) {m : Memory} (w : m.wf = true) :
    (copyInput src n from_ to_ m).wf = true := by
  induction n generalizing from_ to_ m with
  | zero => exact w
  | succ n ih => exact ih _ _ (wf_write w _ _)

/-- MATCH's copy keeps the canonical form. -/
theorem wf_copyOutput (n from_ to_ : Nat) {m : Memory} (w : m.wf = true) :
    (copyOutput n from_ to_ m).wf = true := by
  induction n generalizing from_ to_ m with
  | zero => exact w
  | succ n ih => exact ih _ _ (wf_write w _ _)

/-- RAW's copy changes only the `n` bytes it writes. -/
theorem copyInput_read_other (src : Memory) (n from_ to_ : Nat) (m : Memory) {a : Nat}
    (h : a < to_ ∨ to_ + n ≤ a) : (copyInput src n from_ to_ m).read a = m.read a := by
  induction n generalizing from_ to_ m with
  | zero => rfl
  | succ n ih => rw [copyInput, ih _ _ _ (by omega), read_write_other _ _ (by omega)]

/-- MATCH's copy changes only the `n` bytes it writes. -/
theorem copyOutput_read_other (n from_ to_ : Nat) (m : Memory) {a : Nat}
    (h : a < to_ ∨ to_ + n ≤ a) : (copyOutput n from_ to_ m).read a = m.read a := by
  induction n generalizing from_ to_ m with
  | zero => rfl
  | succ n ih => rw [copyOutput, ih _ _ _ (by omega), read_write_other _ _ (by omega)]

/-- RAW's copy writes the source's bytes. -/
theorem copyInput_read (src : Memory) (n from_ to_ : Nat) {m : Memory} (w : m.wf = true) {j : Nat}
    (h : j < n) : (copyInput src n from_ to_ m).read (to_ + j) = src.read (from_ + j) := by
  induction n generalizing from_ to_ m j with
  | zero => omega
  | succ n ih =>
    rw [copyInput]
    cases j with
    | zero => rw [copyInput_read_other _ _ _ _ _ (by omega), Nat.add_zero, read_write_same w,
        Nat.add_zero]
    | succ j =>
      have := ih (from_ + 1) (to_ + 1) (wf_write w to_ (src.read from_)) (j := j) (by omega)
      rw [show to_ + (j + 1) = to_ + 1 + j by omega, this,
        show from_ + 1 + j = from_ + (j + 1) by omega]

/-- Two canonical memories that read alike everywhere are the same data. -/
theorem memory_ext_from {m m' : Memory} {lo : Nat} (w : Memory.wfFrom lo m = true)
    (w' : Memory.wfFrom lo m' = true) (h : ∀ a, m.read a = m'.read a) : m = m' := by
  induction m generalizing m' lo with
  | nil =>
    cases m' with
    | nil => rfl
    | cons c m' =>
      obtain ⟨b, v⟩ := c
      rw [wfFrom_cons] at w'
      have := h b
      rw [read_nil, read_cons, if_pos rfl] at this
      exact absurd this.symm w'.2.1
  | cons c m ih =>
    obtain ⟨b, v⟩ := c
    rw [wfFrom_cons] at w
    cases m' with
    | nil =>
      have := h b
      rw [read_nil, read_cons, if_pos rfl] at this
      exact absurd this w.2.1
    | cons c' m' =>
      obtain ⟨b', v'⟩ := c'
      rw [wfFrom_cons] at w'
      have hb := h b
      have hb' := h b'
      simp only [read_cons, if_true] at hb hb'
      have hbb : b = b' := by
        rcases Nat.lt_trichotomy b b' with hlt | heq | hgt
        · rw [if_neg (by omega), read_below w'.2.2 (by omega)] at hb
          exact absurd hb w.2.1
        · exact heq
        · rw [if_neg (by omega), read_below w.2.2 (by omega)] at hb'
          exact absurd hb'.symm w'.2.1
      subst hbb
      rw [if_pos rfl] at hb
      subst hb
      have : m = m' := by
        refine ih w.2.2 w'.2.2 fun a => ?_
        by_cases hab : a = b
        · rw [hab, read_below w.2.2 (by omega), read_below w'.2.2 (by omega)]
        · have := h a
          rwa [read_cons, read_cons, if_neg hab, if_neg hab] at this
      rw [this]

/-- Two canonical memories that read alike everywhere are the same data. -/
theorem memory_ext {m m' : Memory} (w : m.wf = true) (w' : m'.wf = true)
    (h : ∀ a, m.read a = m'.read a) : m = m' := memory_ext_from w w' h

end Sys2Proof.Machine
end

