-- ==== Sys2Proof/Laws/State.lean ====
section
/-! SUPPORT. One lemma per field per named update of the state and of the engine. -/

namespace Sys2Proof.Machine

section States

variable (s : State) (e : Engine) (m : Memory) (c : Container)

@[simp] theorem withEngine_store : (s.withEngine e).store = s.store := rfl
@[simp] theorem withEngine_literalStart : (s.withEngine e).literalStart = s.literalStart := rfl
@[simp] theorem withEngine_engine : (s.withEngine e).engine = e := rfl
@[simp] theorem withEngine_file : (s.withEngine e).file = s.file := rfl
@[simp] theorem withEngine_buf : (s.withEngine e).buf = s.buf := rfl
@[simp] theorem withEngine_container : (s.withEngine e).container = s.container := rfl

@[simp] theorem withBuf_store : (s.withBuf m).store = s.store := rfl
@[simp] theorem withBuf_literalStart : (s.withBuf m).literalStart = s.literalStart := rfl
@[simp] theorem withBuf_engine : (s.withBuf m).engine = s.engine := rfl
@[simp] theorem withBuf_file : (s.withBuf m).file = s.file := rfl
@[simp] theorem withBuf_buf : (s.withBuf m).buf = m := rfl
@[simp] theorem withBuf_container : (s.withBuf m).container = s.container := rfl

@[simp] theorem withContainer_store : (s.withContainer c).store = s.store := rfl
@[simp] theorem withContainer_literalStart : (s.withContainer c).literalStart = s.literalStart := rfl
@[simp] theorem withContainer_engine : (s.withContainer c).engine = s.engine := rfl
@[simp] theorem withContainer_file : (s.withContainer c).file = s.file := rfl
@[simp] theorem withContainer_buf : (s.withContainer c).buf = s.buf := rfl
@[simp] theorem withContainer_container : (s.withContainer c).container = c := rfl

@[simp] theorem withEngine_withEngine (e' : Engine) : (s.withEngine e).withEngine e' = s.withEngine e' := rfl

@[simp] theorem raise_store (st : Status) : (s.raise st).store = s.store := rfl
@[simp] theorem raise_literalStart (st : Status) : (s.raise st).literalStart = s.literalStart := rfl
@[simp] theorem raise_engine (st : Status) : (s.raise st).engine = s.engine.takeFault st := rfl
@[simp] theorem raise_file (st : Status) : (s.raise st).file = s.file := rfl
@[simp] theorem raise_buf (st : Status) : (s.raise st).buf = s.buf := rfl
@[simp] theorem raise_container (st : Status) : (s.raise st).container = s.container := rfl

end States

section Engines

variable (e : Engine) (r : BitReader) (a : Word) (p n : Nat) (ph : Phase) (st : Status)

@[simp] theorem withReader_br : (e.withReader r).br = r := rfl
@[simp] theorem withReader_acc : (e.withReader r).acc = e.acc := rfl
@[simp] theorem withReader_pendingBits : (e.withReader r).pendingBits = e.pendingBits := rfl
@[simp] theorem withReader_tableSel : (e.withReader r).tableSel = e.tableSel := rfl
@[simp] theorem withReader_offsetShift : (e.withReader r).offsetShift = e.offsetShift := rfl
@[simp] theorem withReader_unpackInfoByteLength : (e.withReader r).unpackInfoByteLength = e.unpackInfoByteLength := rfl
@[simp] theorem withReader_logicalCapacity : (e.withReader r).logicalCapacity = e.logicalCapacity := rfl
@[simp] theorem withReader_written : (e.withReader r).written = e.written := rfl
@[simp] theorem withReader_inPtr : (e.withReader r).inPtr = e.inPtr := rfl
@[simp] theorem withReader_inBase : (e.withReader r).inBase = e.inBase := rfl
@[simp] theorem withReader_inLen : (e.withReader r).inLen = e.inLen := rfl
@[simp] theorem withReader_windowBase : (e.withReader r).windowBase = e.windowBase := rfl
@[simp] theorem withReader_windowCapacity : (e.withReader r).windowCapacity = e.windowCapacity := rfl
@[simp] theorem withReader_phase : (e.withReader r).phase = e.phase := rfl
@[simp] theorem withReader_status : (e.withReader r).status = e.status := rfl

@[simp] theorem withAcc_br : (e.withAcc a p).br = e.br := rfl
@[simp] theorem withAcc_acc : (e.withAcc a p).acc = a := rfl
@[simp] theorem withAcc_pendingBits : (e.withAcc a p).pendingBits = p := rfl
@[simp] theorem withAcc_tableSel : (e.withAcc a p).tableSel = e.tableSel := rfl
@[simp] theorem withAcc_offsetShift : (e.withAcc a p).offsetShift = e.offsetShift := rfl
@[simp] theorem withAcc_unpackInfoByteLength : (e.withAcc a p).unpackInfoByteLength = e.unpackInfoByteLength := rfl
@[simp] theorem withAcc_logicalCapacity : (e.withAcc a p).logicalCapacity = e.logicalCapacity := rfl
@[simp] theorem withAcc_written : (e.withAcc a p).written = e.written := rfl
@[simp] theorem withAcc_inPtr : (e.withAcc a p).inPtr = e.inPtr := rfl
@[simp] theorem withAcc_inBase : (e.withAcc a p).inBase = e.inBase := rfl
@[simp] theorem withAcc_inLen : (e.withAcc a p).inLen = e.inLen := rfl
@[simp] theorem withAcc_windowBase : (e.withAcc a p).windowBase = e.windowBase := rfl
@[simp] theorem withAcc_windowCapacity : (e.withAcc a p).windowCapacity = e.windowCapacity := rfl
@[simp] theorem withAcc_phase : (e.withAcc a p).phase = e.phase := rfl
@[simp] theorem withAcc_status : (e.withAcc a p).status = e.status := rfl

@[simp] theorem withPhase_br : (e.withPhase ph).br = e.br := rfl
@[simp] theorem withPhase_acc : (e.withPhase ph).acc = e.acc := rfl
@[simp] theorem withPhase_pendingBits : (e.withPhase ph).pendingBits = e.pendingBits := rfl
@[simp] theorem withPhase_tableSel : (e.withPhase ph).tableSel = e.tableSel := rfl
@[simp] theorem withPhase_offsetShift : (e.withPhase ph).offsetShift = e.offsetShift := rfl
@[simp] theorem withPhase_unpackInfoByteLength : (e.withPhase ph).unpackInfoByteLength = e.unpackInfoByteLength := rfl
@[simp] theorem withPhase_logicalCapacity : (e.withPhase ph).logicalCapacity = e.logicalCapacity := rfl
@[simp] theorem withPhase_written : (e.withPhase ph).written = e.written := rfl
@[simp] theorem withPhase_inPtr : (e.withPhase ph).inPtr = e.inPtr := rfl
@[simp] theorem withPhase_inBase : (e.withPhase ph).inBase = e.inBase := rfl
@[simp] theorem withPhase_inLen : (e.withPhase ph).inLen = e.inLen := rfl
@[simp] theorem withPhase_windowBase : (e.withPhase ph).windowBase = e.windowBase := rfl
@[simp] theorem withPhase_windowCapacity : (e.withPhase ph).windowCapacity = e.windowCapacity := rfl
@[simp] theorem withPhase_phase : (e.withPhase ph).phase = ph := rfl
@[simp] theorem withPhase_status : (e.withPhase ph).status = e.status := rfl

@[simp] theorem advanceOut_br : (e.advanceOut n).br = e.br := rfl
@[simp] theorem advanceOut_acc : (e.advanceOut n).acc = e.acc := rfl
@[simp] theorem advanceOut_pendingBits : (e.advanceOut n).pendingBits = e.pendingBits := rfl
@[simp] theorem advanceOut_tableSel : (e.advanceOut n).tableSel = e.tableSel := rfl
@[simp] theorem advanceOut_offsetShift : (e.advanceOut n).offsetShift = e.offsetShift := rfl
@[simp] theorem advanceOut_unpackInfoByteLength : (e.advanceOut n).unpackInfoByteLength = e.unpackInfoByteLength := rfl
@[simp] theorem advanceOut_logicalCapacity : (e.advanceOut n).logicalCapacity = e.logicalCapacity := rfl
@[simp] theorem advanceOut_written : (e.advanceOut n).written = e.written + n := rfl
@[simp] theorem advanceOut_inPtr : (e.advanceOut n).inPtr = e.inPtr := rfl
@[simp] theorem advanceOut_inBase : (e.advanceOut n).inBase = e.inBase := rfl
@[simp] theorem advanceOut_inLen : (e.advanceOut n).inLen = e.inLen := rfl
@[simp] theorem advanceOut_windowBase : (e.advanceOut n).windowBase = e.windowBase := rfl
@[simp] theorem advanceOut_windowCapacity : (e.advanceOut n).windowCapacity = e.windowCapacity := rfl
@[simp] theorem advanceOut_phase : (e.advanceOut n).phase = e.phase := rfl
@[simp] theorem advanceOut_status : (e.advanceOut n).status = e.status := rfl

@[simp] theorem advanceIn_br : (e.advanceIn n).br = e.br := rfl
@[simp] theorem advanceIn_acc : (e.advanceIn n).acc = e.acc := rfl
@[simp] theorem advanceIn_pendingBits : (e.advanceIn n).pendingBits = e.pendingBits := rfl
@[simp] theorem advanceIn_tableSel : (e.advanceIn n).tableSel = e.tableSel := rfl
@[simp] theorem advanceIn_offsetShift : (e.advanceIn n).offsetShift = e.offsetShift := rfl
@[simp] theorem advanceIn_unpackInfoByteLength : (e.advanceIn n).unpackInfoByteLength = e.unpackInfoByteLength := rfl
@[simp] theorem advanceIn_logicalCapacity : (e.advanceIn n).logicalCapacity = e.logicalCapacity := rfl
@[simp] theorem advanceIn_written : (e.advanceIn n).written = e.written := rfl
@[simp] theorem advanceIn_inPtr : (e.advanceIn n).inPtr = e.inPtr + n := rfl
@[simp] theorem advanceIn_inBase : (e.advanceIn n).inBase = e.inBase := rfl
@[simp] theorem advanceIn_inLen : (e.advanceIn n).inLen = e.inLen := rfl
@[simp] theorem advanceIn_windowBase : (e.advanceIn n).windowBase = e.windowBase := rfl
@[simp] theorem advanceIn_windowCapacity : (e.advanceIn n).windowCapacity = e.windowCapacity := rfl
@[simp] theorem advanceIn_phase : (e.advanceIn n).phase = e.phase := rfl
@[simp] theorem advanceIn_status : (e.advanceIn n).status = e.status := rfl

@[simp] theorem takeFault_br : (e.takeFault st).br = e.br := rfl
@[simp] theorem takeFault_acc : (e.takeFault st).acc = e.acc := rfl
@[simp] theorem takeFault_pendingBits : (e.takeFault st).pendingBits = e.pendingBits := rfl
@[simp] theorem takeFault_tableSel : (e.takeFault st).tableSel = e.tableSel := rfl
@[simp] theorem takeFault_offsetShift : (e.takeFault st).offsetShift = e.offsetShift := rfl
@[simp] theorem takeFault_unpackInfoByteLength : (e.takeFault st).unpackInfoByteLength = e.unpackInfoByteLength := rfl
@[simp] theorem takeFault_logicalCapacity : (e.takeFault st).logicalCapacity = e.logicalCapacity := rfl
@[simp] theorem takeFault_written : (e.takeFault st).written = e.written := rfl
@[simp] theorem takeFault_inPtr : (e.takeFault st).inPtr = e.inPtr := rfl
@[simp] theorem takeFault_inBase : (e.takeFault st).inBase = e.inBase := rfl
@[simp] theorem takeFault_inLen : (e.takeFault st).inLen = e.inLen := rfl
@[simp] theorem takeFault_windowBase : (e.takeFault st).windowBase = e.windowBase := rfl
@[simp] theorem takeFault_windowCapacity : (e.takeFault st).windowCapacity = e.windowCapacity := rfl
@[simp] theorem takeFault_phase : (e.takeFault st).phase = .fault := rfl
@[simp] theorem takeFault_status : (e.takeFault st).status = st := rfl

variable (v : Half) (k : Nat) (w : Word)

@[simp] theorem withUnpackInfo_br : (e.withUnpackInfo v).br = e.br := rfl
@[simp] theorem withUnpackInfo_acc : (e.withUnpackInfo v).acc = e.acc := rfl
@[simp] theorem withUnpackInfo_pendingBits : (e.withUnpackInfo v).pendingBits = e.pendingBits := rfl
@[simp] theorem withUnpackInfo_tableSel : (e.withUnpackInfo v).tableSel = e.tableSel := rfl
@[simp] theorem withUnpackInfo_offsetShift : (e.withUnpackInfo v).offsetShift = e.offsetShift := rfl
@[simp] theorem withUnpackInfo_unpackInfoByteLength : (e.withUnpackInfo v).unpackInfoByteLength = v := rfl
@[simp] theorem withUnpackInfo_logicalCapacity : (e.withUnpackInfo v).logicalCapacity = e.logicalCapacity := rfl
@[simp] theorem withUnpackInfo_written : (e.withUnpackInfo v).written = e.written := rfl
@[simp] theorem withUnpackInfo_inPtr : (e.withUnpackInfo v).inPtr = e.inPtr := rfl
@[simp] theorem withUnpackInfo_inBase : (e.withUnpackInfo v).inBase = e.inBase := rfl
@[simp] theorem withUnpackInfo_inLen : (e.withUnpackInfo v).inLen = e.inLen := rfl
@[simp] theorem withUnpackInfo_windowBase : (e.withUnpackInfo v).windowBase = e.windowBase := rfl
@[simp] theorem withUnpackInfo_windowCapacity : (e.withUnpackInfo v).windowCapacity = e.windowCapacity := rfl
@[simp] theorem withUnpackInfo_phase : (e.withUnpackInfo v).phase = e.phase := rfl
@[simp] theorem withUnpackInfo_status : (e.withUnpackInfo v).status = e.status := rfl

@[simp] theorem afterSetup_br : (e.afterSetup k w n p).br = e.br := rfl
@[simp] theorem afterSetup_acc : (e.afterSetup k w n p).acc = w >>> 2 := rfl
@[simp] theorem afterSetup_pendingBits : (e.afterSetup k w n p).pendingBits = 2 := rfl
@[simp] theorem afterSetup_tableSel : (e.afterSetup k w n p).tableSel = w.setWidth 2 := rfl
@[simp] theorem afterSetup_offsetShift : (e.afterSetup k w n p).offsetShift = n := rfl
@[simp] theorem afterSetup_unpackInfoByteLength : (e.afterSetup k w n p).unpackInfoByteLength = e.unpackInfoByteLength := rfl
@[simp] theorem afterSetup_logicalCapacity : (e.afterSetup k w n p).logicalCapacity = Config.maxBlockOutput - k := rfl
@[simp] theorem afterSetup_written : (e.afterSetup k w n p).written = e.written := rfl
@[simp] theorem afterSetup_inPtr : (e.afterSetup k w n p).inPtr = p := rfl
@[simp] theorem afterSetup_inBase : (e.afterSetup k w n p).inBase = e.inBase := rfl
@[simp] theorem afterSetup_inLen : (e.afterSetup k w n p).inLen = e.inLen := rfl
@[simp] theorem afterSetup_windowBase : (e.afterSetup k w n p).windowBase = e.windowBase := rfl
@[simp] theorem afterSetup_windowCapacity : (e.afterSetup k w n p).windowCapacity = e.windowCapacity := rfl
@[simp] theorem afterSetup_phase : (e.afterSetup k w n p).phase = .check := rfl
@[simp] theorem afterSetup_status : (e.afterSetup k w n p).status = e.status := rfl

end Engines

section Consumption

variable (s : State) (e : CodeTableEntry) (k : Nat)

@[simp] theorem consumeCode_store : (s.consumeCode e).store = s.store := rfl
@[simp] theorem consumeCode_literalStart : (s.consumeCode e).literalStart = s.literalStart := rfl
@[simp] theorem consumeCode_file : (s.consumeCode e).file = s.file := rfl
@[simp] theorem consumeCode_buf : (s.consumeCode e).buf = s.buf := rfl
@[simp] theorem consumeCode_container : (s.consumeCode e).container = s.container := rfl
@[simp] theorem consumeCode_engine_br : (s.consumeCode e).engine.br = s.engine.br := rfl
@[simp] theorem consumeCode_engine_acc : (s.consumeCode e).engine.acc = s.engine.acc >>> e.codeLen.toNat := rfl
@[simp] theorem consumeCode_engine_pendingBits : (s.consumeCode e).engine.pendingBits = s.engine.pendingBits + e.codeLen.toNat := rfl
@[simp] theorem consumeCode_engine_tableSel : (s.consumeCode e).engine.tableSel = s.engine.tableSel := rfl
@[simp] theorem consumeCode_engine_offsetShift : (s.consumeCode e).engine.offsetShift = s.engine.offsetShift := rfl
@[simp] theorem consumeCode_engine_unpackInfoByteLength : (s.consumeCode e).engine.unpackInfoByteLength = s.engine.unpackInfoByteLength := rfl
@[simp] theorem consumeCode_engine_logicalCapacity : (s.consumeCode e).engine.logicalCapacity = s.engine.logicalCapacity := rfl
@[simp] theorem consumeCode_engine_written : (s.consumeCode e).engine.written = s.engine.written := rfl
@[simp] theorem consumeCode_engine_inPtr : (s.consumeCode e).engine.inPtr = s.engine.inPtr := rfl
@[simp] theorem consumeCode_engine_inBase : (s.consumeCode e).engine.inBase = s.engine.inBase := rfl
@[simp] theorem consumeCode_engine_inLen : (s.consumeCode e).engine.inLen = s.engine.inLen := rfl
@[simp] theorem consumeCode_engine_windowBase : (s.consumeCode e).engine.windowBase = s.engine.windowBase := rfl
@[simp] theorem consumeCode_engine_windowCapacity : (s.consumeCode e).engine.windowCapacity = s.engine.windowCapacity := rfl
@[simp] theorem consumeCode_engine_phase : (s.consumeCode e).engine.phase = s.engine.phase := rfl
@[simp] theorem consumeCode_engine_status : (s.consumeCode e).engine.status = s.engine.status := rfl

@[simp] theorem dropBits_store : (s.dropBits k).store = s.store := rfl
@[simp] theorem dropBits_literalStart : (s.dropBits k).literalStart = s.literalStart := rfl
@[simp] theorem dropBits_file : (s.dropBits k).file = s.file := rfl
@[simp] theorem dropBits_buf : (s.dropBits k).buf = s.buf := rfl
@[simp] theorem dropBits_container : (s.dropBits k).container = s.container := rfl
@[simp] theorem dropBits_engine_br : (s.dropBits k).engine.br = s.engine.br := rfl
@[simp] theorem dropBits_engine_acc : (s.dropBits k).engine.acc = s.engine.acc >>> k := rfl
@[simp] theorem dropBits_engine_pendingBits : (s.dropBits k).engine.pendingBits = s.engine.pendingBits := rfl
@[simp] theorem dropBits_engine_tableSel : (s.dropBits k).engine.tableSel = s.engine.tableSel := rfl
@[simp] theorem dropBits_engine_offsetShift : (s.dropBits k).engine.offsetShift = s.engine.offsetShift := rfl
@[simp] theorem dropBits_engine_unpackInfoByteLength : (s.dropBits k).engine.unpackInfoByteLength = s.engine.unpackInfoByteLength := rfl
@[simp] theorem dropBits_engine_logicalCapacity : (s.dropBits k).engine.logicalCapacity = s.engine.logicalCapacity := rfl
@[simp] theorem dropBits_engine_written : (s.dropBits k).engine.written = s.engine.written := rfl
@[simp] theorem dropBits_engine_inPtr : (s.dropBits k).engine.inPtr = s.engine.inPtr := rfl
@[simp] theorem dropBits_engine_inBase : (s.dropBits k).engine.inBase = s.engine.inBase := rfl
@[simp] theorem dropBits_engine_inLen : (s.dropBits k).engine.inLen = s.engine.inLen := rfl
@[simp] theorem dropBits_engine_windowBase : (s.dropBits k).engine.windowBase = s.engine.windowBase := rfl
@[simp] theorem dropBits_engine_windowCapacity : (s.dropBits k).engine.windowCapacity = s.engine.windowCapacity := rfl
@[simp] theorem dropBits_engine_phase : (s.dropBits k).engine.phase = s.engine.phase := rfl
@[simp] theorem dropBits_engine_status : (s.dropBits k).engine.status = s.engine.status := rfl

@[simp] theorem setPending_store : (s.setPending k).store = s.store := rfl
@[simp] theorem setPending_literalStart : (s.setPending k).literalStart = s.literalStart := rfl
@[simp] theorem setPending_file : (s.setPending k).file = s.file := rfl
@[simp] theorem setPending_buf : (s.setPending k).buf = s.buf := rfl
@[simp] theorem setPending_container : (s.setPending k).container = s.container := rfl
@[simp] theorem setPending_engine_br : (s.setPending k).engine.br = s.engine.br := rfl
@[simp] theorem setPending_engine_acc : (s.setPending k).engine.acc = s.engine.acc := rfl
@[simp] theorem setPending_engine_pendingBits : (s.setPending k).engine.pendingBits = k := rfl
@[simp] theorem setPending_engine_tableSel : (s.setPending k).engine.tableSel = s.engine.tableSel := rfl
@[simp] theorem setPending_engine_offsetShift : (s.setPending k).engine.offsetShift = s.engine.offsetShift := rfl
@[simp] theorem setPending_engine_unpackInfoByteLength : (s.setPending k).engine.unpackInfoByteLength = s.engine.unpackInfoByteLength := rfl
@[simp] theorem setPending_engine_logicalCapacity : (s.setPending k).engine.logicalCapacity = s.engine.logicalCapacity := rfl
@[simp] theorem setPending_engine_written : (s.setPending k).engine.written = s.engine.written := rfl
@[simp] theorem setPending_engine_inPtr : (s.setPending k).engine.inPtr = s.engine.inPtr := rfl
@[simp] theorem setPending_engine_inBase : (s.setPending k).engine.inBase = s.engine.inBase := rfl
@[simp] theorem setPending_engine_inLen : (s.setPending k).engine.inLen = s.engine.inLen := rfl
@[simp] theorem setPending_engine_windowBase : (s.setPending k).engine.windowBase = s.engine.windowBase := rfl
@[simp] theorem setPending_engine_windowCapacity : (s.setPending k).engine.windowCapacity = s.engine.windowCapacity := rfl
@[simp] theorem setPending_engine_phase : (s.setPending k).engine.phase = s.engine.phase := rfl
@[simp] theorem setPending_engine_status : (s.setPending k).engine.status = s.engine.status := rfl

end Consumption

end Sys2Proof.Machine
end

