-- ==== Sys2Proof/Laws/Ops.lean ====
section
/-! SUPPORT. What each shared operation can do, once: NEXT, Refill, START, the three commands, SETUP and
the container decoder's steps. -/

namespace Sys2Proof.Machine

/-- NEXT faults exactly outside the counts 1 to 32, with the record of 40_bit_reader.md R111. -/
theorem next_error_iff (fetch : Nat → Word) (n : Nat) (br : BitReader) (st : Status) :
    br.next fetch n = .error st ↔
      (n < 1 ∨ 32 < n) ∧ st = { kind := .invalidBitRequest, info := .bitRequest n br.fetchPtr } := by
  unfold BitReader.next
  split
  · next h => exact ⟨fun he => ⟨h, by injection he with he; exact he.symm⟩, fun he => by rw [he.2]⟩
  · next h =>
    refine ⟨fun he => ?_, fun he => absurd he.1 h⟩
    split at he
    · split at he <;> cases he
    · split at he
      · cases he
      · split at he <;> cases he

/-- NEXT answers for every count from 1 to 32. -/
theorem next_ok_of_range (fetch : Nat → Word) {n : Nat} (br : BitReader) (h : 1 ≤ n) (h' : n ≤ 32) :
    ∃ r br', br.next fetch n = .ok (r, br') := by
  match he : br.next fetch n with
  | .ok (r, br') => exact ⟨r, br', rfl⟩
  | .error st => have := ((next_error_iff fetch n br st).1 he).1; omega

/-- NEXT on the whole state, where it faults. -/
theorem nextBits_error_iff (n : Nat) (s : State) (st : Status) :
    s.nextBits n = .error st ↔
      (n < 1 ∨ 32 < n) ∧
        st = { kind := .invalidBitRequest, info := .bitRequest n s.engine.br.fetchPtr } := by
  rw [← next_error_iff s.fetchWord n s.engine.br st]
  unfold State.nextBits
  cases s.engine.br.next s.fetchWord n with
  | error st' => simp
  | ok p => obtain ⟨r, br⟩ := p; simp

/-- NEXT on the whole state changes the bit reader's registers alone. -/
theorem nextBits_ok_iff (n : Nat) (s : State) (r : Word) (t : State) :
    s.nextBits n = .ok (r, t) ↔
      ∃ br, s.engine.br.next s.fetchWord n = .ok (r, br) ∧ t = s.withEngine (s.engine.withReader br) := by
  unfold State.nextBits
  cases h : s.engine.br.next s.fetchWord n with
  | error st' => simp
  | ok p =>
    obtain ⟨r', br⟩ := p
    constructor
    · intro he; cases he; exact ⟨br, rfl, rfl⟩
    · rintro ⟨br', he, rfl⟩; cases he; rfl

/-- Refill, where it faults: exactly where `pendingBits` is no count for NEXT. -/
theorem refill_error_iff (s : State) (st : Status) :
    s.refill = .error st ↔
      (s.engine.pendingBits < 1 ∨ 32 < s.engine.pendingBits) ∧
        st = { kind := .invalidBitRequest
               info := .bitRequest s.engine.pendingBits s.engine.br.fetchPtr } := by
  rw [← nextBits_error_iff]
  unfold State.refill
  cases s.nextBits s.engine.pendingBits with
  | error st' => simp
  | ok p => obtain ⟨r, t⟩ := p; simp

/-- Refill ORs NEXT's result into the accumulator and leaves all else but the reader alone. -/
theorem refill_ok_iff (s t : State) :
    s.refill = .ok t ↔
      ∃ r br, s.engine.br.next s.fetchWord s.engine.pendingBits = .ok (r, br) ∧
        t = s.withEngine
          ((s.engine.withReader br).withAcc (s.engine.acc ||| r) s.engine.pendingBits) := by
  unfold State.refill
  cases h : s.nextBits s.engine.pendingBits with
  | error st =>
    have := (nextBits_error_iff _ _ _).1 h
    simp only [reduceCtorEq, false_iff, not_exists, not_and]
    intro r br he
    have := ((next_error_iff s.fetchWord s.engine.pendingBits s.engine.br st).2 this)
    rw [this] at he; cases he
  | ok p =>
    obtain ⟨r, u⟩ := p
    obtain ⟨br, hn, rfl⟩ := (nextBits_ok_iff _ _ _ _).1 h
    constructor
    · intro he; cases he; exact ⟨r, br, hn, rfl⟩
    · rintro ⟨r', br', hn', rfl⟩
      rw [hn] at hn'; cases hn'; rfl

/-- START, where it is allowed, leaves the engine of 70_reset_and_hazards.md R270 and all else alone. -/
theorem start_ok_iff (l : Launch) (s t : State) :
    start l s = .ok t ↔
      brokenPremise? l s = none ∧
        t = s.withEngine
          (Engine.started l ((s.withEngine (s.engine.launched l)).fetchWord 0)) := by
  unfold start
  cases brokenPremise? l s <;> simp [eq_comm]

/-- LIT in terms of the state before its step. -/
theorem execLit_eq (e : CodeTableEntry) (s : State) :
    execLit e s =
      if s.engine.written = s.engine.logicalCapacity then
        .next ((s.consumeCode e).raise
          { kind := .capacityOverrun, info := .overrun s.engine.written s.engine.logicalCapacity })
      else if s.engine.inLen ≤ s.engine.inPtr then
        .next ((s.consumeCode e).raise
          { kind := .truncatedBlock, info := .truncated s.engine.inPtr 1 s.engine.inLen })
      else if s.engine.leavesWindow 1 then .fault (.outsideWindow s.engine.firstOutside)
      else
        .next (((s.consumeCode e).withBuf
            (s.buf.write (s.engine.windowBase + s.engine.written)
              (s.file.bytes.read (s.engine.inBase + s.engine.inPtr)))).withEngine
          ((((s.consumeCode e).engine.advanceOut 1).advanceIn 1).withPhase .check)) := rfl

/-- The state RAW works on after its refill gave result `r` and reader `br`. -/
def rawReady (e : CodeTableEntry) (r : Word) (br : BitReader) (s : State) : State :=
  s.withEngine ((s.engine.withReader br).withAcc
    (((s.engine.acc >>> e.codeLen.toNat) ||| r) >>> e.lenExtraBits.toNat) e.lenExtraBits.toNat)

/-- The state MATCH works on after its refill gave result `r` and reader `br`. -/
def matchReady (e : CodeTableEntry) (r : Word) (br : BitReader) (s : State) : State :=
  s.withEngine ((s.engine.withReader br).withAcc
    ((((s.engine.acc >>> e.codeLen.toNat) ||| r) >>> e.lenExtraBits.toNat)
      >>> e.offsetExtraBits.toNat) (s.engine.pendingBits + e.codeLen.toNat))

/-- The refill fault RAW and MATCH raise. -/
def refillFault (e : CodeTableEntry) (s : State) : Status :=
  { kind := .invalidBitRequest
    info := .bitRequest (s.engine.pendingBits + e.codeLen.toNat) s.engine.br.fetchPtr }

/-- The refill after the code field, where it answers. -/
theorem refill_after_code {e : CodeTableEntry} {s : State} {r : Word} {br : BitReader}
    (h : s.engine.br.next s.fetchWord (s.engine.pendingBits + e.codeLen.toNat) = .ok (r, br)) :
    (s.consumeCode e).refill =
      .ok ((s.consumeCode e).withEngine
        (((s.consumeCode e).engine.withReader br).withAcc ((s.consumeCode e).engine.acc ||| r)
          (s.consumeCode e).engine.pendingBits)) :=
  (refill_ok_iff _ _).2 ⟨r, br, h, rfl⟩

/-- RAW where its refill faults. -/
theorem execRaw_refill_fault (e : CodeTableEntry) (x : Nat) {s : State}
    (h : s.engine.pendingBits + e.codeLen.toNat < 1 ∨ 32 < s.engine.pendingBits + e.codeLen.toNat) :
    execRaw e x s = .next ((s.consumeCode e).raise (refillFault e s)) := by
  have hr := (refill_error_iff (s.consumeCode e) (refillFault e s)).2 ⟨h, rfl⟩
  simp only [execRaw, hr]

/-- RAW where its refill answers, in terms of the state before its step. -/
theorem execRaw_eq {e : CodeTableEntry} (x : Nat) {s : State} {r : Word} {br : BitReader}
    (h : s.engine.br.next s.fetchWord (s.engine.pendingBits + e.codeLen.toNat) = .ok (r, br)) :
    execRaw e x s =
      if 0 < s.engine.clamp (copyLength e x) ∧
          s.engine.inLen < s.engine.inPtr + s.engine.clamp (copyLength e x) then
        .next ((rawReady e r br s).raise
          { kind := .truncatedBlock
            info := .truncated s.engine.inPtr (s.engine.clamp (copyLength e x)) s.engine.inLen })
      else if s.engine.leavesWindow (s.engine.clamp (copyLength e x)) then .fault (.outsideWindow s.engine.firstOutside)
      else
        .next (((rawReady e r br s).withBuf
            (copyInput s.file.bytes (s.engine.clamp (copyLength e x))
              (s.engine.inBase + s.engine.inPtr) (s.engine.windowBase + s.engine.written)
              s.buf)).withEngine
          ((((rawReady e r br s).engine.advanceOut (s.engine.clamp (copyLength e x))).advanceIn
            (s.engine.clamp (copyLength e x))).withPhase .check)) := by
  simp only [execRaw, refill_after_code h]
  rfl

/-- MATCH where its refill faults. -/
theorem execMatch_refill_fault (e : CodeTableEntry) (x y : Nat) {s : State}
    (h : s.engine.pendingBits + e.codeLen.toNat < 1 ∨ 32 < s.engine.pendingBits + e.codeLen.toNat) :
    execMatch e x y s = .next ((s.consumeCode e).raise (refillFault e s)) := by
  have hr := (refill_error_iff (s.consumeCode e) (refillFault e s)).2 ⟨h, rfl⟩
  simp only [execMatch, hr]

/-- A MATCH that would read outside the bytes already written (42_block_decoder.md R168). -/
abbrev badReference (e : CodeTableEntry) (x y : Nat) (s : State) : Prop :=
  0 < s.engine.clamp (copyLength e x) ∧
    (backOffsetOf e s.engine.offsetShift y = 0 ∨
      s.engine.written < backOffsetOf e s.engine.offsetShift y)

/-- MATCH where its refill answers, in terms of the state before its step. -/
theorem execMatch_eq {e : CodeTableEntry} (x y : Nat) {s : State} {r : Word} {br : BitReader}
    (h : s.engine.br.next s.fetchWord (s.engine.pendingBits + e.codeLen.toNat) = .ok (r, br)) :
    execMatch e x y s =
      if badReference e x y s then
        .next ((matchReady e r br s).raise
          { kind := .invalidBackReference
            info := .backReference s.engine.written (backOffsetOf e s.engine.offsetShift y) })
      else if s.engine.leavesWindow (s.engine.clamp (copyLength e x)) then .fault (.outsideWindow s.engine.firstOutside)
      else
        .next (((matchReady e r br s).withBuf
            (copyOutput (s.engine.clamp (copyLength e x))
              (s.engine.windowBase + (s.engine.written - backOffsetOf e s.engine.offsetShift y))
              (s.engine.windowBase + s.engine.written) s.buf)).withEngine
          ((((matchReady e r br s).engine.advanceOut (s.engine.clamp (copyLength e x))).withAcc
            (matchReady e r br s).engine.acc
            (e.lenExtraBits.toNat + e.offsetExtraBits.toNat)).withPhase .decode)) := by
  simp only [execMatch, refill_after_code h]
  rfl

/-- The refill of RAW and MATCH either faults or answers. -/
theorem refill_split (e : CodeTableEntry) (s : State) :
    (s.engine.pendingBits + e.codeLen.toNat < 1 ∨ 32 < s.engine.pendingBits + e.codeLen.toNat) ∨
      ∃ r br, s.engine.br.next s.fetchWord (s.engine.pendingBits + e.codeLen.toNat) = .ok (r, br) := by
  by_cases h : s.engine.pendingBits + e.codeLen.toNat < 1 ∨
      32 < s.engine.pendingBits + e.codeLen.toNat
  · exact .inl h
  · exact .inr (next_ok_of_range _ _ (by omega) (by omega))

/-- SETUP in terms of the state before its step. Its three requests are in range, so NEXT does not
fault. -/
theorem setupStep_eq (s : State) :
    ∃ r₁ br₁ r₂ br₂ f br₃,
      s.engine.br.next s.fetchWord 16 = .ok (r₁, br₁) ∧ br₁.next s.fetchWord 16 = .ok (r₂, br₂) ∧
      br₂.next s.fetchWord 32 = .ok (f, br₃) ∧
      setupStep s =
        if Config.maxBlockOutput < fieldValue 16 r₂ ∨
            s.engine.windowCapacity < Config.maxBlockOutput - fieldValue 16 r₂ then
          .next ((s.withEngine
            ((s.engine.withReader br₂).withUnpackInfo (BitVec.ofNat 16 (fieldValue 16 r₁)))).raise
              { kind := .invalidCapacity
                info := .capacity (fieldValue 16 r₂) s.engine.windowCapacity })
        else
          match selectedTable? s.store (f.setWidth 2) with
          | none => .refused (.undecodable .noTable)
          | some t =>
            .next (s.withEngine
              (((s.engine.withReader br₃).withUnpackInfo
                (BitVec.ofNat 16 (fieldValue 16 r₁))).afterSetup (fieldValue 16 r₂) f t.offsetShift
                  (literalOffset s.literalStart (BitVec.ofNat 16 (fieldValue 16 r₁))))) := by
  obtain ⟨r₁, br₁, h₁⟩ := next_ok_of_range s.fetchWord (n := 16) s.engine.br (by omega) (by omega)
  obtain ⟨r₂, br₂, h₂⟩ := next_ok_of_range s.fetchWord (n := 16) br₁ (by omega) (by omega)
  obtain ⟨f, br₃, h₃⟩ := next_ok_of_range s.fetchWord (n := 32) br₂ (by omega) (by omega)
  refine ⟨r₁, br₁, r₂, br₂, f, br₃, h₁, h₂, h₃, ?_⟩
  have e₁ := (nextBits_ok_iff 16 s r₁ _).2 ⟨br₁, h₁, rfl⟩
  have e₂ := (nextBits_ok_iff 16 ((s.withEngine (s.engine.withReader br₁)).withEngine
    ((s.withEngine (s.engine.withReader br₁)).engine.withUnpackInfo
      (BitVec.ofNat 16 (fieldValue 16 r₁)))) r₂ _).2 ⟨br₂, h₂, rfl⟩
  have e₃ := (nextBits_ok_iff 32 (((s.withEngine (s.engine.withReader br₁)).withEngine
    ((s.withEngine (s.engine.withReader br₁)).engine.withUnpackInfo
      (BitVec.ofNat 16 (fieldValue 16 r₁)))).withEngine
        (((s.withEngine (s.engine.withReader br₁)).withEngine
          ((s.withEngine (s.engine.withReader br₁)).engine.withUnpackInfo
            (BitVec.ofNat 16 (fieldValue 16 r₁)))).engine.withReader br₂)) f _).2 ⟨br₃, h₃, rfl⟩
  simp only [setupStep, e₁, setupCapacity, e₂, setupSelector, e₃]
  rfl

/-- A step of a running engine is that engine's step. -/
theorem step_running {s : State}
    (h : s.engine.phase = .setup ∨ s.engine.phase = .check ∨ s.engine.phase = .decode) :
    step s = engineStep s := by
  unfold step
  rcases h with h | h | h <;> rw [h]

/-- A step of the machine whose engine has no step of its own is the container decoder's. -/
theorem step_resting {s : State}
    (h : s.engine.phase = .idle ∨ s.engine.phase = .done ∨ s.engine.phase = .fault) :
    step s = containerStep s := by
  unfold step
  rcases h with h | h | h <;> rw [h]

/-- Everything the launch of the next block can answer. -/
theorem nextBlockStep_cases {s : State} {o : Host.Outcome State Fault Refusal}
    (h : nextBlockStep s = o) :
    (s.container.blocks[s.container.blockIndex]? = none ∧
      o = .next (s.withContainer { s.container with phase := .returned .buffer })) ∨
    ∃ b, s.container.blocks[s.container.blockIndex]? = some b ∧
      ((∃ p, brokenPremise? (s.container.launchOf b) s = some p ∧ o = .refused (.launchRefused p)) ∨
        ∃ t, start (s.container.launchOf b) s = .ok t ∧
          o = .next (t.withContainer { s.container with phase := .decoding })) := by
  subst h
  unfold nextBlockStep
  cases hb : s.container.blocks[s.container.blockIndex]? with
  | none => exact .inl ⟨rfl, rfl⟩
  | some b =>
    refine .inr ⟨b, rfl, ?_⟩
    cases hp : brokenPremise? (s.container.launchOf b) s with
    | some p => exact .inl ⟨p, rfl, by simp [start, hp]⟩
    | none =>
      refine .inr ⟨_, (start_ok_iff _ _ _).2 ⟨hp, rfl⟩, ?_⟩
      simp [start, hp]

end Sys2Proof.Machine
end

