-- ==== Sys2Proof/Laws/PerInstr.lean ====
section
/-! SUPPORT. The family of statements made instruction by instruction: a well-formed command's encoding
has at least one bit and fits the length the command has (30_encoding.md R84, R86). -/

namespace Sys2Proof.Laws

/-- The encoding of a command that is well formed for an accepted table fits its length. -/
def EncodingFits.Statement (i : Instr) : Prop :=
  ∀ t : CodeTable, t.wellFormed = true → i.wellFormed t = true →
    1 ≤ i.bitLength ∧ i.encode < 2 ^ i.bitLength

/-- An entry of an accepted table has a code of at least one bit, below `2^codeLen`
(41_code_tables.md R141 CT-LEN, CT-CODE). -/
theorem entry_code_fits {t : CodeTable} {e : CodeTableEntry} (w : t.wellFormed = true)
    (h : e ∈ t.entries) : 1 ≤ e.codeLen.toNat ∧ e.code.toNat < 2 ^ e.codeLen.toNat := by
  simp only [CodeTable.wellFormed, Bool.and_eq_true, CodeTable.hasLengths, CodeTable.hasCodes,
    List.all_eq_true, decide_eq_true_eq] at w
  exact ⟨(w.1.1.1.2 e h).1, w.1.1.2 e h⟩

/-- A field placed above a value of `a` bits stays within the sum of the lengths. -/
theorem field_above_lt {a b v x : Nat} (hv : v < 2 ^ a) (hx : x < 2 ^ b) :
    v + 2 ^ a * x < 2 ^ (a + b) := by
  calc v + 2 ^ a * x < 2 ^ a + 2 ^ a * x := Nat.add_lt_add_right hv _
    _ = 2 ^ a * (x + 1) := by ring
    _ ≤ 2 ^ a * 2 ^ b := Nat.mul_le_mul_left _ hx
    _ = 2 ^ (a + b) := (Nat.pow_add 2 a b).symm

theorem EncodingFits.lit (e : CodeTableEntry) : EncodingFits.Statement (.lit e) := by
  intro t w h
  simp only [Instr.wellFormed, Bool.and_eq_true, decide_eq_true_eq] at h
  exact entry_code_fits w h.1

theorem EncodingFits.raw (e : CodeTableEntry) (x : Nat) : EncodingFits.Statement (.raw e x) := by
  intro t w h
  simp only [Instr.wellFormed, Bool.and_eq_true, decide_eq_true_eq] at h
  have hc := entry_code_fits w h.1.1
  exact ⟨Nat.le_add_right_of_le hc.1, field_above_lt hc.2 h.2⟩

theorem EncodingFits.matchCopy (e : CodeTableEntry) (x y : Nat) :
    EncodingFits.Statement (.matchCopy e x y) := by
  intro t w h
  simp only [Instr.wellFormed, Bool.and_eq_true, decide_eq_true_eq] at h
  have hc := entry_code_fits w h.1.1.1
  refine ⟨Nat.le_add_right_of_le (Nat.le_add_right_of_le hc.1), ?_⟩
  have := field_above_lt hc.2 (field_above_lt h.1.2 h.2)
  rwa [← Nat.add_assoc] at this

end Sys2Proof.Laws
end

