-- ==== Sys2Proof/Tests/Slice0.lean ====
section
/-! SUPPORT. Tests: expected values from 95_test_vectors.md and from words written out by hand, and for
each obligation with hypotheses a theorem whose name begins `witness_` that meets them all. -/

namespace Sys2Proof.Tests

open Sys2Proof Sys2Proof.Machine

set_option Elab.async false

/-! ### Helpers -/

/-- An outcome is a next state with the given property. -/
def answers (p : State → Bool) : Host.Outcome State Fault Refusal → Bool
  | .next t => p t
  | .fault _ => false
  | .refused _ => false

theorem next_of_answers {p : State → Bool} {o : Host.Outcome State Fault Refusal}
    (h : answers p o = true) : ∃ t, o = .next t ∧ p t = true := by
  cases o with
  | next t => exact ⟨t, rfl, h⟩
  | fault f => cases h
  | refused r => cases h

/-- The command a state decodes, with the given property. -/
def fetches (p : Instr → Bool) (s : State) : Bool :=
  match fetch s with
  | .ok i => p i
  | .error _ => false

theorem instr_of_fetches {p : Instr → Bool} {s : State} (h : fetches p s = true) :
    ∃ i, fetch s = .ok i ∧ p i = true := by
  unfold fetches at h
  split at h
  · next i hi => exact ⟨i, hi, h⟩
  · cases h

/-- The state after at most `n` steps; a stop keeps the state. -/
def after : Nat → State → State
  | 0, s => s
  | n + 1, s =>
    match step s with
    | .next t => after n t
    | .fault _ => s
    | .refused _ => s

/-- The machine with EXCAT and the default LITERAL_START, a file that is one block, and a window of the
given capacity, before its START. -/
def beforeStart (block : List Byte) (window : Nat) : State :=
  { State.powerUp excat [] with
    file := FileImage.ofBytes block
    container :=
      { phase := .decoding
        totalUncompressedSize := window
        blocks := [{ start := 0, stop := block.length }]
        blockIndex := 0
        writeCursor := 0 } }

/-- The launch of that block. -/
def launchOfBlock (block : List Byte) (window : Nat) : Launch :=
  { inBase := 0, inLen := block.length, windowBase := 0, windowCapacity := window }

/-- That machine after START. -/
def started (block : List Byte) (window : Nat) : State :=
  (beforeStart block window).withEngine
    (Engine.started (launchOfBlock block window)
      (((beforeStart block window).withEngine
        ((beforeStart block window).engine.launched (launchOfBlock block window))).fetchWord 0))

/-- The block of program P1 (95_test_vectors.md section 3). -/
def p1 : List Byte := [0x04, 0x00, 0xFC, 0x3F, 0, 0, 0, 0, 0x44, 0x41, 0x54, 0x41]

/-- The block of program P2. -/
def p2 : List Byte := [0x04, 0x00, 0xFA, 0x3F, 0xA0, 0x21, 0x00, 0x00, 0xAB]

/-- The block of program P3. -/
def p3 : List Byte := [0x04, 0x00, 0xF6, 0x3F, 0x71, 0xD1, 0x11, 0x08, 0x41, 0x42, 0x78, 0x79, 0x7A]

/-- The block of V-RAW-4, whose first command is a RAW past the block's end. -/
def rawTruncated : List Byte := [0x04, 0x00, 0xF8, 0x3F, 0x44, 0, 0, 0, 0x58, 0x59]

/-- The block of V-RAW-4 with one more literal byte: its RAW completes. -/
def rawComplete : List Byte := rawTruncated ++ [0x5A]

/-- The block of V-MA-4, whose first command is a MATCH that reads before the window. -/
def matchBad : List Byte := [0x04, 0x00, 0xFD, 0x3F, 0x14, 0, 0, 0]

/-- At its first DECODE: the LIT of P1. -/
def litState : State := after 2 (started p1 4)

/-- At the DECODE of P2's MATCH. -/
def matchState : State := after 4 (started p2 6)

/-- At the DECODE of P2's RAW, the block full. -/
def fullState : State := after 5 (started p2 6)

/-- At the DECODE of a RAW that copies three bytes. -/
def rawState : State := after 2 (started rawComplete 8)

/-- At the first DECODE of a block whose literal cursor starts past its end. -/
def pastEndState : State := after 2 (started [0x09, 0, 0xFC, 0x3F, 0, 0, 0, 0] 4)

/-- A state with another count of consumed bits. -/
def withPending (n : Nat) (s : State) : State := s.setPending n

/-- EXCAT's entry `k`. -/
def ex (k : Nat) : CodeTableEntry := excatEntries.getD k (excatEntry 0 0 .copyLiteralByte 0 0 0 0)

/-- The header of the spec's file fixtures with a total and an offset table (95_test_vectors.md F1). -/
def header (total : Nat) (table : List Nat) : List Byte :=
  [0x05, 0, 0x10, 0] ++ signatureBytes ++ leBytes 4 total ++ [0x03, 0, 0, 0] ++ table.flatMap (leBytes 4)

/-- File F1. -/
def f1 : List Byte := header 4 [0x1C, 0x28] ++ p1

/-- The machine that has just been given a file. -/
def given (bytes : List Byte) : State := (after 1 (State.powerUp excat [])).submit bytes

/-- The invariant as a check that evaluates. -/
def invHolds (s : State) : Bool :=
  decide (s.file.bytes.wf = true ∧ s.buf.wf = true) && decide s.engine.Inv
    && decide (s.store = buildStore (catalogOf s.store))
    && decide (s.container.phase ≠ .powerUp → Catalog.wellFormed (catalogOf s.store) = true)
    && decide (s.engine.phase.running → s.container.phase = .decoding)
    && decide (s.container.phase = .decoding → s.LaunchInv)
    && decide (s.container.phase = .nextBlock ∨ s.container.phase = .decoding → s.BlocksInv)
    && decide (s.engine.phase.pastSetup → s.ShiftInv)

theorem inv_of_check {s : State} (h : invHolds s = true) : s.Inv := by
  simp only [invHolds, Bool.and_eq_true, decide_eq_true_eq] at h
  obtain ⟨⟨⟨⟨⟨⟨⟨h₁, h₂⟩, h₃⟩, h₄⟩, h₅⟩, h₆⟩, h₇⟩, h₈⟩ := h
  exact ⟨h₁, h₂, h₃, h₄, h₅, h₆, h₇, h₈⟩

theorem inv_matchState : matchState.Inv := inv_of_check (by decide +kernel)

theorem inv_started : (started p1 4).Inv := inv_of_check (by decide +kernel)

/-! ### Well-formedness: each check refuses a term that breaks it (41_code_tables.md R141, V-CT-3) -/

/-- EXCAT with the entries of table 0 replaced. -/
def excatWith (es : List CodeTableEntry) : Catalog :=
  { excatTable 0 with entries := es } :: excat.drop 1

theorem test_excat_accepted : Catalog.defect? excat = none := by decide +kernel

theorem test_refuses_three_tables : Catalog.defect? (excat.drop 1) = some .ctCount := by decide +kernel

theorem test_refuses_tenth_entry :
    Catalog.defect? (excatWith (excatEntries ++ [ex 8])) = some .ctCount := by decide +kernel

theorem test_refuses_length_0 :
    Catalog.defect? (excatWith (excatEntries.set 0 { ex 0 with codeLen := 0 })) = some .ctLen := by
  decide +kernel

theorem test_refuses_length_17 :
    Catalog.defect? (excatWith (excatEntries.set 8 { ex 8 with codeLen := 17 })) = some .ctLen := by
  decide +kernel

theorem test_refuses_wide_code :
    Catalog.defect? (excatWith (excatEntries.set 0 { ex 0 with code := 4 })) = some .ctCode := by
  decide +kernel

theorem test_refuses_ambiguous_index :
    Catalog.defect? (excatWith (excatEntries.set 1 { ex 1 with code := 4 })) = some .ctComplete := by
  decide +kernel

theorem test_refuses_unknown_kind :
    Catalog.defect? (excatWith (excatEntries.set 3 { ex 3 with cmd := none })) = some .ctKind := by
  decide +kernel

theorem test_instr_refuses_foreign_entry :
    Instr.wellFormed (excatTable 0) (.lit { ex 0 with code := 1 }) = false := by decide +kernel

theorem test_instr_refuses_wrong_kind :
    Instr.wellFormed (excatTable 0) (.lit (ex 1)) = false ∧
      Instr.wellFormed (excatTable 0) (.raw (ex 0) 0) = false ∧
      Instr.wellFormed (excatTable 0) (.matchCopy (ex 1) 0 0) = false := by decide +kernel

theorem test_instr_refuses_wide_field :
    Instr.wellFormed (excatTable 0) (.raw (ex 1) 4) = false ∧
      Instr.wellFormed (excatTable 0) (.matchCopy (ex 3) 4 0) = false ∧
      Instr.wellFormed (excatTable 0) (.matchCopy (ex 3) 3 16) = false := by decide +kernel

/-! ### Decode: words written out bit by bit from 30_encoding.md R84 and EXCAT's rows (R149) -/

/-- 0111 above zeros: LIT by entry 7. -/
theorem test_decode_lit :
    decodeBytes (TableStore.build (excatTable 0)) [0x07] = .ok (.lit (ex 7), 0) := by decide +kernel

/-- Code 0011, above it extraLen 1001: RAW by entry 5. -/
theorem test_decode_raw :
    decodeBytes (TableStore.build (excatTable 0)) [0x93] = .ok (.raw (ex 5) 9, 0) := by decide +kernel

/-- Code 010, extraLen 11, extraOff 0000, as P2 lists the bits: MATCH by entry 3. -/
theorem test_decode_match :
    decodeBytes (TableStore.build (excatTable 0)) [0x1A, 0x00] = .ok (.matchCopy (ex 3) 3 0, 0) := by
  decide +kernel

/-- Code 1111, extraLen 10001, extraOff 1000000001: MATCH by entry 8, nothing left. -/
theorem test_decode_match_wide :
    decodeBytes (TableStore.build (excatTable 0)) [0x1F, 0x03, 0x04] =
      .ok (.matchCopy (ex 8) 17 0x201, 0) := by decide +kernel

/-- The programs' block bytes (95_test_vectors.md section 3). -/
theorem test_assemble_p3 :
    BlockSource.assemble
      { table := 1
        commands := [.lit (ex 0), .lit (ex 7), .raw (ex 1) 2, .matchCopy (ex 4) 1 2, .raw (ex 1) 0]
        literals := [0x41, 0x42, 0x78, 0x79, 0x7A], capacity := 10 } = p3 := by decide +kernel

theorem test_assemble_p2 :
    BlockSource.assemble
      { table := 0, commands := [.lit (ex 0), .matchCopy (ex 3) 3 0, .raw (ex 1) 0]
        literals := [0xAB], capacity := 6 } = p2 := by decide +kernel

/-- 41_code_tables.md R150. -/
theorem test_excat_index :
    buildIndex excatEntries =
      [0, 1, 3, 5, 0, 2, 4, 7, 0, 1, 3, 6, 0, 2, 4, 8].map some := by decide +kernel

/-- V-CT-2. -/
theorem test_excat_offsetShift : (buildStore excat).map (·.offsetShift) = [0, 1, 0, 0] := by
  decide +kernel

/-- The three rows of spec/opcode_table.json. -/
theorem test_decodeTableWord :
    decodeTableWord 8 0 = some (.lit (ex 0)) ∧ decodeTableWord 8 1 = some (.raw (ex 1) 0) ∧
      decodeTableWord 8 2 = some (.matchCopy (ex 2) 0 0) ∧ decodeTableWord 8 3 = none := by
  decide +kernel

/-- Each row's word, placed after reset, is the command the next step runs. -/
theorem test_withFetchWord :
    fetch (State.reset.withFetchWord 8 0) = .ok (.lit (ex 0)) ∧
      fetch (State.reset.withFetchWord 8 1) = .ok (.raw (ex 1) 0) ∧
      fetch (State.reset.withFetchWord 8 2) = .ok (.matchCopy (ex 2) 0 0) := by decide +kernel

/-- LIT and RAW of those words write the block's one byte; the MATCH has nothing to copy from. -/
theorem test_withFetchWord_step :
    answers (fun t => decide (t.engine.written = 1)) (step (State.reset.withFetchWord 8 0)) = true ∧
      answers (fun t => decide (t.engine.written = 1)) (step (State.reset.withFetchWord 8 1)) = true ∧
      answers (fun t => decide (t.engine.status =
        { kind := .invalidBackReference, info := .backReference 0 1 }))
          (step (State.reset.withFetchWord 8 2)) = true := by decide +kernel

/-! ### Bit reader -/

/-- The words of V-BR-1's block. -/
def words : Nat → Word
  | 0 => 0xA23F6CB5
  | 4 => 0x44332211
  | 8 => 0x88776655
  | _ => 0

/-- The reader after START in V-BR-1. -/
def reader0 : BitReader := { word := 0xA23F6CB5, bitsUsed := 0, remainder := 0, fetchPtr := 4 }

/-- V-BR-1, its first two requests. -/
theorem test_next_fresh_then_partial :
    reader0.next words 3 =
        .ok (0xA0000000, { word := 0x44332211, bitsUsed := 3, remainder := 0xA23F6CB0, fetchPtr := 8 }) ∧
      BitReader.next words 13
          { word := 0x44332211, bitsUsed := 3, remainder := 0xA23F6CB0, fetchPtr := 8 } =
        .ok (0x6CB00000,
          { word := 0x44332211, bitsUsed := 16, remainder := 0xA23F0000, fetchPtr := 8 }) := by
  decide +kernel

/-- V-BR-2, its second request, which crosses a word. -/
theorem test_next_crossing :
    BitReader.next words 20 { word := 0x44332211, bitsUsed := 20, remainder := 0xA2300000, fetchPtr := 8 } =
      .ok (0x11A23000,
        { word := 0x88776655, bitsUsed := 8, remainder := 0x44332200, fetchPtr := 12 }) := by
  decide +kernel

/-- V-BR-3. -/
theorem test_next_refuses_0_and_33 :
    reader0.next words 0 = .error { kind := .invalidBitRequest, info := .bitRequest 0 4 } ∧
      reader0.next words 33 = .error { kind := .invalidBitRequest, info := .bitRequest 33 4 } := by
  decide +kernel

/-- V-BR-4: the straddling word is zero-filled. -/
theorem test_fetchWord_zero_filled :
    (started [1, 2, 3, 4, 5, 6] 4).fetchWord 4 = 0x00000605 := by decide +kernel

/-! ### Steps -/

/-- V-SU-4: SETUP of P3. -/
theorem test_setup_p3 :
    answers (fun t => decide (t.engine.tableSel = 1 ∧ t.engine.acc = 0x0204745C ∧
      t.engine.offsetShift = 1 ∧ t.engine.inPtr = 8 ∧ t.engine.br =
        { word := 0x79784241, bitsUsed := 0, remainder := 0x3FF60000, fetchPtr := 12 }))
      (step (started p3 0x4000)) = true := by decide +kernel

/-- V-LIT-1. -/
theorem test_lit_p1 :
    answers (fun t => decide (t.engine.pendingBits = 4 ∧ t.buf.read 0 = 0x44 ∧ t.engine.written = 1 ∧
      t.engine.inPtr = 9)) (step litState) = true := by decide +kernel

/-- V-LIT-3: the block is full. -/
theorem test_lit_overrun :
    answers (fun t => decide (t.engine.status = { kind := .capacityOverrun, info := .overrun 4 4 }))
      (step (after 5 (started [0x04, 0x00, 0xFC, 0x3F, 0x50, 0, 0, 0, 0x5A] 0x4000))) = true := by
  decide +kernel

/-- V-RAW-4. -/
theorem test_raw_truncated :
    answers (fun t => decide (t.engine.status =
        { kind := .truncatedBlock, info := .truncated 8 3 10 } ∧ t.engine.written = 0))
      (step (after 2 (started rawTruncated 8))) = true := by decide +kernel

/-- P2, step 3: the clamped RAW. A RAW of no byte from past the block's end goes to CHECK too (R171's
corner cases, R278). -/
theorem test_raw_p2 :
    answers (fun t => decide (t.engine.acc = 0x002AC000 ∧ t.engine.pendingBits = 2 ∧
      t.engine.br = { word := 0, bitsUsed := 16, remainder := 0, fetchPtr := 16 } ∧
      t.engine.phase = .check)) (step fullState) = true ∧
    answers (fun t => decide (t.engine.phase = .check ∧ t.engine.written = 0 ∧ t.engine.inPtr = 13))
      (exec (.raw { ex 1 with lenBase := 0 } 0) pastEndState) = true := by decide +kernel

/-- P2, step 2: the run. -/
theorem test_match_p2 :
    answers (fun t => decide (t.buf.slice 0 7 = [0xAB, 0xAB, 0xAB, 0xAB, 0xAB, 0xAB, 0] ∧
      t.engine.acc = 0x01580001 ∧ t.engine.pendingBits = 6)) (step matchState) = true := by
  decide +kernel

/-- V-MA-4. -/
theorem test_match_bad_reference :
    answers (fun t => decide (t.engine.status =
        { kind := .invalidBackReference, info := .backReference 0 1 }))
      (step (after 2 (started matchBad 0x4000))) = true := by decide +kernel

/-- L1-2: version 4. -/
theorem test_header_version :
    (FileImage.ofBytes (f1.set 0 4)).parse.toOption = none ∧
      (FileImage.ofBytes (f1.set 0 4)).headerFault? = some
        { kind := .invalidHeader
          info := .header .version (.equals (.num 5)) (some (.num 4)) } := by decide +kernel

/-- V-H-1: the first 10 bytes of F1. -/
theorem test_header_short :
    (FileImage.ofBytes (f1.take 10)).headerFault? = some
      { kind := .invalidHeader
        info := .header .signature (.equals (.text signatureBytes)) none } := by decide +kernel

/-- F1's block. -/
theorem test_f1_blocks :
    (FileImage.ofBytes f1).parse.toOption = some [{ start := 0x1C, stop := 0x28 }] := by decide +kernel

/-- L1-7, file F0. -/
theorem test_f0 : (after 2 (given (header 5 [0x18]))).output.map (·.toOption) =
    some (some [0, 0, 0, 0, 0]) := by decide +kernel

/-! ### Witnesses: states and operands that meet the obligations' hypotheses -/

theorem witness_DecodeInvertsEncode :
    (excatTable 0).wellFormed = true ∧
      Instr.wellFormed (excatTable 0) (.lit (ex 7)) = true ∧
      Instr.wellFormed (excatTable 0) (.raw (ex 5) 15) = true ∧
      Instr.wellFormed (excatTable 0) (.matchCopy (ex 8) 31 1023) = true := by decide +kernel

theorem witness_IndexSlotHoldsTheMatchingEntry :
    (excatTable 0).wellFormed = true ∧ 15 < 2 ^ maxLenOf (excatTable 0).entries ∧
      (excatTable 0).entries[8]? = some (ex 8) ∧
      15 % 2 ^ (ex 8).codeLen.toNat = (ex 8).code.toNat := by decide +kernel

theorem witness_NoPatternIsIllegal : Catalog.wellFormed excat = true := by decide +kernel

/-- The last byte of a word that ends at L, and the first that does not. -/
theorem witness_FetchWordZeroFills :
    3 < 4 ∧ 8 + 3 < (started p1 4).engine.inLen ∧ ¬(12 + 0 < (started p1 4).engine.inLen) := by
  decide +kernel

theorem witness_NextOutOfRangeRaises : ((0 < 1 ∨ 32 < 0) ∧ (33 < 1 ∨ 32 < 33) : Prop) := by decide

/-- A reader with `u` delivered bits of an all-ones word. -/
def readerAt (u : Nat) : BitReader :=
  { word := 0xA23F6CB5, bitsUsed := u, remainder := (0xFFFFFFFF : Word) <<< u, fetchPtr := 8 }

/-- Counts and readers at the ends of each branch. -/
theorem witness_NextTakesItsBranches :
    (readerAt 0).bitsUsed = 0 ∧ (1 ≤ 32 ∧ 1 ≤ 31) ∧
      (0 < (readerAt 31).bitsUsed ∧ 1 = 32 - (readerAt 31).bitsUsed) ∧
      (0 < (readerAt 1).bitsUsed ∧ 30 < 32 - (readerAt 1).bitsUsed) ∧
      (0 < (readerAt 1).bitsUsed ∧ 32 - (readerAt 1).bitsUsed < 32) ∧
      (readerAt 31).bitsUsed < 32 := by decide +kernel

theorem witness_NextResultLowBitsZero :
    (readerAt 31).Inv ∧ ((readerAt 31).next words 32).toOption.isSome = true := by decide +kernel

theorem witness_ReaderInvariantKeptByNext :
    (readerAt 1).Inv ∧ ((readerAt 1).next words 30).toOption.isSome = true ∧
      (readerAt 0).bitsUsed = 0 ∧ ((readerAt 0).next words 5).toOption.isSome = true := by
  decide +kernel

/-- A state and one that differs from it in the buffer alone. -/
theorem witness_NextTouchesOnlyTheReader :
    ((started p1 4).nextBits 32).toOption.isSome = true ∧
      ((started p1 4).withBuf [(0, 1)]).engine.br = (started p1 4).engine.br ∧
      ∀ a, ((started p1 4).withBuf [(0, 1)]).fetchWord a = (started p1 4).fetchWord a :=
  ⟨by decide +kernel, rfl, fun _ => rfl⟩

theorem start_started (block : List Byte) (window : Nat)
    (h : brokenPremise? (launchOfBlock block window) (beforeStart block window) = none) :
    start (launchOfBlock block window) (beforeStart block window) = .ok (started block window) := by
  unfold start
  rw [h]
  rfl

theorem witness_RequestsDeliverTheStream :
    start (launchOfBlock p1 4) (beforeStart p1 4) = .ok (started p1 4) ∧
      ∀ n ∈ [1, 32], 1 ≤ n ∧ n ≤ 32 :=
  ⟨start_started p1 4 (by decide +kernel), by decide⟩

theorem witness_ReaderStaysOneWordAhead :
    start (launchOfBlock p1 4) (beforeStart p1 4) = .ok (started p1 4) ∧
      (∀ n ∈ [1, 31, 32], 1 ≤ n ∧ n ≤ 32) ∧
      ((started p1 4).requestAll [1, 31, 32]).toOption.isSome = true :=
  ⟨start_started p1 4 (by decide +kernel), by decide, by decide +kernel⟩

/-- The greatest window, and IN and OUT that end where file and buffer end. -/
theorem witness_StartLeavesTheStartState :
    let s := beforeStart p1 0x4000;
    let l := launchOfBlock p1 0x4000;
    s.engine.phase = .idle ∧ l.windowCapacity ≤ 0x4000 ∧ l.inBase + l.inLen ≤ s.file.len ∧
      l.windowBase + l.windowCapacity ≤ s.container.totalUncompressedSize := by decide +kernel

/-- Each clause just past its bound. -/
theorem witness_StartRefusesABrokenPremise :
    let s := beforeStart p1 4;
    (started p1 4).engine.phase.running ∧ ¬s.engine.phase.running ∧
      0x4000 < ({ launchOfBlock p1 4 with windowCapacity := 0x4001 } : Launch).windowCapacity ∧
      s.file.len < ({ launchOfBlock p1 4 with inLen := 13 } : Launch).inLen ∧
      s.container.totalUncompressedSize <
        ({ launchOfBlock p1 4 with windowCapacity := 5 } : Launch).windowCapacity := by decide +kernel

/-- A block that starts, its capacity field, and the window: 0x4001, 0x3FFB in a window of 4, 0x3FFC in
a window of 4, 0x4000 in a window of no byte (V-SU-1 to V-SU-3). -/
def capFieldOf (block : List Byte) (window : Nat) : Nat :=
  ((started block window).fetchByte 3 ++ (started block window).fetchByte 2 : Half).toNat

theorem witness_SetupReadsTheBlockHeader :
    (start (launchOfBlock [4, 0, 1, 0x40] 4) (beforeStart [4, 0, 1, 0x40] 4) =
        .ok (started [4, 0, 1, 0x40] 4) ∧ capFieldOf [4, 0, 1, 0x40] 4 = 0x4001) ∧
    (start (launchOfBlock [4, 0, 0xFB, 0x3F] 4) (beforeStart [4, 0, 0xFB, 0x3F] 4) =
        .ok (started [4, 0, 0xFB, 0x3F] 4) ∧ 4 + 1 = 0x4000 - capFieldOf [4, 0, 0xFB, 0x3F] 4) ∧
    (start (launchOfBlock p1 4) (beforeStart p1 4) = .ok (started p1 4) ∧
      0x4000 - capFieldOf p1 4 = 4 ∧ (selectedTable? (started p1 4).store 0).isSome = true) ∧
    (start (launchOfBlock [4, 0, 0, 0x40] 0) (beforeStart [4, 0, 0, 0x40] 0) =
        .ok (started [4, 0, 0, 0x40] 0) ∧ capFieldOf [4, 0, 0, 0x40] 0 = 0x4000) :=
  ⟨⟨start_started _ _ (by decide +kernel), by decide +kernel⟩,
    ⟨start_started _ _ (by decide +kernel), by decide +kernel⟩,
    ⟨start_started _ _ (by decide +kernel), by decide +kernel, by decide +kernel⟩,
    ⟨start_started _ _ (by decide +kernel), by decide +kernel⟩⟩

theorem witness_CheckTestsForTheEnd :
    (after 1 (started p1 4)).engine.phase = .check ∧
      ∃ t, step litState = .next t ∧ decide (t.engine.phase = .check) = true :=
  ⟨by decide +kernel, next_of_answers (by decide +kernel)⟩

/-- A starved lookup as in V-IB-1: two live bits, of which the code's third bit is a vacated zero. -/
def starvedState : State := rawState.withEngine (rawState.engine.withAcc 1 30)

/-- Each command; a RAW whose refill of two bits answers; a lookup with fewer live bits than its code. -/
theorem witness_StepRunsTheDecodedCommand :
    (rawState.engine.br.next rawState.fetchWord
      (rawState.engine.pendingBits + (ex 1).codeLen.toNat)).toOption.isSome = true ∧
    (starvedState.engine.phase = .decode ∧ fetch starvedState = .ok (.raw (ex 1) 0)) ∧
    (litState.engine.phase = .decode ∧ fetch litState = .ok (.lit (ex 0))) ∧
      (rawState.engine.phase = .decode ∧ fetch rawState = .ok (.raw (ex 1) 2)) ∧
      (matchState.engine.phase = .decode ∧ fetch matchState = .ok (.matchCopy (ex 3) 3 0)) := by
  decide +kernel

/-- The block full; the cursor at L; the last byte of block, window and capacity. -/
theorem witness_LitFollowsItsRule :
    fullState.engine.written = fullState.engine.logicalCapacity ∧
      (let e := (after 2 (started [4, 0, 0xFC, 0x3F, 0, 0, 0, 0] 4)).engine;
        e.written ≠ e.logicalCapacity ∧ e.inLen = e.inPtr) ∧
      (let e := (after 2 (started [4, 0, 0xFF, 0x3F, 0, 0, 0, 0, 0x44] 1)).engine;
        e.written ≠ e.logicalCapacity ∧ e.inPtr + 1 = e.inLen ∧ e.written + 1 = e.windowCapacity) := by
  decide +kernel

/-- A RAW entry that copies no byte. -/
def emptyRaw : CodeTableEntry := { ex 1 with lenBase := 0 }

/-- Counts 33, 32 and 1; a run one byte too long; one that ends at L; a clamped run of no byte; a run of
no byte from past L. -/
theorem witness_RawFollowsItsRule :
    (32 < (withPending 30 rawState).engine.pendingBits + (ex 1).codeLen.toNat ∧
      (withPending 29 rawState).engine.pendingBits + (ex 1).codeLen.toNat = 32 ∧
      (withPending 0 rawState).engine.pendingBits + (1 : BitVec 8).toNat = 1) ∧
    (let e := (after 2 (started rawTruncated 8)).engine;
      0 < min ((ex 1).lenBase.toNat + 2) (e.logicalCapacity - e.written) ∧
      e.inLen + 1 = e.inPtr + min ((ex 1).lenBase.toNat + 2) (e.logicalCapacity - e.written)) ∧
    (let e := rawState.engine;
      e.inPtr + min ((ex 1).lenBase.toNat + 2) (e.logicalCapacity - e.written) = e.inLen ∧
        e.written + min ((ex 1).lenBase.toNat + 2) (e.logicalCapacity - e.written) ≤ e.windowCapacity) ∧
    (let e := fullState.engine;
      e.inPtr = e.inLen ∧ min ((ex 1).lenBase.toNat + 0) (e.logicalCapacity - e.written) = 0) ∧
    (let e := pastEndState.engine;
      e.inLen < e.inPtr ∧ min (emptyRaw.lenBase.toNat + 0) (e.logicalCapacity - e.written) = 0) := by
  decide +kernel

/-- Counts 33 and 32; an offset one byte before the window; the greatest offset; a copy of no byte. -/
theorem witness_MatchFollowsItsRule :
    (32 < (withPending 30 matchState).engine.pendingBits + (ex 3).codeLen.toNat ∧
      (withPending 29 matchState).engine.pendingBits + (ex 3).codeLen.toNat = 32) ∧
    (let e := matchState.engine;
      0 < min ((ex 3).lenBase.toNat + 3) (e.logicalCapacity - e.written) ∧
        e.written + 1 = (ex 3).offsetBase.toNat + 1 * 2 ^ e.offsetShift ∧
        e.written = (ex 3).offsetBase.toNat + 0 * 2 ^ e.offsetShift ∧
        e.written + min ((ex 3).lenBase.toNat + 3) (e.logicalCapacity - e.written) = e.windowCapacity) ∧
    (let e := fullState.engine;
      min ((ex 3).lenBase.toNat + 3) (e.logicalCapacity - e.written) = 0) := by decide +kernel

theorem witness_LiteralBytesLandAtWritten :
    litState.buf.wf = true ∧ rawState.buf.wf = true ∧
      (∃ t, exec (.lit (ex 0)) litState = .next t ∧ decide (t.engine.phase = .check) = true) ∧
      ∃ t, exec (.raw (ex 1) 2) rawState = .next t ∧ decide (t.engine.phase = .check) = true :=
  ⟨by decide +kernel, by decide +kernel, next_of_answers (by decide +kernel),
    next_of_answers (by decide +kernel)⟩

theorem witness_MatchRepeatsItsSource :
    matchState.buf.wf = true ∧
      ∃ t, exec (.matchCopy (ex 3) 3 0) matchState = .next t ∧
        decide (t.engine.phase = .decode) = true :=
  ⟨by decide +kernel, next_of_answers (by decide +kernel)⟩

theorem witness_CommandsLeaveTheRestAlone :
    (∃ t, exec (.lit (ex 0)) litState = .next t ∧ decide (t.engine.phase ≠ .fault) = true) ∧
      (∃ t, exec (.raw (ex 1) 2) rawState = .next t ∧ decide (t.engine.phase ≠ .fault) = true) ∧
      ∃ t, exec (.matchCopy (ex 3) 3 0) matchState = .next t ∧
        decide (t.engine.phase ≠ .fault) = true :=
  ⟨next_of_answers (by decide +kernel), next_of_answers (by decide +kernel),
    next_of_answers (by decide +kernel)⟩

/-- A state whose window ends where the next byte would be written. -/
def narrow (s : State) : State :=
  s.withEngine { s.engine with windowCapacity := s.engine.written }

theorem witness_CopiesOutsideTheWindowStop :
    (let e := (narrow litState).engine;
      e.written ≠ e.logicalCapacity ∧ e.inPtr < e.inLen ∧ e.windowCapacity ≤ e.written) ∧
    (let e := (narrow rawState).engine;
      1 ≤ e.pendingBits + (ex 1).codeLen.toNat ∧ e.pendingBits + (ex 1).codeLen.toNat ≤ 32 ∧
        e.inPtr + e.clamp (copyLength (ex 1) 2) ≤ e.inLen ∧
        e.leavesWindow (e.clamp (copyLength (ex 1) 2))) ∧
    (let e := (narrow matchState).engine;
      1 ≤ e.pendingBits + (ex 3).codeLen.toNat ∧ e.pendingBits + (ex 3).codeLen.toNat ≤ 32 ∧
        0 < backOffsetOf (ex 3) e.offsetShift 0 ∧ backOffsetOf (ex 3) e.offsetShift 0 ≤ e.written ∧
        e.leavesWindow (e.clamp (copyLength (ex 3) 3))) := by decide +kernel

theorem witness_RawEndsAFilledBlock :
    fullState.Inv ∧ fullState.engine.phase = .decode ∧
      fullState.engine.written = fullState.engine.logicalCapacity ∧
      fetch fullState = .ok (.raw (ex 1) 0) ∧
      fullState.engine.pendingBits + (ex 1).codeLen.toNat ≤ 32 :=
  ⟨inv_of_check (by decide +kernel), by decide +kernel⟩

/-- Each command with each of its faults. -/
theorem witness_FaultingCommandWritesNoByte :
    (∃ t, exec (.lit (ex 0)) fullState = .next t ∧ decide (t.engine.phase = .fault) = true) ∧
      (∃ t, exec (.raw (ex 1) 3) rawState = .next t ∧ decide (t.engine.phase = .fault) = true) ∧
      ∃ t, exec (.matchCopy (ex 3) 3 1) matchState = .next t ∧
        decide (t.engine.phase = .fault) = true :=
  ⟨next_of_answers (by decide +kernel), next_of_answers (by decide +kernel),
    next_of_answers (by decide +kernel)⟩

theorem witness_FaultsComeInOrder :
    (∃ t, exec (.lit (ex 0)) (after 2 (started [4, 0, 0xFC, 0x3F, 0, 0, 0, 0] 4)) = .next t ∧
        decide (t.engine.phase = .fault) = true) ∧
      (∃ t, exec (.raw (ex 1) 3) (withPending 30 rawState) = .next t ∧
        decide (t.engine.phase = .fault) = true) ∧
      ∃ t, exec (.matchCopy (ex 3) 3 1) (withPending 30 matchState) = .next t ∧
        decide (t.engine.phase = .fault) = true :=
  ⟨next_of_answers (by decide +kernel), next_of_answers (by decide +kernel),
    next_of_answers (by decide +kernel)⟩

/-- A step in each phase. -/
theorem witness_PhaseTransitionsAreListed :
    (∃ t, step (State.powerUp excat []) = .next t ∧ true = true) ∧
      (∃ t, step (started p1 4) = .next t ∧ true = true) ∧
      (∃ t, step (after 1 (started p1 4)) = .next t ∧ true = true) ∧
      (∃ t, step matchState = .next t ∧ true = true) ∧
      (∃ t, step (after 2 (started [4, 0, 0, 0x40] 0)) = .next t ∧ true = true) ∧
      ∃ t, step (after 1 (started [4, 0, 1, 0x40] 0)) = .next t ∧ true = true :=
  ⟨next_of_answers (p := fun _ => true) (by decide +kernel),
    next_of_answers (p := fun _ => true) (by decide +kernel),
    next_of_answers (p := fun _ => true) (by decide +kernel),
    next_of_answers (p := fun _ => true) (by decide +kernel),
    next_of_answers (p := fun _ => true) (by decide +kernel),
    next_of_answers (p := fun _ => true) (by decide +kernel)⟩

/-- A step of a running engine, and one of a machine whose engine has faulted. -/
theorem witness_StatusIsSticky :
    (∃ t, step matchState = .next t ∧ decide (t.engine.phase = .decode) = true) ∧
      (after 3 (started matchBad 3)).engine.phase = .fault ∧
      ∃ t, step (after 3 (started matchBad 3)) = .next t ∧ true = true :=
  ⟨next_of_answers (by decide +kernel), by decide +kernel,
    next_of_answers (p := fun _ => true) (by decide +kernel)⟩

theorem witness_FaultEndsTheFile :
    (after 3 (started matchBad 3)).container.phase = .decoding ∧
      (after 3 (started matchBad 3)).engine.phase = .fault := by decide +kernel

theorem witness_StepKeepsTheInvariant :
    matchState.Inv ∧ ∃ t, step matchState = .next t ∧ invHolds t = true :=
  ⟨inv_matchState, next_of_answers (by decide +kernel)⟩

/-- A machine that awaits a file; the other three invariants hold of it for want of a block. -/
theorem witness_SubmitKeepsTheInvariant :
    (after 1 (State.powerUp excat [])).Inv ∧
      (after 1 (State.powerUp excat [])).container.phase = .awaitFile ∧
      (after 1 (State.powerUp excat [])).StreamInv ∧
      (after 1 (State.powerUp excat [])).CursorInv ∧ (after 1 (State.powerUp excat [])).PaddingInv :=
  ⟨inv_of_check (by decide +kernel), by decide +kernel, by decide +kernel,
    ⟨fun h => absurd h (by decide +kernel), fun h => absurd h (by decide +kernel)⟩,
    fun h => absurd h (by decide +kernel)⟩

theorem witness_OutputStaysInBounds :
    matchState.Inv ∧ matchState.engine.phase.running ∧ fetch matchState = .ok (.matchCopy (ex 3) 3 0) ∧
      ∃ t, step matchState = .next t ∧
        decide (t.engine.phase.pastSetup ∧ matchState.engine.written < t.engine.written) = true :=
  ⟨inv_matchState, by decide +kernel, by decide +kernel, next_of_answers (by decide +kernel)⟩

theorem witness_RunningEngineNeverStops :
    ((started p1 4).Inv ∧ (started p1 4).engine.phase.running) ∧
      (matchState.Inv ∧ matchState.engine.phase.running) :=
  ⟨⟨inv_started, by decide +kernel⟩, inv_matchState, by decide +kernel⟩

theorem witness_InputAndStoreAreReadOnly : ∃ t, step litState = .next t ∧ true = true :=
  next_of_answers (p := fun _ => true) (by decide +kernel)

/-- P2's machine with a file that goes on after the block, a buffer that differs beyond the bytes
written, and another container decoder. -/
def elsewhere : State :=
  { matchState with
    file := FileImage.ofBytes (p2 ++ [0x77])
    buf := matchState.buf.write 3 0x77
    container := Container.powerUp }

theorem witness_BlocksAreIndependent :
    matchState.Inv ∧ matchState.engine.phase.running ∧ elsewhere.buf.wf = true ∧
      elsewhere.engine = matchState.engine ∧ elsewhere.store = matchState.store ∧
      elsewhere.literalStart = matchState.literalStart ∧
      (∀ a, a < matchState.engine.inBase + matchState.engine.inLen →
        matchState.engine.inBase ≤ a → elsewhere.file.bytes.read a = matchState.file.bytes.read a) ∧
      (∀ j, j < matchState.engine.written →
        elsewhere.buf.read (matchState.engine.windowBase + j) =
          matchState.buf.read (matchState.engine.windowBase + j)) ∧
      ∃ t, step matchState = .next t ∧ true = true :=
  ⟨inv_matchState, by decide +kernel, by decide +kernel, rfl, rfl, rfl, by decide +kernel,
    by decide +kernel, next_of_answers (p := fun _ => true) (by decide +kernel)⟩

theorem witness_StepKeepsTheStreamPosition :
    (started p1 4).Inv ∧ (started p1 4).StreamInv ∧ matchState.Inv ∧ matchState.StreamInv ∧
      ∃ t, step matchState = .next t ∧ true = true :=
  ⟨inv_started, by decide +kernel, inv_matchState, by decide +kernel,
    next_of_answers (p := fun _ => true) (by decide +kernel)⟩

/-- The table P2 selects. -/
def p2Table : TableStore := TableStore.build (excatTable 0)

theorem witness_EngineDecodesTheBlockStream :
    matchState.Inv ∧ matchState.StreamInv ∧ matchState.engine.phase = .decode ∧
      selectedTable? matchState.store matchState.engine.tableSel = some p2Table ∧
      (decodeStream p2Table (matchState.blockStream >>> matchState.engine.streamPos)).toOption.map
        (·.1) = some (.matchCopy (ex 3) 3 0) ∧
      matchState.engine.pendingBits + (ex 3).codeLen.toNat ≤ 32 ∧
      (Instr.matchCopy (ex 3) 3 0).bitLength ≤ (ex 3).codeLen.toNat + 32 :=
  ⟨inv_matchState, by decide +kernel⟩

theorem witness_StreamPositionAdvances :
    ((started p1 4).Inv ∧ (started p1 4).StreamInv ∧ (started p1 4).engine.phase = .setup ∧
      ∃ t, step (started p1 4) = .next t ∧ decide (t.engine.phase = .check) = true) ∧
    (matchState.Inv ∧ matchState.StreamInv ∧ matchState.engine.phase = .decode ∧
      fetch matchState = .ok (.matchCopy (ex 3) 3 0) ∧
      matchState.engine.pendingBits + (ex 3).codeLen.toNat ≤ 32 ∧
      ∃ t, step matchState = .next t ∧ decide (t.engine.phase ≠ .fault) = true) :=
  ⟨⟨inv_started, by decide +kernel, by decide +kernel, next_of_answers (by decide +kernel)⟩,
    inv_matchState, by decide +kernel, by decide +kernel, by decide +kernel, by decide +kernel,
    next_of_answers (by decide +kernel)⟩

theorem witness_RefillPutsStreamBitsAbove :
    matchState.engine.br.Inv ∧ matchState.ReaderTracks ∧ matchState.engine.AccInv ∧
      matchState.refill.toOption.isSome = true := by decide +kernel

/-- A file too short for its signature, and a wrong signature (V-H-1, L1-2). -/
theorem witness_FirstWrongHeaderFieldIsReported :
    (FileImage.ofBytes (f1.take 10)).headerFault?.isSome = true ∧
      (FileImage.ofBytes (f1.set 0x0B 0x33)).headerFault?.isSome = true := by decide +kernel

/-- Two blocks, the second empty: both sides of the equivalence hold. -/
theorem witness_BlockRangesComeFromTheTable :
    (FileImage.ofBytes (header 4 [0x20, 0x24, 0x24] ++ [1, 2, 3, 4])).parse.toOption =
      some [{ start := 0x20, stop := 0x24 }, { start := 0x24, stop := 0x24 }] := by decide +kernel

/-- V-H-2, V-H-4, a table one entry past the file's end, and V-H-3, each at the bound of its case. -/
theorem witness_UnreachableTableEndIsUnsupported :
    (let f := FileImage.ofBytes (f1.take 0x17);
      f.headerFault? = none ∧ f.len < 0x18) ∧
    (let f := FileImage.ofBytes (header 4 [0x17]);
      f.headerFault? = none ∧ 0x18 ≤ f.len ∧ (f.le32 0x14).toNat < 0x18) ∧
    (let f := FileImage.ofBytes (header 4 [0x1C]);
      f.headerFault? = none ∧ 0x18 ≤ f.len ∧
        0x18 + 4 * ((f.len - 0x18) / 4) + 4 = (f.le32 0x14).toNat) ∧
    (let f := FileImage.ofBytes (header 4 [0x1A, 0]);
      f.headerFault? = none ∧ 0x18 ≤ (f.le32 0x14).toNat ∧
        (f.le32 0x14).toNat ≤ 0x18 + 4 * ((f.len - 0x18) / 4) ∧
        ((f.le32 0x14).toNat - 0x18) % 4 ≠ 0) := by decide +kernel

/-- Ranges of which the second decreases, and ranges of which the second passes the file's end. -/
def decreasing : List BlockRange := [{ start := 32, stop := 40 }, { start := 40, stop := 39 }]

def pastEnd : List BlockRange := [{ start := 32, stop := 40 }, { start := 40, stop := 41 }]

theorem witness_FirstBadRangeIsReported :
    (∀ j a, j < 1 → decreasing[j]? = some a → a.start ≤ a.stop ∧ a.stop ≤ 40) ∧
      (∀ j a, j < 1 → pastEnd[j]? = some a → a.start ≤ a.stop ∧ a.stop ≤ 40) ∧
      decreasing[1]? = some { start := 40, stop := 39 } ∧
      pastEnd[1]? = some { start := 40, stop := 41 } ∧ 39 < 40 ∧ 40 < 41 := by
  refine ⟨?_, ?_, rfl, rfl, by decide, by decide⟩ <;> intro j a hj ha <;> obtain rfl : j = 0 := by omega
  · cases ha; decide
  · cases ha; decide

/-- Files of two blocks of which the second range decreases (V-H-6), and passes the file's end (V-H-5). -/
theorem witness_FirstBadRangeOfAFile :
    (let f := FileImage.ofBytes (header 4 [0x20, 0x24, 0x23] ++ [1, 2, 3, 4]);
      f.headerFault? = none ∧ (f.le32 0x14).toNat = 0x18 + 4 * 2 ∧ (f.le32 0x14).toNat ≤ f.len ∧
        (f.le32 0x18).toNat = f.len ∧ (f.le32 0x1C).toNat + 1 = (f.le32 0x18).toNat) ∧
    (let f := FileImage.ofBytes (header 4 [0x20, 0x24, 0x25] ++ [1, 2, 3, 4]);
      f.headerFault? = none ∧ (f.le32 0x14).toNat = 0x18 + 4 * 2 ∧ (f.le32 0x18).toNat = f.len ∧
        (f.le32 0x1C).toNat = f.len + 1) := by decide +kernel

/-- A file without blocks, a file that fails and one with a block. -/
theorem witness_ZeroBlocksGiveZeroBytes :
    (given (f1.set 0 4)).container.phase = .checkFile ∧
    (given (f1.set 0 4)).file.parse.toOption = none ∧
    (given f1).file.parse.toOption = some [{ start := 0x1C, stop := 0x28 }] ∧
    let s := given (header 5 [0x18]);
    s.container.phase = .checkFile ∧ ¬s.engine.phase.running ∧ s.file.headerFault? = none ∧
      0x18 ≤ s.file.len ∧ (s.file.le32 0x14).toNat = 0x18 := by decide +kernel

theorem witness_NextBlockIsLaunchedAtTheCursor :
    (after 1 (given f1)).Inv ∧ (after 1 (given f1)).container.phase = .nextBlock ∧
      (after 1 (given f1)).container.blocks[(after 1 (given f1)).container.blockIndex]? =
        some { start := 0x1C, stop := 0x28 } :=
  ⟨inv_of_check (by decide +kernel), by decide +kernel⟩

/-- A block of no byte that has ended. -/
theorem witness_CursorIsRoundedUp :
    (after 2 (started [4, 0, 0, 0x40] 0)).Inv ∧
      (after 2 (started [4, 0, 0, 0x40] 0)).container.phase = .decoding ∧
      (after 2 (started [4, 0, 0, 0x40] 0)).engine.phase = .done :=
  ⟨inv_of_check (by decide +kernel), by decide +kernel⟩

/-- File F1 with a total one byte short of its block's capacity. -/
theorem witness_BlockLargerThanTheRoomFaults :
    let s := after 1 (given (header 3 [0x1C, 0x28] ++ p1));
    s.Inv ∧ s.container.phase = .nextBlock ∧
      s.container.blocks[s.container.blockIndex]? = some { start := 0x1C, stop := 0x28 } ∧
      s.file.capField { start := 0x1C, stop := 0x28 } = 0x3FFC ∧
      s.container.totalUncompressedSize - s.container.writeCursor + 1 = 0x4000 - 0x3FFC :=
  ⟨inv_of_check (by decide +kernel), by decide +kernel⟩

theorem witness_WindowBasesComeFromCapacityFields :
    (started p1 4).Inv ∧ (started p1 4).CursorInv ∧ ∃ t, step (started p1 4) = .next t ∧ true = true :=
  ⟨inv_started,
    ⟨fun _ => by decide +kernel, fun _ => ⟨{ start := 0, stop := 12 }, rfl, by decide +kernel⟩⟩,
    next_of_answers (p := fun _ => true) (by decide +kernel)⟩

/-- A machine whose file has no block left in turn. -/
def noBlockLeft : State := after 1 (given (header 2 [0x18]))

theorem witness_OutputHasTheTotalLength :
    (noBlockLeft.container.phase = .nextBlock ∧ ¬noBlockLeft.engine.phase.running ∧
      noBlockLeft.container.blocks.length ≤ noBlockLeft.container.blockIndex) ∧
    (after 1 noBlockLeft).output.map (·.toOption) = some (some [0, 0]) := by decide +kernel

theorem padding_noBlockLeft : noBlockLeft.PaddingInv := fun _ a _ =>
  congrArg (Memory.read · a) (show noBlockLeft.buf = [] by decide +kernel)

theorem padding_returned : (after 1 noBlockLeft).PaddingInv := fun _ a _ =>
  congrArg (Memory.read · a) (show (after 1 noBlockLeft).buf = [] by decide +kernel)

/-- A block due with nothing written, and a returned buffer of two bytes no block has written. -/
theorem witness_UnwrittenBytesStayZero :
    (noBlockLeft.Inv ∧ noBlockLeft.CursorInv ∧ noBlockLeft.PaddingInv ∧
      ∃ t, step noBlockLeft = .next t ∧ true = true) ∧
    (after 1 noBlockLeft).PaddingInv ∧
      (after 1 noBlockLeft).output.map (·.toOption) = some (some [0, 0]) ∧
      ¬(after 1 noBlockLeft).WrittenByABlock 1 :=
  ⟨⟨inv_of_check (by decide +kernel),
      ⟨fun _ => by decide +kernel, fun h => absurd h (by decide +kernel)⟩, padding_noBlockLeft,
      next_of_answers (p := fun _ => true) (by decide +kernel)⟩,
    padding_returned, by decide +kernel, by
      rintro (⟨k, b, hk, -⟩ | ⟨h, -⟩)
      · exact absurd hk (by
          rw [show (after 1 noBlockLeft).container.blockIndex = 0 by decide +kernel]; omega)
      · exact absurd h (by decide +kernel)⟩

theorem witness_ResultsAreReadOnlyAtTheEnd :
    ((after 3 (started matchBad 3)).engine.report).isSome = true := by decide +kernel

/-- Two instances in the halves of a buffer, each at a MATCH. -/
def pair : Cluster :=
  { limit := ⟨2, by decide⟩
    store := buildStore excat
    literalStart := []
    file := FileImage.ofBytes p2
    buf := [(0, 0xAB), (6, 0xCD)]
    container := matchState.container
    slots := [{ block := 0, engine := matchState.engine },
      { block := 1, engine := { matchState.engine with windowBase := 6 } }] }

/-- An outcome of the cluster is a next state. -/
def goesOn : Host.Outcome Cluster Fault Refusal → Bool
  | .next _ => true
  | .fault _ => false
  | .refused _ => false

theorem witness_InstancesDoNotInterfere :
    pair.buf.wf = true ∧ 0 ≠ 1 ∧
      pair.slots[0]? = some { block := 0, engine := matchState.engine } ∧
      pair.slots[1]? = some { block := 1, engine := { matchState.engine with windowBase := 6 } } ∧
      Engine.windowsDisjoint matchState.engine { matchState.engine with windowBase := 6 } ∧
      goesOn (pair.stepAt 0) = true ∧ goesOn (pair.stepAt 1) = true := by decide +kernel

/-- Two blocks of which the first has no capacity, so that both have the window at 0. -/
def sharedWindows : Cluster :=
  (after 1 (given (header 4 [0x20, 0x24, 0x28] ++ [4, 0, 0, 0x40] ++ [4, 0, 0xFC, 0x3F]))).cluster
    ⟨2, by decide⟩

/-- Files with two blocks of one byte each, the second in the second window. -/
def twoWindows : Cluster :=
  (after 1 (given (header 0x4001 [0x20, 0x24, 0x28] ++ [4, 0, 0xFF, 0x3F] ++ [4, 0, 0xFF, 0x3F]))).cluster
    ⟨2, by decide⟩

/-- The cluster after a START, or as it was. -/
def startedAt (c : Cluster) (i : Nat) : Cluster :=
  match c.startBlock i with
  | .next d => d
  | .fault _ => c
  | .refused _ => c

/-- A slot of block `k` in a phase. -/
def slotAt (k : Nat) (p : Phase) : Slot :=
  { block := k, engine := { Engine.powerUp with phase := p } }

/-- Why a START is refused. -/
def refusalOf : Host.Outcome Cluster Fault Refusal → Option Refusal
  | .next _ => none
  | .fault _ => none
  | .refused r => some r

/-- The second block after the first, with disjoint windows, runs beside it; not before it; not in a window
that the running first block shares; no third beside INSTANCES = 2; and none after a fault. -/
theorem test_startBlock :
    goesOn ((startedAt twoWindows 0).startBlock 1) = true ∧
      goesOn (twoWindows.startBlock 1) = false ∧
      refusalOf ((startedAt sharedWindows 0).startBlock 1) =
        some (.launchRefused .windowShared) ∧
      goesOn ((startedAt (startedAt twoWindows 0) 1).startBlock 0) = false ∧
      goesOn (({ twoWindows with slots := [slotAt 0 .fault] } : Cluster).startBlock 1) = false := by
  decide +kernel

theorem witness_InstanceStaysInItsWindow :
    pair.buf.wf = true ∧
      pair.slots[1]? = some { block := 1, engine := { matchState.engine with windowBase := 6 } } ∧
      goesOn (pair.stepAt 1) = true ∧ goesOn ((startedAt twoWindows 0).startBlock 1) = true := by
  decide +kernel

/-- The lowest of two faults is reported once block 0 is DONE, and not while it runs; two blocks, both
DONE, give a buffer. -/
theorem witness_LowestBlocksFaultIsReported :
    reportedFault [slotAt 3 .fault, slotAt 1 .fault, slotAt 0 .done] = some (1, Status.clear) ∧
      reportedFault [slotAt 0 .done] = none ∧
      ({ pair with slots := [slotAt 3 .fault, slotAt 1 .fault, slotAt 0 .done] } : Cluster).output.isSome =
        true ∧
      ({ pair with slots := [slotAt 3 .fault, slotAt 1 .fault, slotAt 0 .decode] } : Cluster).output.isSome =
        false ∧
      twoWindows.container.blocks.length = 2 ∧
      (({ twoWindows with slots := [slotAt 0 .done, slotAt 1 .done] } : Cluster).output.bind
        (·.toOption)).isSome = true := by decide +kernel

end Sys2Proof.Tests
end

section
/-! SUPPORT. The bit reader: the five branches of NEXT, what an answer of NEXT can be, and the reader's
place in the block's stream (10_state.md R20 to R23, R32, R36; 40_bit_reader.md R112 to R118). -/

namespace Sys2Proof.Machine

/-! ### Words with their low bits cleared -/

/-- A word with its low `k` bits cleared, bit by bit. -/
theorem getLsbD_clearLow (w : Word) (k : Nat) {j : Nat} (hj : j < 32) :
    ((w >>> k) <<< k).getLsbD j = (decide (k ≤ j) && w.getLsbD j) := by
  rw [BitVec.getLsbD_shiftLeft, BitVec.getLsbD_ushiftRight]
  by_cases h : k ≤ j
  · rw [Nat.add_sub_cancel' h]; simp [hj, h]
  · simp [h, Nat.lt_of_not_le h]

/-- The XOR by which NEXT removes the `k` bits it has delivered from a word (40_bit_reader.md R113,
R115, R116). -/
theorem xor_deliveredBits (w : Word) {k : Nat} (hk : k ≤ 32) :
    w ^^^ ((w <<< (32 - k)) >>> (32 - k)) = (w >>> k) <<< k := by
  refine BitVec.eq_of_getLsbD_eq fun j hj => ?_
  rw [getLsbD_clearLow w k hj, BitVec.getLsbD_xor, BitVec.getLsbD_ushiftRight,
    BitVec.getLsbD_shiftLeft, Nat.add_sub_cancel_left]
  by_cases h : k ≤ j
  · simp [h, show ¬32 - k + j < 32 by omega]
  · simp [h, show 32 - k + j < 32 by omega]

theorem clearLow_mod (w : Word) {k : Nat} (hk : k ≤ 32) : ((w >>> k) <<< k).toNat % 2 ^ k = 0 := by
  rw [BitVec.toNat_shiftLeft, Nat.shiftLeft_eq, Nat.mod_mod_of_dvd _ (Nat.pow_dvd_pow 2 hk),
    Nat.mul_mod_left]

/-! ### The branches of NEXT -/

section Branches

variable {fetch : Nat → Word} {n : Nat} {br br' : BitReader} {r : Word}

/-- A whole word, from the word itself: the branch of 40_bit_reader.md R112. -/
theorem next_wholeWord (hu : br.bitsUsed = 0) :
    br.next fetch 32 =
      .ok (br.word, { br with word := fetch br.fetchPtr, fetchPtr := br.fetchPtr + 4 }) := by
  rw [BitReader.next, if_neg (by omega), if_pos hu, if_pos rfl]

/-- The first bits of a word: the branch of 40_bit_reader.md R113. -/
theorem next_startWord (hu : br.bitsUsed = 0) (h1 : 1 ≤ n) (hn : n < 32) :
    br.next fetch n =
      .ok (br.word <<< (32 - n),
        { word := fetch br.fetchPtr, bitsUsed := n, fetchPtr := br.fetchPtr + 4
          remainder := br.word ^^^ ((br.word <<< (32 - n)) >>> (32 - n)) }) := by
  rw [BitReader.next, if_neg (by omega), if_pos hu, if_neg (by omega)]

/-- Exactly the bits that are left of a word: the branch of 40_bit_reader.md R114. -/
theorem next_restOfWord (hu : 0 < br.bitsUsed) (hu' : br.bitsUsed < 32) :
    br.next fetch (32 - br.bitsUsed) = .ok (br.remainder, { br with bitsUsed := 0 }) := by
  rw [BitReader.next, if_neg (by omega), if_neg (by omega), if_pos rfl]

/-- Some of the bits that are left of a word: the branch of 40_bit_reader.md R115. -/
theorem next_withinWord (hu : 0 < br.bitsUsed) (h1 : 1 ≤ n) (hn : n < 32 - br.bitsUsed) :
    br.next fetch n =
      .ok (br.remainder <<< (32 - n - br.bitsUsed),
        { br with
          bitsUsed := br.bitsUsed + n
          remainder := br.remainder ^^^
            ((br.remainder <<< (32 - n - br.bitsUsed)) >>> (32 - n - br.bitsUsed)) }) := by
  rw [BitReader.next, if_neg (by omega), if_neg (by omega), if_neg (by omega), if_pos hn]

/-- The bits that are left of a word and the first of the next: the branch of 40_bit_reader.md
R116. -/
theorem next_acrossWords (hu : 0 < br.bitsUsed) (hn : 32 - br.bitsUsed < n) (hn' : n ≤ 32) :
    br.next fetch n =
      .ok ((br.remainder >>> (n - (32 - br.bitsUsed))) |||
          (br.word <<< (32 - (n - (32 - br.bitsUsed)))),
        { word := fetch br.fetchPtr, bitsUsed := n - (32 - br.bitsUsed), fetchPtr := br.fetchPtr + 4
          remainder := br.word ^^^
            ((br.word <<< (32 - (n - (32 - br.bitsUsed)))) >>> (32 - (n - (32 - br.bitsUsed)))) }) := by
  rw [BitReader.next, if_neg (by omega), if_neg (by omega), if_neg (by omega), if_neg (by omega)]

/-- NEXT answers only for counts from 1 to 32. -/
theorem next_ok_range (h : br.next fetch n = .ok (r, br')) : 1 ≤ n ∧ n ≤ 32 := by
  by_contra hn
  rw [(next_error_iff fetch n br _).2 ⟨by omega, rfl⟩] at h
  cases h

/-- Every answer of NEXT, with the remainder as the bits that are left. The branches are those of
40_bit_reader.md R112 to R116, in order; `m` is the number of bits R116 takes from the new word. -/
theorem next_ok_cases (hu : br.bitsUsed < 32) (h : br.next fetch n = .ok (r, br')) :
    (br.bitsUsed = 0 ∧ n = 32 ∧ r = br.word ∧
      br' = { br with word := fetch br.fetchPtr, fetchPtr := br.fetchPtr + 4 }) ∨
    (br.bitsUsed = 0 ∧ n < 32 ∧ r = br.word <<< (32 - n) ∧
      br' = { word := fetch br.fetchPtr, bitsUsed := n, fetchPtr := br.fetchPtr + 4
              remainder := (br.word >>> n) <<< n }) ∨
    (0 < br.bitsUsed ∧ n = 32 - br.bitsUsed ∧ r = br.remainder ∧
      br' = { br with bitsUsed := 0 }) ∨
    (0 < br.bitsUsed ∧ n < 32 - br.bitsUsed ∧ r = br.remainder <<< (32 - (br.bitsUsed + n)) ∧
      br' = { br with
              bitsUsed := br.bitsUsed + n
              remainder := (br.remainder >>> (br.bitsUsed + n)) <<< (br.bitsUsed + n) }) ∨
    ∃ m, 0 < br.bitsUsed ∧ 0 < m ∧ m ≤ br.bitsUsed ∧ n = 32 - br.bitsUsed + m ∧
      r = (br.remainder >>> m) ||| (br.word <<< (32 - m)) ∧
      br' = { word := fetch br.fetchPtr, bitsUsed := m, fetchPtr := br.fetchPtr + 4
              remainder := (br.word >>> m) <<< m } := by
  obtain ⟨h1, h32⟩ := next_ok_range h
  rcases Nat.eq_zero_or_pos br.bitsUsed with hz | hp
  · rcases Nat.lt_or_eq_of_le h32 with hn | rfl
    · rw [next_startWord hz h1 hn, xor_deliveredBits _ h32] at h
      cases h
      exact .inr (.inl ⟨hz, hn, rfl, rfl⟩)
    · rw [next_wholeWord hz] at h
      cases h
      exact .inl ⟨hz, rfl, rfl, rfl⟩
  · rcases Nat.lt_trichotomy n (32 - br.bitsUsed) with hn | hn | hn
    · rw [next_withinWord hp h1 hn, show 32 - n - br.bitsUsed = 32 - (br.bitsUsed + n) by omega,
        xor_deliveredBits _ (by omega)] at h
      cases h
      exact .inr (.inr (.inr (.inl ⟨hp, hn, rfl, rfl⟩)))
    · rw [hn, next_restOfWord hp hu] at h
      cases h
      exact .inr (.inr (.inl ⟨hp, hn, rfl, rfl⟩))
    · rw [next_acrossWords hp hn h32, xor_deliveredBits _ (by omega)] at h
      cases h
      exact .inr (.inr (.inr (.inr
        ⟨n - (32 - br.bitsUsed), hp, by omega, by omega, by omega, rfl, rfl⟩)))

/-- NEXT keeps the reader's invariant (10_state.md R32). -/
theorem next_keeps_inv (hinv : br.Inv) (h : br.next fetch n = .ok (r, br')) : br'.Inv := by
  obtain ⟨hu, hfp, hrem⟩ := hinv
  rcases next_ok_cases hu h with ⟨hz, -, -, rfl⟩ | ⟨-, hn, -, rfl⟩ | ⟨-, -, -, rfl⟩ |
    ⟨-, hn, -, rfl⟩ | ⟨m, -, -, hm, -, -, rfl⟩
  · exact ⟨hu, by simp; omega, hrem⟩
  · exact ⟨hn, by simp; omega, fun _ => clearLow_mod _ (by omega)⟩
  · exact ⟨by simp, hfp, fun h0 => absurd h0 (lt_irrefl 0)⟩
  · exact ⟨by simp; omega, hfp, fun _ => clearLow_mod _ (by omega)⟩
  · exact ⟨by simp; omega, by simp; omega, fun _ => clearLow_mod _ (by omega)⟩

end Branches

/-- While no bit of a word is used NEXT does not read `remainder` (10_state.md R32). -/
theorem next_remainder_unobservable {fetch : Nat → Word} {n : Nat} {br br' : BitReader} {r : Word}
    (v : Word) (hz : br.bitsUsed = 0) (h : br.next fetch n = .ok (r, br')) :
    ∃ br'', { br with remainder := v }.next fetch n = .ok (r, br'') ∧
      br''.word = br'.word ∧ br''.bitsUsed = br'.bitsUsed ∧ br''.fetchPtr = br'.fetchPtr ∧
      (0 < br'.bitsUsed → br''.remainder = br'.remainder) := by
  obtain ⟨h1, h32⟩ := next_ok_range h
  rcases Nat.lt_or_eq_of_le h32 with hn | rfl
  · rw [next_startWord hz h1 hn] at h
    cases h
    exact ⟨_, next_startWord hz h1 hn, rfl, rfl, rfl, fun _ => rfl⟩
  · rw [next_wholeWord hz] at h
    cases h
    exact ⟨_, next_wholeWord hz, rfl, rfl, rfl, fun hp => absurd hz hp.ne'⟩

/-- Settles O10, branch by branch of NEXT. -/
theorem readerInvariantKeptByNext : Obligations.ReaderInvariantKeptByNext := by
  unfold Obligations.ReaderInvariantKeptByNext
  exact ⟨fun _ _ _ _ _ hinv h => next_keeps_inv hinv h,
    fun _ _ _ v hz _ _ h => next_remainder_unobservable v hz h⟩

end Sys2Proof.Machine
end

section
/-! SUPPORT. The reader's place in the block's stream (10_state.md R20 to R23, R36; 40_bit_reader.md R118):
where a reader follows a stream of words, NEXT delivers that stream's next bits and follows it still. -/

namespace Sys2Proof.Machine

/-- Bit `k` of the stream that a word fetch gives (30_encoding.md R81). -/
def wordStreamBit (fetch : Nat → Word) (k : Nat) : Bool := (fetch (4 * (k / 32))).getLsbD (k % 32)

theorem streamBit_eq (s : State) (k : Nat) : s.streamBit k = wordStreamBit s.fetchWord k := rfl

/-- A bit of a fetched word, `a` being a multiple of 4. -/
theorem getLsbD_fetch (fetch : Nat → Word) {a j : Nat} (ha : a % 4 = 0) (hj : j < 32) :
    (fetch a).getLsbD j = wordStreamBit fetch (8 * a + j) := by
  rw [wordStreamBit, show 4 * ((8 * a + j) / 32) = a by omega, show (8 * a + j) % 32 = j by omega]

/-- The reader's registers are what its position in the stream of the word fetch gives
(10_state.md R20 to R23). -/
def BitReader.Follows (fetch : Nat → Word) (br : BitReader) : Prop :=
  br.word = fetch (br.fetchPtr - 4) ∧ 4 ≤ br.fetchPtr ∧
  (0 < br.bitsUsed →
    8 ≤ br.fetchPtr ∧
    br.remainder = (fetch (br.fetchPtr - 8) >>> br.bitsUsed) <<< br.bitsUsed)

theorem readerTracks_iff (s : State) : s.ReaderTracks ↔ s.engine.br.Follows s.fetchWord := Iff.rfl

section Following

variable {fetch : Nat → Word} {n j : Nat} {br br' : BitReader} {r : Word}

theorem delivered_of_unused (hinv : br.Inv) (hz : br.bitsUsed = 0) :
    br.delivered = 8 * br.fetchPtr - 32 := by
  rw [BitReader.delivered, if_pos hz]
  have := hinv.2.1
  omega

theorem delivered_of_used (hinv : br.Inv) (hp : 0 < br.bitsUsed) :
    br.delivered = 8 * br.fetchPtr - 64 + br.bitsUsed := by
  rw [BitReader.delivered, if_neg hp.ne']
  have := hinv.2.1
  omega

/-- The word register holds the last word fetched. -/
theorem BitReader.Follows.getLsbD_word (hf : br.Follows fetch) (hinv : br.Inv) (hj : j < 32) :
    br.word.getLsbD j = wordStreamBit fetch (8 * br.fetchPtr - 32 + j) := by
  obtain ⟨-, hfp, -⟩ := hinv
  obtain ⟨hw, h4, -⟩ := hf
  rw [hw, getLsbD_fetch fetch (by omega) hj, show 8 * (br.fetchPtr - 4) = 8 * br.fetchPtr - 32 by omega]

/-- The remainder holds the undelivered bits of the word before, in their places. -/
theorem BitReader.Follows.getLsbD_remainder (hf : br.Follows fetch) (hinv : br.Inv)
    (hp : 0 < br.bitsUsed) (hj : j < 32) :
    br.remainder.getLsbD j =
      (decide (br.bitsUsed ≤ j) && wordStreamBit fetch (8 * br.fetchPtr - 64 + j)) := by
  obtain ⟨-, hfp, -⟩ := hinv
  obtain ⟨-, -, hrem⟩ := hf
  obtain ⟨h8, hrem⟩ := hrem hp
  rw [hrem, getLsbD_clearLow _ _ hj, getLsbD_fetch fetch (by omega) hj,
    show 8 * (br.fetchPtr - 8) = 8 * br.fetchPtr - 64 by omega]

/-- A reader that follows the stream follows it after NEXT. -/
theorem next_keeps_follows (hinv : br.Inv) (hf : br.Follows fetch)
    (h : br.next fetch n = .ok (r, br')) : br'.Follows fetch := by
  obtain ⟨hw, h4, hrem⟩ := hf
  rcases next_ok_cases hinv.1 h with ⟨hz, -, -, rfl⟩ | ⟨-, -, -, rfl⟩ | ⟨-, -, -, rfl⟩ |
    ⟨hp, -, -, rfl⟩ | ⟨m, -, -, -, -, -, rfl⟩
  · exact ⟨rfl, Nat.le_add_left 4 _, fun hp => absurd hz hp.ne'⟩
  · exact ⟨rfl, Nat.le_add_left 4 _, fun _ => ⟨Nat.add_le_add_right h4 4, by rw [hw]; rfl⟩⟩
  · exact ⟨hw, h4, fun h0 => absurd h0 (lt_irrefl 0)⟩
  · obtain ⟨h8, hrem⟩ := hrem hp
    refine ⟨hw, h4, fun _ => ⟨h8, BitVec.eq_of_getLsbD_eq fun j hj => ?_⟩⟩
    simp only [getLsbD_clearLow _ _ hj, hrem]
    by_cases hj' : br.bitsUsed + n ≤ j
    · simp [hj', show br.bitsUsed ≤ j by omega]
    · simp [hj']
  · exact ⟨rfl, Nat.le_add_left 4 _, fun _ => ⟨Nat.add_le_add_right h4 4, by rw [hw]; rfl⟩⟩

/-- NEXT(n) delivers `n` bits (10_state.md R36). -/
theorem next_delivered (hinv : br.Inv) (hf : br.Follows fetch)
    (h : br.next fetch n = .ok (r, br')) : br'.delivered = br.delivered + n := by
  have hinv' := next_keeps_inv hinv h
  obtain ⟨-, h4, h8⟩ := hf
  replace h8 := fun hp => (h8 hp).1
  obtain ⟨hn1, -⟩ := next_ok_range h
  rcases next_ok_cases hinv.1 h with ⟨hz, rfl, -, rfl⟩ | ⟨hz, hn, -, rfl⟩ | ⟨hp, hn, -, rfl⟩ |
    ⟨hp, hn, -, rfl⟩ | ⟨m, hp, hm, hmu, hn, -, rfl⟩
  · rw [delivered_of_unused hinv hz, delivered_of_unused hinv' hz]
    simp only; omega
  · rw [delivered_of_unused hinv hz, delivered_of_used hinv' hn1]
    simp only; omega
  · have := h8 hp
    rw [delivered_of_used hinv hp, delivered_of_unused hinv' rfl]
    simp only; omega
  · rw [delivered_of_used hinv hp, delivered_of_used hinv' (by simp; omega)]
    simp only; omega
  · have := h8 hp
    rw [delivered_of_used hinv hp, delivered_of_used hinv' hm]
    simp only; omega

/-- NEXT(n) delivers the next `n` bits of the stream, left-justified, with zeros below them
(40_bit_reader.md R117, R118). -/
theorem next_result_bit (hinv : br.Inv) (hf : br.Follows fetch)
    (h : br.next fetch n = .ok (r, br')) (hj : j < 32) :
    r.getLsbD j =
      (decide (32 - n ≤ j) && wordStreamBit fetch (br.delivered + (j - (32 - n)))) := by
  have h4 := hf.2.1
  obtain ⟨hn1, hn32⟩ := next_ok_range h
  rcases next_ok_cases hinv.1 h with ⟨hz, rfl, rfl, -⟩ | ⟨hz, hn, rfl, -⟩ | ⟨hp, hn, rfl, -⟩ |
    ⟨hp, hn, rfl, -⟩ | ⟨m, hp, hm, hmu, hn, rfl, -⟩
  · simp [delivered_of_unused hinv hz, hf.getLsbD_word hinv hj]
  · rw [delivered_of_unused hinv hz, BitVec.getLsbD_shiftLeft]
    by_cases hb : 32 - n ≤ j
    · rw [hf.getLsbD_word hinv (by omega)]
      simp [hb, hj]
    · simp [hb, hj, Nat.lt_of_not_le hb]
  · rw [delivered_of_used hinv hp, hf.getLsbD_remainder hinv hp hj,
      show 32 - n = br.bitsUsed by have := hinv.1; omega]
    by_cases hb : br.bitsUsed ≤ j
    · rw [Nat.add_assoc, Nat.add_sub_cancel' hb]
    · simp [hb]
  · rw [delivered_of_used hinv hp, BitVec.getLsbD_shiftLeft]
    by_cases hb : 32 - (br.bitsUsed + n) ≤ j
    · rw [hf.getLsbD_remainder hinv hp (by omega)]
      by_cases hb' : 32 - n ≤ j
      · rw [show 8 * br.fetchPtr - 64 + (j - (32 - (br.bitsUsed + n))) =
          8 * br.fetchPtr - 64 + br.bitsUsed + (j - (32 - n)) by omega]
        simp [hj, hb', show ¬j < 32 - (br.bitsUsed + n) by omega,
          show br.bitsUsed ≤ j - (32 - (br.bitsUsed + n)) by omega]
      · simp [hb', show ¬br.bitsUsed ≤ j - (32 - (br.bitsUsed + n)) by omega]
    · simp [Nat.lt_of_not_le hb, show ¬32 - n ≤ j by omega]
  · have h8 := (hf.2.2 hp).1
    have hu := hinv.1
    rw [delivered_of_used hinv hp, BitVec.getLsbD_or, BitVec.getLsbD_ushiftRight,
      BitVec.getLsbD_shiftLeft]
    by_cases hb : j < 32 - m
    · rw [hf.getLsbD_remainder hinv hp (by omega)]
      by_cases hb' : 32 - n ≤ j
      · rw [show 8 * br.fetchPtr - 64 + (m + j) =
          8 * br.fetchPtr - 64 + br.bitsUsed + (j - (32 - n)) by omega]
        simp [hb, hb', show br.bitsUsed ≤ m + j by omega]
      · simp [hb, hb', show ¬br.bitsUsed ≤ m + j by omega]
    · rw [hf.getLsbD_word hinv (by omega), BitVec.getLsbD_of_ge _ _ (by omega : 32 ≤ m + j),
        show 8 * br.fetchPtr - 32 + (j - (32 - m)) =
          8 * br.fetchPtr - 64 + br.bitsUsed + (j - (32 - n)) by omega]
      simp [hb, hj, show 32 - n ≤ j by omega]

end Following

/-! ### The stream as one number -/

/-- The bits of a stream of bytes (30_encoding.md R81). -/
theorem testBit_streamOfBytes (bytes : List Byte) (k : Nat) :
    (streamOfBytes bytes).testBit k = (bytes[k / 8]?.getD 0).getLsbD (k % 8) := by
  induction bytes generalizing k with
  | nil => simp [streamOfBytes]
  | cons b bs ih =>
    rw [streamOfBytes, Nat.add_comm, Nat.testBit_two_pow_mul_add _ b.isLt]
    split
    · next hk => simp [Nat.div_eq_of_lt hk, Nat.mod_eq_of_lt hk, BitVec.testBit_toNat]
    · next hk =>
      rw [ih, show k / 8 = (k - 8) / 8 + 1 by omega, show k % 8 = (k - 8) % 8 by omega,
        List.getElem?_cons_succ]

/-- A bit of a fetched word is its byte's (20_memory.md R53). -/
theorem getLsbD_fetchWord (s : State) (a : Nat) {j : Nat} (hj : j < 32) :
    (s.fetchWord a).getLsbD j = (s.fetchByte (a + j / 8)).getLsbD (j % 8) := by
  rw [State.fetchWord]
  simp only [BitVec.getLsbD_append]
  have hq : j / 8 = 0 ∨ j / 8 = 1 ∨ j / 8 = 2 ∨ j / 8 = 3 := by omega
  rcases hq with hq | hq | hq | hq
  · simp [hq, show j < 8 by omega, Nat.mod_eq_of_lt]
  · simp [hq, show ¬j < 8 by omega, show j - 8 < 8 by omega, show j % 8 = j - 8 by omega]
  · simp [hq, show ¬j < 8 by omega, show ¬j - 8 < 8 by omega, show j - 8 - 8 < 8 by omega,
      show j % 8 = j - 8 - 8 by omega]
  · simp [hq, show ¬j < 8 by omega, show ¬j - 8 < 8 by omega, show ¬j - 8 - 8 < 8 by omega,
      show j % 8 = j - 8 - 8 - 8 by omega]

/-- Stream bit `k` is its byte's bit (30_encoding.md R81). -/
theorem streamBit_eq_fetchByte (s : State) (k : Nat) :
    s.streamBit k = (s.fetchByte (k / 8)).getLsbD (k % 8) := by
  rw [State.streamBit, getLsbD_fetchWord _ _ (by omega),
    show 4 * (k / 32) + k % 32 / 8 = k / 8 by omega, show k % 32 % 8 = k % 8 by omega]

/-- Stream bit `k` is bit `k` of the block's stream as one number (30_encoding.md R81). -/
theorem streamBit_eq_testBit (s : State) (k : Nat) : s.streamBit k = s.blockStream.testBit k := by
  rw [streamBit_eq_fetchByte, State.blockStream, testBit_streamOfBytes, List.getElem?_map]
  by_cases hk : k / 8 < s.engine.inLen
  · simp [List.getElem?_range hk]
  · simp [State.fetchByte, hk]

/-- The accumulator's live bits, bit by bit (10_state.md R24, R36). -/
theorem accTracks_iff (s : State) :
    s.AccTracks ↔
      (s.engine.pendingBits ≤ 32 → ∀ j, j < 32 →
        s.engine.acc.getLsbD j =
          (decide (j < 32 - s.engine.pendingBits) && s.streamBit (s.engine.streamPos + j))) := by
  refine imp_congr_right fun _ => ⟨fun h j _ => ?_, fun h => Nat.eq_of_testBit_eq fun j => ?_⟩
  · rw [← BitVec.testBit_toNat, h, Nat.testBit_mod_two_pow, Nat.testBit_shiftRight,
      streamBit_eq_testBit]
  · rw [Nat.testBit_mod_two_pow, Nat.testBit_shiftRight, ← streamBit_eq_testBit,
      BitVec.testBit_toNat]
    by_cases hj : j < 32
    · exact h j hj
    · rw [BitVec.getLsbD_of_ge _ _ (by omega)]
      simp [show ¬j < 32 - s.engine.pendingBits by omega]

end Sys2Proof.Machine
end

section
/-! SUPPORT. What a step of the engine or of the container decoder can do, once: one inversion lemma for
each, and what every engine step leaves alone. -/

namespace Sys2Proof.Machine

/-- The machine still works on the same block: store, file, container decoder and the launch's registers
are those of before. -/
structure SameBlock (s t : State) : Prop where
  store : t.store = s.store
  file : t.file = s.file
  container : t.container = s.container
  inBase : t.engine.inBase = s.engine.inBase
  inLen : t.engine.inLen = s.engine.inLen
  windowBase : t.engine.windowBase = s.engine.windowBase
  windowCapacity : t.engine.windowCapacity = s.engine.windowCapacity

/-- The same block has the same words. -/
theorem SameBlock.fetchWord {s t : State} (h : SameBlock s t) : t.fetchWord = s.fetchWord := by
  funext a
  simp only [State.fetchWord, State.fetchByte, h.file, h.inBase, h.inLen]

/-- The same block has the same stream. -/
theorem SameBlock.streamBit {s t : State} (h : SameBlock s t) : t.streamBit = s.streamBit := by
  funext k
  rw [streamBit_eq, streamBit_eq, h.fetchWord]

/-! ### The engine's steps -/

/-- The state after a LIT that does not fault. -/
def litDone (e : CodeTableEntry) (s : State) : State :=
  ((s.consumeCode e).withBuf
    (s.buf.write (s.engine.windowBase + s.engine.written)
      (s.file.bytes.read (s.engine.inBase + s.engine.inPtr)))).withEngine
    ((((s.consumeCode e).engine.advanceOut 1).advanceIn 1).withPhase .check)

/-- The state after a RAW that does not fault, of `amount` bytes, its refill having given result `r`
and reader `br`. -/
def rawDone (e : CodeTableEntry) (amount : Nat) (r : Word) (br : BitReader) (s : State) : State :=
  ((rawReady e r br s).withBuf
    (copyInput s.file.bytes amount (s.engine.inBase + s.engine.inPtr)
      (s.engine.windowBase + s.engine.written) s.buf)).withEngine
    ((((rawReady e r br s).engine.advanceOut amount).advanceIn amount).withPhase .check)

/-- The state after a MATCH that does not fault, of `amount` bytes from `backOffset` back, its refill
having given result `r` and reader `br`. -/
def matchDone (e : CodeTableEntry) (amount backOffset : Nat) (r : Word) (br : BitReader) (s : State) :
    State :=
  ((matchReady e r br s).withBuf
    (copyOutput amount (s.engine.windowBase + (s.engine.written - backOffset))
      (s.engine.windowBase + s.engine.written) s.buf)).withEngine
    ((((matchReady e r br s).engine.advanceOut amount).withAcc (matchReady e r br s).engine.acc
      (e.lenExtraBits.toNat + e.offsetExtraBits.toNat)).withPhase .decode)

/-- The state after a SETUP that does not fault: `v` and `capField` are the header's fields, `f` the
selector field, `br` the reader after the three requests. -/
def setupDone (v : Half) (capField : Nat) (f : Word) (br : BitReader) (tab : TableStore) (s : State) :
    State :=
  s.withEngine (((s.engine.withReader br).withUnpackInfo v).afterSetup capField f tab.offsetShift
    (literalOffset s.literalStart v))

section Same

variable (e : CodeTableEntry) (amount backOffset capField : Nat) (r f : Word) (br : BitReader)
  (v : Half) (tab : TableStore) (st : Status) {s t : State}

theorem sameBlock_consumeCode : SameBlock s (s.consumeCode e) := ⟨rfl, rfl, rfl, rfl, rfl, rfl, rfl⟩

theorem sameBlock_rawReady : SameBlock s (rawReady e r br s) := ⟨rfl, rfl, rfl, rfl, rfl, rfl, rfl⟩

theorem sameBlock_matchReady : SameBlock s (matchReady e r br s) :=
  ⟨rfl, rfl, rfl, rfl, rfl, rfl, rfl⟩

theorem sameBlock_litDone : SameBlock s (litDone e s) := ⟨rfl, rfl, rfl, rfl, rfl, rfl, rfl⟩

theorem sameBlock_rawDone : SameBlock s (rawDone e amount r br s) :=
  ⟨rfl, rfl, rfl, rfl, rfl, rfl, rfl⟩

theorem sameBlock_matchDone : SameBlock s (matchDone e amount backOffset r br s) :=
  ⟨rfl, rfl, rfl, rfl, rfl, rfl, rfl⟩

theorem sameBlock_headerRead :
    SameBlock s (s.withEngine ((s.engine.withReader br).withUnpackInfo v)) :=
  ⟨rfl, rfl, rfl, rfl, rfl, rfl, rfl⟩

theorem sameBlock_setupDone : SameBlock s (setupDone v capField f br tab s) :=
  ⟨rfl, rfl, rfl, rfl, rfl, rfl, rfl⟩

theorem sameBlock_withPhase (p : Phase) : SameBlock s (s.withEngine (s.engine.withPhase p)) :=
  ⟨rfl, rfl, rfl, rfl, rfl, rfl, rfl⟩

theorem SameBlock.raise (h : SameBlock s t) : SameBlock s (t.raise st) :=
  ⟨h.store, h.file, h.container, h.inBase, h.inLen, h.windowBase, h.windowCapacity⟩

end Same

section Commands

variable {e : CodeTableEntry} {x y : Nat} {s t : State}

/-- A next state of LIT: a fault, or the byte copied. -/
theorem execLit_next (h : execLit e s = .next t) :
    (∃ st, t = (s.consumeCode e).raise st) ∨
      (s.engine.written ≠ s.engine.logicalCapacity ∧ s.engine.inPtr < s.engine.inLen ∧
        t = litDone e s) := by
  rw [execLit_eq] at h
  split at h
  · cases h; exact .inl ⟨_, rfl⟩
  · next hw =>
    split at h
    · cases h; exact .inl ⟨_, rfl⟩
    · next hi =>
      split at h
      · cases h
      · cases h; exact .inr ⟨hw, Nat.lt_of_not_le hi, rfl⟩

/-- A next state of RAW: a fault of its refill, a fault after it, or the run copied. -/
theorem execRaw_next (h : execRaw e x s = .next t) :
    (∃ st, t = (s.consumeCode e).raise st) ∨
      ∃ r br, s.engine.br.next s.fetchWord (s.engine.pendingBits + e.codeLen.toNat) = .ok (r, br) ∧
        ((∃ st, t = (rawReady e r br s).raise st) ∨
          ((0 < s.engine.clamp (copyLength e x) →
              s.engine.inPtr + s.engine.clamp (copyLength e x) ≤ s.engine.inLen) ∧
            t = rawDone e (s.engine.clamp (copyLength e x)) r br s)) := by
  rcases refill_split e s with hf | ⟨r, br, hn⟩
  · rw [execRaw_refill_fault e x hf] at h
    cases h; exact .inl ⟨_, rfl⟩
  · refine .inr ⟨r, br, hn, ?_⟩
    rw [execRaw_eq x hn] at h
    split at h
    · cases h; exact .inl ⟨_, rfl⟩
    · next hi =>
      split at h
      · cases h
      · cases h; exact .inr ⟨fun ha => Nat.le_of_not_lt fun hl => hi ⟨ha, hl⟩, rfl⟩

/-- A next state of MATCH: a fault of its refill, a fault after it, or the run copied. -/
theorem execMatch_next (h : execMatch e x y s = .next t) :
    (∃ st, t = (s.consumeCode e).raise st) ∨
      ∃ r br, s.engine.br.next s.fetchWord (s.engine.pendingBits + e.codeLen.toNat) = .ok (r, br) ∧
        ((∃ st, t = (matchReady e r br s).raise st) ∨
          (¬badReference e x y s ∧
            t = matchDone e (s.engine.clamp (copyLength e x))
              (backOffsetOf e s.engine.offsetShift y) r br s)) := by
  rcases refill_split e s with hf | ⟨r, br, hn⟩
  · rw [execMatch_refill_fault e x y hf] at h
    cases h; exact .inl ⟨_, rfl⟩
  · refine .inr ⟨r, br, hn, ?_⟩
    rw [execMatch_eq x y hn] at h
    split at h
    · cases h; exact .inl ⟨_, rfl⟩
    · next hb =>
      split at h
      · cases h
      · cases h; exact .inr ⟨hb, rfl⟩

/-- A next state of SETUP: the capacity's fault, or the header read. -/
theorem setupStep_next (h : setupStep s = .next t) :
    ∃ r₁ br₁ r₂ br₂ f br₃,
      s.engine.br.next s.fetchWord 16 = .ok (r₁, br₁) ∧ br₁.next s.fetchWord 16 = .ok (r₂, br₂) ∧
      br₂.next s.fetchWord 32 = .ok (f, br₃) ∧
      ((∃ st, t = (s.withEngine ((s.engine.withReader br₂).withUnpackInfo
            (BitVec.ofNat 16 (fieldValue 16 r₁)))).raise st) ∨
        ∃ tab, Config.maxBlockOutput - fieldValue 16 r₂ ≤ s.engine.windowCapacity ∧
          selectedTable? s.store (f.setWidth 2) = some tab ∧
          t = setupDone (BitVec.ofNat 16 (fieldValue 16 r₁)) (fieldValue 16 r₂) f br₃ tab s) := by
  obtain ⟨r₁, br₁, r₂, br₂, f, br₃, h₁, h₂, h₃, heq⟩ := setupStep_eq s
  refine ⟨r₁, br₁, r₂, br₂, f, br₃, h₁, h₂, h₃, ?_⟩
  rw [heq] at h
  split at h
  · cases h; exact .inl ⟨_, rfl⟩
  · next hc =>
    rw [not_or, not_lt, not_lt] at hc
    split at h
    · cases h
    · next tab htab => cases h; exact .inr ⟨tab, hc.2, htab, rfl⟩

/-- A next state of CHECK: DONE where the block is full, else DECODE. -/
theorem checkStep_next (h : checkStep s = .next t) :
    (s.engine.written = s.engine.logicalCapacity ∧
      t = s.withEngine (s.engine.withPhase .done)) ∨
    (s.engine.written ≠ s.engine.logicalCapacity ∧
      t = s.withEngine (s.engine.withPhase .decode)) := by
  rw [checkStep] at h
  split at h
  · next hw => cases h; exact .inl ⟨hw, rfl⟩
  · next hw => cases h; exact .inr ⟨hw, rfl⟩

/-- A next state of DECODE is one of the command it reads. -/
theorem decodeStep_next (h : decodeStep s = .next t) : ∃ i, fetch s = .ok i ∧ exec i s = .next t := by
  rw [decodeStep] at h
  cases hf : fetch s with
  | error r => rw [hf] at h; cases h
  | ok i => rw [hf] at h; exact ⟨i, rfl, h⟩

theorem resting_of_not_running {p : Phase} (h : ¬p.running) :
    p = .idle ∨ p = .done ∨ p = .fault := by
  cases p <;> simp_all [Phase.running]

/-- A step that goes on: of the engine in SETUP, CHECK or DECODE, else of the container decoder. -/
theorem step_next_cases (h : step s = .next t) :
    (s.engine.phase = .setup ∧ setupStep s = .next t) ∨
    (s.engine.phase = .check ∧ checkStep s = .next t) ∨
    (s.engine.phase = .decode ∧ decodeStep s = .next t) ∨
    (¬s.engine.phase.running ∧ containerStep s = .next t) := by
  by_cases hrun : s.engine.phase.running
  · rw [step_running hrun] at h
    rcases hrun with hp | hp | hp <;> simp only [engineStep, hp] at h
    · exact .inl ⟨hp, h⟩
    · exact .inr (.inl ⟨hp, h⟩)
    · exact .inr (.inr (.inl ⟨hp, h⟩))
  · rw [step_resting (resting_of_not_running hrun)] at h
    exact .inr (.inr (.inr ⟨hrun, h⟩))

end Commands

/-! ### The container decoder's steps -/

section Container

variable {s t : State}

/-- A next state of the power-up step: the catalog is accepted. -/
theorem powerUpStep_next (h : powerUpStep s = .next t) :
    Catalog.wellFormed (catalogOf s.store) = true ∧
      t = s.withContainer { s.container with phase := .awaitFile } := by
  rw [powerUpStep] at h
  split at h
  · cases h
  · next hd => cases h; exact ⟨by simp [Catalog.wellFormed, hd], rfl⟩

/-- The range checks pass exactly for blocks that do not end before they start or past the file's
end (45_host_container.md R217). -/
theorem rangeFault?_eq_none_iff (fileLength i : Nat) (bs : List BlockRange) :
    rangeFault? fileLength i bs = none ↔ ∀ b ∈ bs, b.start ≤ b.stop ∧ b.stop ≤ fileLength := by
  induction bs generalizing i with
  | nil => simp [rangeFault?]
  | cons b bs ih =>
    rw [rangeFault?, List.forall_mem_cons]
    split
    · next hd => simp [hd]
    · next hd =>
      split
      · next hl => simp [hl]
      · next hl => rw [ih]; simp [Nat.le_of_not_lt hd, Nat.le_of_not_lt hl]

/-- An accepted file's blocks lie inside it. -/
theorem parse_ok_ranges {f : FileImage} {blocks : List BlockRange} (h : f.parse = .ok blocks) :
    ∀ b ∈ blocks, b.start ≤ b.stop ∧ b.stop ≤ f.len := by
  rw [← rangeFault?_eq_none_iff f.len 0]
  simp only [FileImage.parse, FileImage.parseBlocks] at h
  split at h
  · cases h
  · split at h
    · cases h
    · split at h
      · cases h
      · split at h
        · split at h
          · cases h
          · next hr => cases h; exact hr
        · cases h

/-- A next state of the file check: the error, or the buffer allocated and block 0 due. -/
theorem checkFileStep_next (h : checkFileStep s = .next t) :
    (∃ st, t = s.withContainer (s.container.fail st none)) ∨
      ∃ blocks, s.file.parse = .ok blocks ∧
        t = (s.withBuf []).withContainer
          { phase := .nextBlock
            totalUncompressedSize := (s.file.le32 0x0C).toNat
            blocks := blocks
            blockIndex := 0
            writeCursor := 0 } := by
  rw [checkFileStep] at h
  split at h
  · cases h; exact .inl ⟨_, rfl⟩
  · next blocks hb => cases h; exact .inr ⟨blocks, hb, rfl⟩

/-- A next state of the launch: the buffer returned, or the next block started. -/
theorem nextBlockStep_next (h : nextBlockStep s = .next t) :
    t = s.withContainer { s.container with phase := .returned .buffer } ∨
      ∃ b u, s.container.blocks[s.container.blockIndex]? = some b ∧
        start (s.container.launchOf b) s = .ok u ∧
          t = u.withContainer { s.container with phase := .decoding } := by
  rcases nextBlockStep_cases h with ⟨-, ht⟩ | ⟨b, hb, ⟨p, -, ht⟩ | ⟨u, hu, ht⟩⟩
  · cases ht; exact .inl rfl
  · cases ht
  · cases ht; exact .inr ⟨b, u, hb, hu, rfl⟩

/-- A next state of the step that takes a block's result: the block's error, or the cursor moved past
the block. -/
theorem collectStep_next (h : collectStep s = .next t) :
    (s.engine.phase = .fault ∧
      t = s.withContainer (s.container.fail s.engine.status (some s.container.blockIndex))) ∨
    (s.engine.phase = .done ∧
      t = s.withContainer
        { s.container with
          phase := .nextBlock
          blockIndex := s.container.blockIndex + 1
          writeCursor :=
            advanceCursor s.container.totalUncompressedSize s.container.writeCursor
              s.engine.written }) := by
  cases hp : s.engine.phase
  case fault =>
    simp only [collectStep, Engine.report, hp, if_true] at h
    cases h; exact .inl ⟨rfl, rfl⟩
  case done =>
    simp only [collectStep, Engine.report, hp, reduceCtorEq, if_false] at h
    cases h; exact .inr ⟨rfl, rfl⟩
  all_goals
    simp only [collectStep, Engine.report, hp] at h
    cases h

/-- A step of the container decoder that goes on, phase by phase. -/
theorem containerStep_next (h : containerStep s = .next t) :
    (s.container.phase = .powerUp ∧ powerUpStep s = .next t) ∨
    (s.container.phase = .checkFile ∧ checkFileStep s = .next t) ∨
    (s.container.phase = .nextBlock ∧ nextBlockStep s = .next t) ∨
    (s.container.phase = .decoding ∧ collectStep s = .next t) := by
  rw [containerStep] at h
  split at h
  · next hp => exact .inl ⟨hp, h⟩
  · cases h
  · next hp => exact .inr (.inl ⟨hp, h⟩)
  · next hp => exact .inr (.inr (.inl ⟨hp, h⟩))
  · next hp => exact .inr (.inr (.inr ⟨hp, h⟩))
  · cases h

end Container

end Sys2Proof.Machine
end

section
/-! SUPPORT. Every step keeps the machine's invariant: one lemma for each step of the engine and of the
container decoder (10_state.md R32, R33; 42_block_decoder.md R173, R175). -/

namespace Sys2Proof.Machine

/-! ### The accumulator's invariant -/

theorem accInv_iff_lt (e : Engine) : e.AccInv ↔ e.acc.toNat < 2 ^ (32 - min e.pendingBits 32) := by
  rw [Engine.AccInv, Nat.shiftRight_eq_div_pow, Nat.div_eq_zero_iff_lt (Nat.two_pow_pos _)]

/-- Dropping `k` bits and counting them as consumed keeps the accumulator's invariant. -/
theorem shiftRight_liveBits_lt {w : Word} {p : Nat} (k : Nat)
    (h : w.toNat < 2 ^ (32 - min p 32)) : (w >>> k).toNat < 2 ^ (32 - min (p + k) 32) := by
  rw [BitVec.toNat_ushiftRight, Nat.shiftRight_eq_div_pow]
  refine Nat.div_lt_of_lt_mul (h.trans_le ?_)
  rw [← Nat.pow_add]
  exact Nat.pow_le_pow_right (by omega) (by omega)

/-- Of a word from which `k` bits have been dropped, the top `min(k, 32)` are zero. -/
theorem shiftRight_lt (w : Word) (k : Nat) : (w >>> k).toNat < 2 ^ (32 - min k 32) := by
  have := shiftRight_liveBits_lt (p := 0) k w.isLt
  rwa [Nat.zero_add] at this

/-! ### The engine's steps -/

section EngineSteps

variable {s t : State}

/-- The part of the machine's invariant that a step on the same block must show anew. -/
theorem SameBlock.keeps_inv (hb : SameBlock s t) (hs : s.Inv) (hrun : s.engine.phase.running)
    (hbuf : t.buf.wf = true) (heng : t.engine.Inv) (hidle : t.engine.phase ≠ .idle)
    (hshift : t.engine.phase.pastSetup → t.ShiftInv) : t.Inv := by
  obtain ⟨⟨hfile, -⟩, -, hstore, hcat, hdec, hlaunch, hblocks, -⟩ := hs
  have hdec := hdec hrun
  obtain ⟨-, hin, hbase, hcap⟩ := hlaunch hdec
  refine ⟨⟨?_, hbuf⟩, heng, ?_, ?_, fun _ => ?_, fun _ => ⟨hidle, ?_, ?_, ?_⟩, fun _ => ?_, hshift⟩
  · rwa [hb.file]
  · rwa [hb.store]
  · rwa [hb.store, hb.container]
  · rwa [hb.container]
  · rwa [hb.inBase, hb.inLen, hb.file]
  · rwa [hb.windowBase, hb.container]
  · rwa [hb.windowCapacity, hb.container]
  · rw [State.BlocksInv, hb.container, hb.file]
    exact hblocks (.inr hdec)

/-- A fault of the engine keeps the invariant, whatever the step has written to the registers before
it. -/
theorem raise_keeps_inv (hs : s.Inv) (hrun : s.engine.phase.running) (hb : SameBlock s t)
    (hbuf : t.buf = s.buf) (hbr : t.engine.br.Inv) (st : Status) : (t.raise st).Inv := by
  refine (hb.raise st).keeps_inv hs hrun ?_ ⟨hbr, ?_⟩ ?_ ?_
  · rw [raise_buf, hbuf]
    exact hs.1.2
  all_goals simp [Phase.pastSetup]

/-- SETUP keeps the invariant: the accumulator has two of 32 bits dropped, and R162's test bounds the
capacity. -/
theorem setupStep_keeps_inv (hs : s.Inv) (hp : s.engine.phase = .setup)
    (h : setupStep s = .next t) : t.Inv := by
  have hrun : s.engine.phase.running := .inl hp
  obtain ⟨⟨-, hbuf⟩, ⟨hbr, hsetup, -⟩, -⟩ := id hs
  obtain ⟨hw, hcap⟩ := hsetup hp
  obtain ⟨r₁, br₁, r₂, br₂, f, br₃, h₁, h₂, h₃, hres⟩ := setupStep_next h
  have hbr₂ := next_keeps_inv (next_keeps_inv hbr h₁) h₂
  rcases hres with ⟨st, rfl⟩ | ⟨tab, hle, htab, rfl⟩
  · exact raise_keeps_inv hs hrun (sameBlock_headerRead br₂ _) rfl hbr₂ st
  · refine (sameBlock_setupDone ..).keeps_inv hs hrun hbuf
      ⟨next_keeps_inv hbr₂ h₃, nofun, fun _ => ⟨?_, ⟨?_, hle, hcap⟩, ?_⟩, nofun, nofun⟩ nofun
      fun _ => ?_
    · exact (accInv_iff_lt _).2 (shiftRight_lt f 2)
    · exact hw.trans_le (Nat.zero_le _)
    · exact fun hpos => absurd hw hpos.ne'
    · exact congrArg (Option.map (·.offsetShift)) htab

/-- CHECK keeps the invariant: only a full block is DONE, only one that is not is decoded. -/
theorem checkStep_keeps_inv (hs : s.Inv) (hp : s.engine.phase = .check)
    (h : checkStep s = .next t) : t.Inv := by
  have hrun : s.engine.phase.running := .inr (.inl hp)
  obtain ⟨⟨-, hbuf⟩, ⟨hbr, -, hpast, -⟩, -, -, -, -, -, hshift⟩ := id hs
  have hpast := hpast (.inl hp)
  have hshift := hshift (.inl hp)
  rcases checkStep_next h with ⟨hw, rfl⟩ | ⟨hw, rfl⟩
  · exact (sameBlock_withPhase _).keeps_inv hs hrun hbuf
      ⟨hbr, nofun, fun _ => hpast, nofun, fun _ => hw⟩ nofun fun _ => hshift
  · have hle := hpast.2.1.1
    exact (sameBlock_withPhase _).keeps_inv hs hrun hbuf
      ⟨hbr, nofun, fun _ => hpast, fun _ => show 0 < s.engine.logicalCapacity by omega, nofun⟩ nofun
      fun _ => hshift

theorem clamp_le (g : Engine) (amount : Nat) (h : g.written ≤ g.logicalCapacity) :
    g.written + g.clamp amount ≤ g.logicalCapacity := by
  rw [Engine.clamp]
  omega

variable {e : CodeTableEntry} {x y : Nat}

/-- LIT keeps the invariant. -/
theorem execLit_keeps_inv (hs : s.Inv) (hp : s.engine.phase = .decode)
    (h : execLit e s = .next t) : t.Inv := by
  have hrun : s.engine.phase.running := .inr (.inr hp)
  obtain ⟨⟨-, hbuf⟩, ⟨hbr, -, hpast, -⟩, -, -, -, -, -, hshift⟩ := id hs
  obtain ⟨hacc, ⟨hw, hlc, hwc⟩, -⟩ := hpast (.inr (.inl hp))
  rcases execLit_next h with ⟨st, rfl⟩ | ⟨hne, hin, rfl⟩
  · exact raise_keeps_inv hs hrun (sameBlock_consumeCode e) rfl hbr st
  · refine (sameBlock_litDone e).keeps_inv hs hrun (wf_write hbuf _ _)
      ⟨hbr, nofun, fun _ => ⟨?_, ⟨?_, hlc, hwc⟩, fun _ => hin⟩, nofun, nofun⟩ nofun
      fun _ => hshift (.inr (.inl hp))
    · exact (accInv_iff_lt _).2 (shiftRight_liveBits_lt _ ((accInv_iff_lt _).1 hacc))
    · exact Nat.lt_of_le_of_ne hw hne

/-- RAW keeps the invariant: the clamp bounds `written`, and a byte read came from inside the block. -/
theorem execRaw_keeps_inv (hs : s.Inv) (hp : s.engine.phase = .decode)
    (h : execRaw e x s = .next t) : t.Inv := by
  have hrun : s.engine.phase.running := .inr (.inr hp)
  obtain ⟨⟨-, hbuf⟩, ⟨hbr, -, hpast, -⟩, -, -, -, -, -, hshift⟩ := id hs
  obtain ⟨-, ⟨hw, hlc, hwc⟩, hlit⟩ := hpast (.inr (.inl hp))
  rcases execRaw_next h with ⟨st, rfl⟩ | ⟨r, br, hn, ⟨st, rfl⟩ | ⟨hin, rfl⟩⟩
  · exact raise_keeps_inv hs hrun (sameBlock_consumeCode e) rfl hbr st
  · exact raise_keeps_inv hs hrun (sameBlock_rawReady e r br) rfl (next_keeps_inv hbr hn) st
  · refine (sameBlock_rawDone ..).keeps_inv hs hrun (wf_copyInput _ _ _ _ hbuf)
      ⟨next_keeps_inv hbr hn, nofun, fun _ => ⟨?_, ⟨clamp_le _ _ hw, hlc, hwc⟩, ?_⟩, nofun, nofun⟩
      nofun fun _ => hshift (.inr (.inl hp))
    · exact (accInv_iff_lt _).2 (shiftRight_lt _ _)
    · intro (hpos : 0 < s.engine.written + s.engine.clamp (copyLength e x))
      show s.engine.inPtr + s.engine.clamp (copyLength e x) ≤ s.engine.inLen
      rcases Nat.eq_zero_or_pos (s.engine.clamp (copyLength e x)) with hz | ha
      · rw [hz] at hpos ⊢
        exact hlit hpos
      · exact hin ha

/-- MATCH keeps the invariant: a byte copied has a byte written before it. -/
theorem execMatch_keeps_inv (hs : s.Inv) (hp : s.engine.phase = .decode)
    (h : execMatch e x y s = .next t) : t.Inv := by
  have hrun : s.engine.phase.running := .inr (.inr hp)
  obtain ⟨⟨-, hbuf⟩, ⟨hbr, -, hpast, hcap, -⟩, -, -, -, -, -, hshift⟩ := id hs
  obtain ⟨-, ⟨hw, hlc, hwc⟩, hlit⟩ := hpast (.inr (.inl hp))
  rcases execMatch_next h with ⟨st, rfl⟩ | ⟨r, br, hn, ⟨st, rfl⟩ | ⟨hgood, rfl⟩⟩
  · exact raise_keeps_inv hs hrun (sameBlock_consumeCode e) rfl hbr st
  · exact raise_keeps_inv hs hrun (sameBlock_matchReady e r br) rfl (next_keeps_inv hbr hn) st
  · refine (sameBlock_matchDone ..).keeps_inv hs hrun (wf_copyOutput _ _ _ hbuf)
      ⟨next_keeps_inv hbr hn, nofun, fun _ => ⟨?_, ⟨clamp_le _ _ hw, hlc, hwc⟩, ?_⟩,
        fun _ => hcap hp, nofun⟩
      nofun fun _ => hshift (.inr (.inl hp))
    · exact (accInv_iff_lt _).2 (shiftRight_liveBits_lt _ (shiftRight_lt _ _))
    · intro (hpos : 0 < s.engine.written + s.engine.clamp (copyLength e x))
      exact hlit (Nat.pos_of_ne_zero fun hz => hgood ⟨by omega, by omega⟩)

/-- DECODE keeps the invariant. -/
theorem decodeStep_keeps_inv (hs : s.Inv) (hp : s.engine.phase = .decode)
    (h : decodeStep s = .next t) : t.Inv := by
  obtain ⟨i, -, hi⟩ := decodeStep_next h
  cases i with
  | lit e => exact execLit_keeps_inv hs hp hi
  | raw e x => exact execRaw_keeps_inv hs hp hi
  | matchCopy e x y => exact execMatch_keeps_inv hs hp hi

end EngineSteps

/-! ### The container decoder's steps -/

section ContainerSteps

variable {s t : State}

/-- A step of the container decoder that starts no block leaves the engine alone; what remains to be
shown is the catalog's acceptance and the blocks it goes on with. -/
theorem withContainer_keeps_inv {m : Memory} {c : Container} (hs : s.Inv)
    (hrest : ¬s.engine.phase.running) (hm : m.wf = true)
    (hcat : Catalog.wellFormed (catalogOf s.store) = true) (hdec : c.phase ≠ .decoding)
    (hblocks : c.phase = .nextBlock →
      (∀ b ∈ c.blocks, b.start ≤ b.stop ∧ b.stop ≤ s.file.len) ∧
        c.writeCursor ≤ c.totalUncompressedSize) :
    ((s.withBuf m).withContainer c).Inv := by
  obtain ⟨⟨hfile, -⟩, heng, hstore, -, -, -, -, hshift⟩ := hs
  exact ⟨⟨hfile, hm⟩, heng, hstore, fun _ => hcat, fun h => absurd h hrest, fun h => absurd h hdec,
    fun h => hblocks (h.resolve_right hdec), hshift⟩

/-- The engine START leaves meets its invariant. -/
theorem started_inv {l : Launch} (w : Word) (h : l.windowCapacity ≤ Config.maxBlockOutput) :
    (Engine.started l w).Inv := by
  simpa [Engine.Inv, BitReader.Inv, Engine.started, Phase.pastSetup] using h

/-- START of the next block keeps the invariant: the engine is the one of 70_reset_and_hazards.md R270,
on the launch of 45_host_container.md R219. -/
theorem start_keeps_inv {b : BlockRange} {u : State} (hs : s.Inv) (hp : s.container.phase = .nextBlock)
    (hb : b ∈ s.container.blocks) (h : start (s.container.launchOf b) s = .ok u) :
    (u.withContainer { s.container with phase := .decoding }).Inv := by
  obtain ⟨hmem, -, hstore, hcat, -, -, hblocks, -⟩ := hs
  have hblocks := hblocks (.inl hp)
  obtain ⟨-, rfl⟩ := (start_ok_iff _ _ _).1 h
  obtain ⟨hle, hlen⟩ := hblocks.1 b hb
  refine ⟨hmem, started_inv _ (min_le_left _ _), hstore, fun _ => hcat (by simp [hp]), fun _ => rfl,
    fun _ => ⟨nofun, ?_, rfl, rfl⟩, fun _ => hblocks, ?_⟩
  · exact (Nat.add_sub_cancel' hle).trans_le hlen
  · simp [Phase.pastSetup, Engine.started]

/-- Every step of the container decoder keeps the invariant. -/
theorem containerStep_keeps_inv (hs : s.Inv) (hrest : ¬s.engine.phase.running)
    (h : containerStep s = .next t) : t.Inv := by
  obtain ⟨⟨-, hbuf⟩, -, -, hcat, -, -, hblocks, -⟩ := id hs
  rcases containerStep_next h with ⟨-, h⟩ | ⟨hp, h⟩ | ⟨hp, h⟩ | ⟨hp, h⟩
  · obtain ⟨hacc, rfl⟩ := powerUpStep_next h
    exact withContainer_keeps_inv hs hrest hbuf hacc nofun nofun
  · have hacc := hcat (by simp [hp])
    rcases checkFileStep_next h with ⟨st, rfl⟩ | ⟨blocks, hparse, rfl⟩
    · exact withContainer_keeps_inv hs hrest hbuf hacc nofun nofun
    · exact withContainer_keeps_inv hs hrest rfl hacc nofun
        fun _ => ⟨parse_ok_ranges hparse, Nat.zero_le _⟩
  · have hacc := hcat (by simp [hp])
    rcases nextBlockStep_next h with rfl | ⟨b, u, hb, hu, rfl⟩
    · exact withContainer_keeps_inv hs hrest hbuf hacc nofun nofun
    · exact start_keeps_inv hs hp (List.mem_of_getElem? hb) hu
  · have hacc := hcat (by simp [hp])
    rcases collectStep_next h with ⟨-, rfl⟩ | ⟨-, rfl⟩
    · exact withContainer_keeps_inv hs hrest hbuf hacc nofun nofun
    · exact withContainer_keeps_inv hs hrest hbuf hacc nofun
        fun _ => ⟨(hblocks (.inr hp)).1, min_le_right _ _⟩

end ContainerSteps

/-- Settles O35, step by step of the engine and of the container decoder. -/
theorem stepKeepsTheInvariant : Obligations.StepKeepsTheInvariant := by
  unfold Obligations.StepKeepsTheInvariant
  intro s t hs h
  rcases step_next_cases h with ⟨hp, h⟩ | ⟨hp, h⟩ | ⟨hp, h⟩ | ⟨hrest, h⟩
  · exact setupStep_keeps_inv hs hp h
  · exact checkStep_keeps_inv hs hp h
  · exact decodeStep_keeps_inv hs hp h
  · exact containerStep_keeps_inv hs hrest h

end Sys2Proof.Machine
end

section
/-! SUPPORT. Every step keeps reader and accumulator in agreement with the block's stream, and a command
moves `streamPos` by its length (10_state.md R24, R36; 42_block_decoder.md R164, R166, R167). -/

namespace Sys2Proof.Machine

/-- The stream's invariant says nothing of an engine that does not run. -/
theorem streamInv_of_not_running {s : State} (h : ¬s.engine.phase.running) : s.StreamInv := by
  rw [not_or, not_or] at h
  exact ⟨fun hp => absurd hp h.1, fun hp => absurd hp (not_or.2 h.2)⟩

/-- What is to be shown of a state from SETUP's end on. -/
theorem streamInv_of_pastSetup {t : State} (hp : t.engine.phase ≠ .setup)
    (hf : t.engine.br.Follows t.fetchWord) (hd : 32 ≤ t.engine.br.delivered) (ha : t.AccTracks) :
    t.StreamInv :=
  ⟨fun h => absurd h hp, fun _ => ⟨hf, hd, ha⟩⟩

theorem streamInv_raise (s : State) (st : Status) : (s.raise st).StreamInv :=
  streamInv_of_not_running (by simp)

/-! ### The accumulator -/

section Accumulator

variable {s t : State}

/-- `k` bits dropped from an accumulator whose 32 bits are all live: where `full` holds the last 32 bits
delivered, `full >>> k` with `k` consumed bits tracks the stream. -/
theorem accTracks_of_full {full : Word} {k : Nat} (hacc : t.engine.acc = full >>> k)
    (hpend : t.engine.pendingBits = k) (hd : 32 ≤ t.engine.br.delivered)
    (hfull : ∀ j, j < 32 → full.getLsbD j = t.streamBit (t.engine.br.delivered - 32 + j)) :
    t.AccTracks := by
  rw [accTracks_iff, hpend, hacc]
  intro hk j hj
  rw [BitVec.getLsbD_ushiftRight, Engine.streamPos, hpend]
  by_cases hlive : j < 32 - k
  · rw [hfull _ (by omega), show t.engine.br.delivered - 32 + (k + j) =
      t.engine.br.delivered - (32 - k) + j by omega]
    simp [hlive]
  · rw [BitVec.getLsbD_of_ge _ _ (by omega : 32 ≤ k + j)]
    simp [hlive]

/-- The code field consumed, the live bits are those after it. -/
theorem accTracks_consumeCode (e : CodeTableEntry) (hd : 32 ≤ s.engine.br.delivered)
    (ha : s.AccTracks) : (s.consumeCode e).AccTracks := by
  rw [accTracks_iff] at ha ⊢
  intro hk j hj
  simp only [consumeCode_engine_pendingBits] at hk
  rw [consumeCode_engine_acc, BitVec.getLsbD_ushiftRight, Engine.streamPos, consumeCode_engine_br,
    consumeCode_engine_pendingBits, (sameBlock_consumeCode e).streamBit]
  by_cases hlive : j < 32 - (s.engine.pendingBits + e.codeLen.toNat)
  · rw [ha (by omega) _ (by omega), Engine.streamPos,
      show s.engine.br.delivered - (32 - s.engine.pendingBits) + (e.codeLen.toNat + j) =
        s.engine.br.delivered - (32 - (s.engine.pendingBits + e.codeLen.toNat)) + j by omega]
    simp [hlive, show e.codeLen.toNat + j < 32 - s.engine.pendingBits by omega]
  · by_cases hbit : e.codeLen.toNat + j < 32
    · rw [ha (by omega) _ hbit]
      simp [hlive, show ¬e.codeLen.toNat + j < 32 - s.engine.pendingBits by omega]
    · rw [BitVec.getLsbD_of_ge _ _ (by omega : 32 ≤ e.codeLen.toNat + j)]
      simp [hlive]

/-- Refill puts the next stream bits above the live ones, so that the accumulator holds the last 32
bits delivered (42_block_decoder.md R166). -/
theorem refilled_bit {r : Word} {br : BitReader} (hinv : s.engine.br.Inv)
    (hf : s.engine.br.Follows s.fetchWord) (hd : 32 ≤ s.engine.br.delivered) (ha : s.AccTracks)
    (hn : s.engine.br.next s.fetchWord s.engine.pendingBits = .ok (r, br)) {j : Nat} (hj : j < 32) :
    (s.engine.acc ||| r).getLsbD j = s.streamBit (br.delivered - 32 + j) := by
  obtain ⟨-, hn32⟩ := next_ok_range hn
  rw [BitVec.getLsbD_or, (accTracks_iff s).1 ha hn32 j hj, next_result_bit hinv hf hn hj,
    next_delivered hinv hf hn, ← streamBit_eq, Engine.streamPos]
  by_cases hlive : j < 32 - s.engine.pendingBits
  · rw [show s.engine.br.delivered - (32 - s.engine.pendingBits) + j =
      s.engine.br.delivered + s.engine.pendingBits - 32 + j by omega]
    simp [hlive, Nat.not_le_of_lt hlive]
  · rw [show s.engine.br.delivered + (j - (32 - s.engine.pendingBits)) =
      s.engine.br.delivered + s.engine.pendingBits - 32 + j by omega]
    simp [hlive, Nat.le_of_not_lt hlive]

/-- After the code field and the refill of RAW and MATCH, and `k` extra bits dropped, reader and
accumulator follow the stream. -/
theorem streamInv_after_refill {e : CodeTableEntry} {r : Word} {br : BitReader} {k : Nat}
    (hinv : s.engine.br.Inv) (hf : s.engine.br.Follows s.fetchWord)
    (hd : 32 ≤ s.engine.br.delivered) (ha : s.AccTracks)
    (hn : s.engine.br.next s.fetchWord (s.engine.pendingBits + e.codeLen.toNat) = .ok (r, br))
    (hb : SameBlock s t) (hp : t.engine.phase ≠ .setup) (hbr : t.engine.br = br)
    (hacc : t.engine.acc = ((s.engine.acc >>> e.codeLen.toNat) ||| r) >>> k)
    (hpend : t.engine.pendingBits = k) : t.StreamInv := by
  subst hbr
  have hd' : 32 ≤ t.engine.br.delivered := by rw [next_delivered hinv hf hn]; omega
  refine streamInv_of_pastSetup hp (hb.fetchWord ▸ next_keeps_follows hinv hf hn) hd'
    (accTracks_of_full hacc hpend hd' fun j hj => ?_)
  rw [hb.streamBit]
  exact refilled_bit (s := s.consumeCode e) hinv hf hd (accTracks_consumeCode e hd ha) hn hj

end Accumulator

/-! ### The steps -/

section Steps

variable {s t : State}

/-- A reader that has delivered nothing has delivered 64 bits after SETUP's three requests. -/
theorem setup_delivered {br₀ br₁ br₂ br₃ : BitReader} {fetch : Nat → Word} {r₁ r₂ f : Word}
    (hinv : br₀.Inv) (hf : br₀.Follows fetch) (hd : br₀.delivered = 0)
    (h₁ : br₀.next fetch 16 = .ok (r₁, br₁)) (h₂ : br₁.next fetch 16 = .ok (r₂, br₂))
    (h₃ : br₂.next fetch 32 = .ok (f, br₃)) :
    br₃.Follows fetch ∧ br₃.delivered = 64 ∧
      ∀ j, j < 32 → f.getLsbD j = wordStreamBit fetch (32 + j) := by
  have hinv₁ := next_keeps_inv hinv h₁
  have hf₁ := next_keeps_follows hinv hf h₁
  have hinv₂ := next_keeps_inv hinv₁ h₂
  have hf₂ := next_keeps_follows hinv₁ hf₁ h₂
  have hd₂ : br₂.delivered = 32 := by
    rw [next_delivered hinv₁ hf₁ h₂, next_delivered hinv hf h₁, hd]
  refine ⟨next_keeps_follows hinv₂ hf₂ h₃, ?_, fun j hj => ?_⟩
  · rw [next_delivered hinv₂ hf₂ h₃, hd₂]
  · rw [next_result_bit hinv₂ hf₂ h₃ hj, hd₂]
    simp

/-- SETUP keeps the stream's invariant: the accumulator is the selector field, stream bits 32 to 63,
without its two bits. -/
theorem setupStep_keeps_streamInv (hs : s.Inv) (hst : s.StreamInv) (hp : s.engine.phase = .setup)
    (h : setupStep s = .next t) : t.StreamInv := by
  obtain ⟨-, ⟨hinv, -⟩, -⟩ := hs
  obtain ⟨hf, hd⟩ := hst.1 hp
  obtain ⟨r₁, br₁, r₂, br₂, f, br₃, h₁, h₂, h₃, hres⟩ := setupStep_next h
  obtain ⟨hf₃, hd₃, hbits⟩ := setup_delivered hinv hf hd h₁ h₂ h₃
  rcases hres with ⟨st, rfl⟩ | ⟨tab, -, -, rfl⟩
  · exact streamInv_raise _ _
  · have hd' : 32 ≤ br₃.delivered := by omega
    refine streamInv_of_pastSetup nofun hf₃ hd' (accTracks_of_full rfl rfl hd' fun j hj => ?_)
    rw [(sameBlock_setupDone ..).streamBit, hbits j hj]
    show _ = s.streamBit (br₃.delivered - 32 + j)
    rw [hd₃, streamBit_eq]

/-- CHECK touches neither reader nor accumulator. -/
theorem checkStep_keeps_streamInv (hst : s.StreamInv) (hp : s.engine.phase = .check)
    (h : checkStep s = .next t) : t.StreamInv := by
  obtain ⟨hf, hd, ha⟩ := hst.2 (.inl hp)
  rcases checkStep_next h with ⟨-, rfl⟩ | ⟨-, rfl⟩ <;> exact streamInv_of_pastSetup nofun hf hd ha

/-- A command keeps the stream's invariant: LIT consumes its code, RAW and MATCH also refill and drop
their extra bits. -/
theorem exec_keeps_streamInv {i : Instr} (hs : s.Inv) (hst : s.StreamInv)
    (hp : s.engine.phase = .decode) (h : exec i s = .next t) : t.StreamInv := by
  obtain ⟨-, ⟨hinv, -⟩, -⟩ := hs
  obtain ⟨hf, hd, ha⟩ := hst.2 (.inr hp)
  cases i with
  | lit e =>
    rcases execLit_next h with ⟨st, rfl⟩ | ⟨-, -, rfl⟩
    · exact streamInv_raise _ _
    · exact streamInv_of_pastSetup nofun hf hd (accTracks_consumeCode e hd ha)
  | raw e x =>
    rcases execRaw_next h with ⟨st, rfl⟩ | ⟨r, br, hn, ⟨st, rfl⟩ | ⟨-, rfl⟩⟩
    · exact streamInv_raise _ _
    · exact streamInv_raise _ _
    · exact streamInv_after_refill hinv hf hd ha hn (sameBlock_rawDone ..) nofun rfl rfl rfl
  | matchCopy e x y =>
    rcases execMatch_next h with ⟨st, rfl⟩ | ⟨r, br, hn, ⟨st, rfl⟩ | ⟨-, rfl⟩⟩
    · exact streamInv_raise _ _
    · exact streamInv_raise _ _
    · exact streamInv_after_refill hinv hf hd ha hn (sameBlock_matchDone ..) nofun rfl
        (BitVec.shiftRight_add _ _ _).symm rfl

theorem started_delivered (l : Launch) (w : Word) : (Engine.started l w).br.delivered = 0 := by
  simp [Engine.started, BitReader.delivered]

/-- A step of the container decoder leaves the engine resting, or starts it at stream position 0. -/
theorem containerStep_keeps_streamInv (hrest : ¬s.engine.phase.running)
    (h : containerStep s = .next t) : t.StreamInv := by
  rcases containerStep_next h with ⟨-, h⟩ | ⟨-, h⟩ | ⟨-, h⟩ | ⟨-, h⟩
  · obtain ⟨-, rfl⟩ := powerUpStep_next h
    exact streamInv_of_not_running hrest
  · rcases checkFileStep_next h with ⟨st, rfl⟩ | ⟨blocks, -, rfl⟩ <;>
      exact streamInv_of_not_running hrest
  · rcases nextBlockStep_next h with rfl | ⟨b, u, -, hu, rfl⟩
    · exact streamInv_of_not_running hrest
    · obtain ⟨-, rfl⟩ := (start_ok_iff _ _ _).1 hu
      exact ⟨fun _ =>
        ⟨⟨rfl, le_refl 4, fun h0 => absurd h0 (lt_irrefl 0)⟩, started_delivered _ _⟩, nofun⟩
  · rcases collectStep_next h with ⟨-, rfl⟩ | ⟨-, rfl⟩ <;> exact streamInv_of_not_running hrest

end Steps

/-- Settles O41, step by step of the engine and of the container decoder. -/
theorem stepKeepsTheStreamPosition : Obligations.StepKeepsTheStreamPosition := by
  unfold Obligations.StepKeepsTheStreamPosition
  intro s t hs hst h
  rcases step_next_cases h with ⟨hp, h⟩ | ⟨hp, h⟩ | ⟨hp, h⟩ | ⟨hrest, h⟩
  · exact setupStep_keeps_streamInv hs hst hp h
  · exact checkStep_keeps_streamInv hst hp h
  · obtain ⟨i, -, hi⟩ := decodeStep_next h
    exact exec_keeps_streamInv hs hst hp hi
  · exact containerStep_keeps_streamInv hrest h

/-! ### The stream position -/

section Position

variable {s t : State}

/-- SETUP, where it does not fault, leaves 64 bits delivered and 30 of them live. -/
theorem setupStep_streamPos (hs : s.Inv) (hst : s.StreamInv) (hp : s.engine.phase = .setup)
    (h : setupStep s = .next t) (ht : t.engine.phase = .check) : t.engine.streamPos = 34 := by
  obtain ⟨-, ⟨hinv, -⟩, -⟩ := hs
  obtain ⟨hf, hd⟩ := hst.1 hp
  obtain ⟨r₁, br₁, r₂, br₂, f, br₃, h₁, h₂, h₃, hres⟩ := setupStep_next h
  obtain ⟨-, hd₃, -⟩ := setup_delivered hinv hf hd h₁ h₂ h₃
  rcases hres with ⟨st, rfl⟩ | ⟨tab, -, -, rfl⟩
  · cases ht
  · show br₃.delivered - (32 - 2) = 34
    rw [hd₃]

/-- The position after a refill of all but the live bits and `k` extra bits dropped. -/
theorem streamPos_after_refill {e : CodeTableEntry} {r : Word} {br : BitReader} {k : Nat}
    (hinv : s.engine.br.Inv) (hf : s.engine.br.Follows s.fetchWord)
    (hd : 32 ≤ s.engine.br.delivered)
    (hn : s.engine.br.next s.fetchWord (s.engine.pendingBits + e.codeLen.toNat) = .ok (r, br))
    (hbr : t.engine.br = br) (hpend : t.engine.pendingBits = k) (hk : k ≤ 32) :
    t.engine.streamPos = s.engine.streamPos + (e.codeLen.toNat + k) := by
  obtain ⟨-, hn32⟩ := next_ok_range hn
  rw [Engine.streamPos, Engine.streamPos, hbr, hpend, next_delivered hinv hf hn]
  omega

/-- A command that does not fault moves the position by its length (30_encoding.md R86). -/
theorem exec_streamPos {i : Instr} (hs : s.Inv) (hst : s.StreamInv) (hp : s.engine.phase = .decode)
    (hcode : s.engine.pendingBits + i.entry.codeLen.toNat ≤ 32)
    (hextra : i.bitLength ≤ i.entry.codeLen.toNat + 32) (h : exec i s = .next t)
    (ht : t.engine.phase ≠ .fault) : t.engine.streamPos = s.engine.streamPos + i.bitLength := by
  obtain ⟨-, ⟨hinv, -⟩, -⟩ := hs
  obtain ⟨hf, hd, -⟩ := hst.2 (.inr hp)
  cases i with
  | lit e =>
    rcases execLit_next h with ⟨st, rfl⟩ | ⟨-, -, rfl⟩
    · exact absurd rfl ht
    · show s.engine.br.delivered - (32 - (s.engine.pendingBits + e.codeLen.toNat)) =
        s.engine.br.delivered - (32 - s.engine.pendingBits) + e.codeLen.toNat
      simp only [Instr.entry] at hcode
      omega
  | raw e x =>
    rcases execRaw_next h with ⟨st, rfl⟩ | ⟨r, br, hn, ⟨st, rfl⟩ | ⟨-, rfl⟩⟩
    · exact absurd rfl ht
    · exact absurd rfl ht
    · exact streamPos_after_refill hinv hf hd hn rfl rfl (Nat.le_of_add_le_add_left hextra)
  | matchCopy e x y =>
    rcases execMatch_next h with ⟨st, rfl⟩ | ⟨r, br, hn, ⟨st, rfl⟩ | ⟨-, rfl⟩⟩
    · exact absurd rfl ht
    · exact absurd rfl ht
    · rw [Instr.bitLength, Nat.add_assoc] at hextra ⊢
      exact streamPos_after_refill hinv hf hd hn rfl rfl (Nat.le_of_add_le_add_left hextra)

end Position

/-- Settles O43: 64 bits delivered less 30 live ones, and a case for each command. -/
theorem streamPositionAdvances : Obligations.StreamPositionAdvances := by
  unfold Obligations.StreamPositionAdvances
  refine ⟨fun s t hs hst hp h ht => ?_, fun s t i hs hst hp hi hcode hextra h ht => ?_⟩
  · rw [step_running (.inl hp), engineStep, hp] at h
    exact setupStep_streamPos hs hst hp h ht
  · rw [step_running (.inr (.inr hp)), engineStep, hp] at h
    obtain ⟨i', hi', hexec⟩ := decodeStep_next h
    rw [hi] at hi'
    cases hi'
    exact exec_streamPos hs hst hp hcode hextra hexec ht

end Sys2Proof.Machine
end

section
/-! SUPPORT. Input and output memory (20_memory.md): the word fetch byte by byte (R53), what no step writes
(R51, R65), the bytes LIT and RAW store (R57), and the stop at the window's end (R52; log 9). -/

namespace Sys2Proof.Machine

/-! ### The word fetch -/

/-- Byte `i` of a fetched word is the block's byte at `a + i` (20_memory.md R53). -/
theorem fetchWord_byte (s : State) (a : Nat) {i : Nat} (hi : i < 4) :
    (s.fetchWord a).extractLsb' (8 * i) 8 = s.fetchByte (a + i) := by
  refine BitVec.eq_of_getLsbD_eq fun j hj => ?_
  have hdiv : (8 * i + j) / 8 = i := by omega
  have hmod : (8 * i + j) % 8 = j := by omega
  rw [BitVec.getLsbD_extractLsb', getLsbD_fetchWord s a (by omega), hdiv, hmod]
  simp [hj]

/-- Settles O6: the fetched word's bytes are block bytes, and those are zero-filled past `L`. -/
theorem fetchWordZeroFills : Obligations.FetchWordZeroFills := by
  unfold Obligations.FetchWordZeroFills
  intro s a i hi
  rw [fetchWord_byte s a hi, State.fetchByte]

/-! ### What no step writes -/

/-- Both states have the same file and the same parameters: what 20_memory.md R51 and R65 make
read-only. -/
def SameInputs (s t : State) : Prop :=
  t.file = s.file ∧ t.store = s.store ∧ t.literalStart = s.literalStart

theorem SameInputs.refl (s : State) : SameInputs s s := ⟨rfl, rfl, rfl⟩

section Inputs

variable {s t : State}

theorem SameInputs.raise (h : SameInputs s t) (st : Status) : SameInputs s (t.raise st) := h

theorem SameInputs.withEngine (h : SameInputs s t) (e : Engine) : SameInputs s (t.withEngine e) := h

theorem SameInputs.withBuf (h : SameInputs s t) (m : Memory) : SameInputs s (t.withBuf m) := h

theorem SameInputs.withContainer (h : SameInputs s t) (c : Container) :
    SameInputs s (t.withContainer c) := h

/-- SETUP writes engine registers alone. -/
theorem setupStep_sameInputs (h : setupStep s = .next t) : SameInputs s t := by
  obtain ⟨_, _, _, _, _, _, -, -, -, ⟨st, rfl⟩ | ⟨tab, -, -, rfl⟩⟩ := setupStep_next h
  · exact ((SameInputs.refl s).withEngine _).raise st
  · exact (SameInputs.refl s).withEngine _

/-- CHECK writes the phase alone. -/
theorem checkStep_sameInputs (h : checkStep s = .next t) : SameInputs s t := by
  rcases checkStep_next h with ⟨-, rfl⟩ | ⟨-, rfl⟩ <;> exact (SameInputs.refl s).withEngine _

/-- A command writes engine registers and, where it does not fault, the buffer. -/
theorem exec_sameInputs {i : Instr} (h : exec i s = .next t) : SameInputs s t := by
  cases i with
  | lit e =>
    rcases execLit_next h with ⟨st, rfl⟩ | ⟨-, -, rfl⟩
    · exact ((SameInputs.refl s).withEngine _).raise st
    · exact (((SameInputs.refl s).withEngine _).withBuf _).withEngine _
  | raw e x =>
    rcases execRaw_next h with ⟨st, rfl⟩ | ⟨r, br, -, ⟨st, rfl⟩ | ⟨-, rfl⟩⟩
    · exact ((SameInputs.refl s).withEngine _).raise st
    · exact ((SameInputs.refl s).withEngine _).raise st
    · exact (((SameInputs.refl s).withEngine _).withBuf _).withEngine _
  | matchCopy e x y =>
    rcases execMatch_next h with ⟨st, rfl⟩ | ⟨r, br, -, ⟨st, rfl⟩ | ⟨-, rfl⟩⟩
    · exact ((SameInputs.refl s).withEngine _).raise st
    · exact ((SameInputs.refl s).withEngine _).raise st
    · exact (((SameInputs.refl s).withEngine _).withBuf _).withEngine _

/-- The container decoder writes its own registers, the buffer it allocates and the engine it starts. -/
theorem containerStep_sameInputs (h : containerStep s = .next t) : SameInputs s t := by
  rcases containerStep_next h with ⟨-, h⟩ | ⟨-, h⟩ | ⟨-, h⟩ | ⟨-, h⟩
  · obtain ⟨-, rfl⟩ := powerUpStep_next h
    exact (SameInputs.refl s).withContainer _
  · rcases checkFileStep_next h with ⟨st, rfl⟩ | ⟨blocks, -, rfl⟩
    · exact (SameInputs.refl s).withContainer _
    · exact ((SameInputs.refl s).withBuf _).withContainer _
  · rcases nextBlockStep_next h with rfl | ⟨b, u, -, hu, rfl⟩
    · exact (SameInputs.refl s).withContainer _
    · obtain ⟨-, rfl⟩ := (start_ok_iff _ _ _).1 hu
      exact ((SameInputs.refl s).withEngine _).withContainer _
  · rcases collectStep_next h with ⟨-, rfl⟩ | ⟨-, rfl⟩ <;> exact (SameInputs.refl s).withContainer _

end Inputs

/-- Settles O39, step by step of the engine and of the container decoder. -/
theorem inputAndStoreAreReadOnly : Obligations.InputAndStoreAreReadOnly := by
  unfold Obligations.InputAndStoreAreReadOnly
  intro s t h
  rcases step_next_cases h with ⟨-, h⟩ | ⟨-, h⟩ | ⟨-, h⟩ | ⟨-, h⟩
  · exact setupStep_sameInputs h
  · exact checkStep_sameInputs h
  · obtain ⟨i, -, hi⟩ := decodeStep_next h
    exact exec_sameInputs hi
  · exact containerStep_sameInputs h

/-! ### The bytes LIT and RAW store -/

section Literals

variable {e : CodeTableEntry} {x : Nat} {s t : State}

theorem litDone_buf (e : CodeTableEntry) (s : State) :
    (litDone e s).buf =
      s.buf.write (s.engine.windowBase + s.engine.written)
        (s.file.bytes.read (s.engine.inBase + s.engine.inPtr)) := rfl

theorem rawDone_buf (e : CodeTableEntry) (amount : Nat) (r : Word) (br : BitReader) (s : State) :
    (rawDone e amount r br s).buf =
      copyInput s.file.bytes amount (s.engine.inBase + s.engine.inPtr)
        (s.engine.windowBase + s.engine.written) s.buf := rfl

/-- A LIT that reaches CHECK has copied its byte: a fault leads to FAULT. -/
theorem execLit_check (h : execLit e s = .next t) (hc : t.engine.phase = .check) : t = litDone e s := by
  rcases execLit_next h with ⟨st, rfl⟩ | ⟨-, -, ht⟩
  · cases hc
  · exact ht

/-- A RAW that reaches CHECK has copied its clamped run: a fault leads to FAULT. -/
theorem execRaw_check (h : execRaw e x s = .next t) (hc : t.engine.phase = .check) :
    ∃ r br, t = rawDone e (s.engine.clamp (copyLength e x)) r br s := by
  rcases execRaw_next h with ⟨st, rfl⟩ | ⟨r, br, -, ⟨st, rfl⟩ | ⟨-, ht⟩⟩
  · cases hc
  · cases hc
  · exact ⟨r, br, ht⟩

end Literals

/-- Settles O23: LIT's write and RAW's copy, read back byte by byte. -/
theorem literalBytesLandAtWritten : Obligations.LiteralBytesLandAtWritten := by
  unfold Obligations.LiteralBytesLandAtWritten
  refine fun e x s t hbuf => ⟨fun h hc => ?_, fun h hc => ?_⟩
  · obtain rfl := execLit_check h hc
    rw [litDone_buf]
    exact ⟨read_write_same hbuf _ _, fun a ha => read_write_other _ _ ha⟩
  · obtain ⟨r, br, rfl⟩ := execRaw_check h hc
    rw [rawDone_buf]
    exact ⟨fun j hj => copyInput_read _ _ _ _ hbuf hj, fun a ha => copyInput_read_other _ _ _ _ _ ha⟩

/-! ### The stop at the window's end -/

section Outside

variable {e : CodeTableEntry} {x y : Nat} {s : State}

/-- A LIT that passes its checks and would write outside the window stops. -/
theorem execLit_outside (hw : s.engine.written ≠ s.engine.logicalCapacity)
    (hi : s.engine.inPtr < s.engine.inLen) (ho : s.engine.leavesWindow 1) :
    execLit e s = .fault (.outsideWindow s.engine.firstOutside) := by
  rw [execLit_eq, if_neg hw, if_neg (Nat.not_le_of_lt hi), if_pos ho]

/-- A RAW that passes its checks and would write outside the window stops. -/
theorem execRaw_outside (h1 : 1 ≤ s.engine.pendingBits + e.codeLen.toNat)
    (h32 : s.engine.pendingBits + e.codeLen.toNat ≤ 32)
    (hi : s.engine.inPtr + s.engine.clamp (copyLength e x) ≤ s.engine.inLen)
    (ho : s.engine.leavesWindow (s.engine.clamp (copyLength e x))) :
    execRaw e x s = .fault (.outsideWindow s.engine.firstOutside) := by
  obtain ⟨r, br, hn⟩ := next_ok_of_range s.fetchWord s.engine.br h1 h32
  rw [execRaw_eq x hn, if_neg fun hc => Nat.not_lt_of_le hi hc.2, if_pos ho]

/-- A MATCH that passes its checks and would write outside the window stops. -/
theorem execMatch_outside (h1 : 1 ≤ s.engine.pendingBits + e.codeLen.toNat)
    (h32 : s.engine.pendingBits + e.codeLen.toNat ≤ 32) (hgood : ¬badReference e x y s)
    (ho : s.engine.leavesWindow (s.engine.clamp (copyLength e x))) :
    execMatch e x y s = .fault (.outsideWindow s.engine.firstOutside) := by
  obtain ⟨r, br, hn⟩ := next_ok_of_range s.fetchWord s.engine.br h1 h32
  rw [execMatch_eq x y hn, if_neg hgood, if_pos ho]

/-- Where `written` stands at or past the window's end, that is the first offset outside. -/
theorem firstOutside_of_full (g : Engine) (h : g.windowCapacity ≤ g.written) :
    g.firstOutside = g.written := max_eq_left h

end Outside

/-- Settles O26, command by command. -/
theorem copiesOutsideTheWindowStop : Obligations.CopiesOutsideTheWindowStop := by
  unfold Obligations.CopiesOutsideTheWindowStop
  refine fun e x y s => ⟨fun hw hi hfull => ?_, fun h1 h32 hi ho => ?_, fun h1 h32 hpos hle ho => ?_⟩
  · rw [← firstOutside_of_full s.engine hfull]
    exact execLit_outside hw hi ⟨Nat.one_pos, Nat.lt_succ_of_le hfull⟩
  · exact execRaw_outside h1 h32 hi ho
  · have hgood : ¬badReference e x y s := fun hbad =>
      hbad.2.elim hpos.ne' (Nat.not_lt_of_le hle)
    exact execMatch_outside h1 h32 hgood ho

end Sys2Proof.Machine
end

section
/-! SUPPORT. The decode index and the lookup: what each slot holds (41_code_tables.md R143, R144), and
that with an accepted catalog every selector names a table and every pattern decodes (R141, R145;
30_encoding.md R89). -/

namespace Sys2Proof

/-! ### The catalog's checks -/

theorem matchesPattern_iff (e : CodeTableEntry) (p : Nat) :
    e.matchesPattern p = true ↔ p % 2 ^ e.codeLen.toNat = e.code.toNat := by
  simp [CodeTableEntry.matchesPattern]

/-- The checks of one accepted table, CT-COMPLETE read as a count (41_code_tables.md R141). -/
theorem CodeTable.wellFormed_iff (t : CodeTable) :
    t.wellFormed = true ↔
      t.hasCount = true ∧ t.hasLengths = true ∧ t.hasCodes = true ∧
        (∀ p < 2 ^ maxLenOf t.entries, t.entries.countP (·.matchesPattern p) = 1) ∧
        t.hasKinds = true := by
  simp [CodeTable.wellFormed, CodeTable.isComplete, and_assoc]

/-- An accepted catalog is four accepted tables (41_code_tables.md R141). -/
theorem Catalog.wellFormed_iff (c : Catalog) :
    Catalog.wellFormed c = true ↔
      c.length = Config.tableCount ∧ ∀ t ∈ c, t.wellFormed = true := by
  have hdefect : Catalog.wellFormed c = true ↔
      (c.length == Config.tableCount && c.all (·.hasCount)) = true ∧ c.all (·.hasLengths) = true ∧
        c.all (·.hasCodes) = true ∧ c.all (·.isComplete) = true ∧ c.all (·.hasKinds) = true := by
    rw [Catalog.wellFormed, beq_iff_eq, Catalog.defect?]
    simp only [ite_eq_iff, reduceCtorEq, and_false, false_or, Bool.not_eq_true', Bool.not_eq_false,
      and_true]
  rw [hdefect]
  simp only [Bool.and_eq_true, beq_iff_eq, List.all_eq_true, CodeTable.wellFormed, imp_and,
    forall_and, and_assoc]

theorem codeLen_le_maxLenOf {es : List CodeTableEntry} {e : CodeTableEntry} (h : e ∈ es) :
    e.codeLen.toNat ≤ maxLenOf es := by
  induction es with
  | nil => cases h
  | cons a es ih =>
    rw [maxLenOf, List.foldr_cons]
    rcases List.mem_cons.1 h with rfl | h
    · exact le_max_left _ _
    · exact (ih h).trans (le_max_right _ _)

/-! ### The decode index -/

theorem length_fillSlots (k step fuel i : Nat) (slots : List (Option Nat)) :
    (fillSlots k step fuel i slots).length = slots.length := by
  induction fuel generalizing i slots with
  | zero => rfl
  | succ fuel ih =>
    rw [fillSlots]
    split
    · rw [ih, List.length_set]
    · rfl

/-- The inner loop writes the slots it steps on and leaves the others alone. -/
theorem getElem?_fillSlots (k step fuel i : Nat) {slots : List (Option Nat)} {p : Nat}
    (hp : p < slots.length) :
    (fillSlots k step fuel i slots)[p]? =
      if ∃ j < fuel, p = i + j * step then some (some k) else slots[p]? := by
  induction fuel generalizing i slots with
  | zero => simp [fillSlots]
  | succ fuel ih =>
    have hsplit : (∃ j < fuel + 1, p = i + j * step) ↔
        p = i ∨ ∃ j < fuel, p = i + step + j * step := by
      rw [Nat.exists_lt_succ_left]
      simp [Nat.succ_mul, Nat.add_assoc, Nat.add_comm step]
    rw [fillSlots, if_congr hsplit rfl rfl]
    split
    · next hi =>
      rw [ih _ (by rwa [List.length_set]), List.getElem?_set]
      by_cases hrest : ∃ j < fuel, p = i + step + j * step
      · rw [if_pos hrest, if_pos (.inr hrest)]
      · simp only [hrest, hi, @eq_comm _ p i, or_false, if_false, if_true]
    · next hi =>
      rw [if_neg]
      rintro (rfl | ⟨j, -, rfl⟩) <;> omega

/-- The slots one entry writes are those whose low `codeLen` bits are its code (41_code_tables.md
R143). -/
theorem getElem?_fillSlots_entry (k : Nat) {e : CodeTableEntry} {slots : List (Option Nat)} {p : Nat}
    (hcode : e.code.toNat < 2 ^ e.codeLen.toNat) (hp : p < slots.length) :
    (fillSlots k (2 ^ e.codeLen.toNat) slots.length e.code.toNat slots)[p]? =
      if e.matchesPattern p = true then some (some k) else slots[p]? := by
  rw [getElem?_fillSlots k _ _ _ hp]
  refine if_congr (Iff.trans ⟨?_, fun h => ⟨p / 2 ^ e.codeLen.toNat, ?_, ?_⟩⟩
    (matchesPattern_iff e p).symm) rfl rfl
  · rintro ⟨j, -, rfl⟩
    rw [Nat.add_mul_mod_self_right, Nat.mod_eq_of_lt hcode]
  · exact (Nat.div_le_self _ _).trans_lt hp
  · rw [← h, Nat.mod_add_div']

/-- Where no entry matches a slot, the outer loop leaves it alone. -/
theorem getElem?_fillEntries_of_no_match (k : Nat) {es : List CodeTableEntry}
    {slots : List (Option Nat)} {p : Nat} (hcode : ∀ e ∈ es, e.code.toNat < 2 ^ e.codeLen.toNat)
    (hp : p < slots.length) (hnone : ∀ e ∈ es, ¬e.matchesPattern p = true) :
    (fillEntries k es slots)[p]? = slots[p]? := by
  induction es generalizing k slots with
  | nil => rfl
  | cons a es ih =>
    rw [List.forall_mem_cons] at hcode hnone
    rw [fillEntries, ih _ hcode.2 (by rwa [length_fillSlots]) hnone.2,
      getElem?_fillSlots_entry k hcode.1 hp, if_neg hnone.1]

/-- Where exactly one entry matches a slot, the outer loop leaves that entry's index in it. -/
theorem getElem?_fillEntries_of_match (k : Nat) {es : List CodeTableEntry}
    {slots : List (Option Nat)} {p m : Nat} {e : CodeTableEntry}
    (hcode : ∀ e ∈ es, e.code.toNat < 2 ^ e.codeLen.toNat) (hp : p < slots.length)
    (hone : es.countP (·.matchesPattern p) = 1) (hm : es[m]? = some e)
    (he : e.matchesPattern p = true) : (fillEntries k es slots)[p]? = some (some (k + m)) := by
  induction es generalizing k slots m with
  | nil => cases hm
  | cons a es ih =>
    rw [List.forall_mem_cons] at hcode
    rw [fillEntries]
    by_cases ha : a.matchesPattern p = true
    · rw [List.countP_cons, if_pos ha, Nat.add_eq_right, List.countP_eq_zero] at hone
      rw [getElem?_fillEntries_of_no_match _ hcode.2 (by rwa [length_fillSlots]) hone,
        getElem?_fillSlots_entry k hcode.1 hp, if_pos ha]
      cases m with
      | zero => rfl
      | succ m => exact absurd he (hone e (List.mem_of_getElem? hm))
    · rw [List.countP_cons, if_neg ha] at hone
      cases m with
      | zero => cases hm; exact absurd he ha
      | succ m =>
        rw [ih (k + 1) hcode.2 (by rwa [length_fillSlots]) hone hm, Nat.add_assoc, Nat.add_comm 1]

/-- Slot `p` of an accepted table's index holds the entry that matches `p` (41_code_tables.md R144). -/
theorem getElem?_buildIndex {t : CodeTable} {p k : Nat} {e : CodeTableEntry}
    (w : t.wellFormed = true) (hp : p < 2 ^ maxLenOf t.entries) (hk : t.entries[k]? = some e)
    (he : p % 2 ^ e.codeLen.toNat = e.code.toNat) :
    (buildIndex t.entries)[p]? = some (some k) := by
  obtain ⟨-, -, -, hone, -⟩ := t.wellFormed_iff.1 w
  rw [buildIndex, getElem?_fillEntries_of_match 0 (fun _ h => (Laws.entry_code_fits w h).2)
    (by rwa [List.length_replicate]) (hone p hp) hk ((matchesPattern_iff e p).2 he), Nat.zero_add]

/-! ### The lookup -/

section Lookup

variable {t : CodeTable} {source : Nat} {e : CodeTableEntry}

/-- Of an entry's table, a pattern's low `maxLen` bits hold its low `codeLen` bits. -/
theorem mod_maxLen_mod_codeLen (source : Nat) (he : e ∈ t.entries) :
    source % 2 ^ maxLenOf t.entries % 2 ^ e.codeLen.toNat = source % 2 ^ e.codeLen.toNat :=
  Nat.mod_mod_of_dvd _ (Nat.pow_dvd_pow 2 (codeLen_le_maxLenOf he))

/-- The lookup gives the entry whose code the pattern's low bits are (41_code_tables.md R144, R145). -/
theorem lookup?_of_match (w : t.wellFormed = true) (he : e ∈ t.entries)
    (hcode : source % 2 ^ e.codeLen.toNat = e.code.toNat) :
    (TableStore.build t).lookup? source = some e := by
  obtain ⟨k, hk⟩ := List.getElem?_of_mem he
  rw [← mod_maxLen_mod_codeLen source he] at hcode
  have hslot : (TableStore.build t).slot? source = some k := by
    show ((buildIndex t.entries)[source &&& (2 ^ maxLenOf t.entries - 1)]?).getD none = some k
    rw [Nat.and_two_pow_sub_one_eq_mod,
      getElem?_buildIndex w (Nat.mod_lt _ (Nat.two_pow_pos _)) hk hcode, Option.getD_some]
  rw [TableStore.lookup?, hslot]
  exact hk

/-- CT-COMPLETE: some entry of an accepted table matches (41_code_tables.md R141). -/
theorem exists_entry_of_pattern (w : t.wellFormed = true) (source : Nat) :
    ∃ e ∈ t.entries, source % 2 ^ e.codeLen.toNat = e.code.toNat := by
  obtain ⟨-, -, -, hone, -⟩ := t.wellFormed_iff.1 w
  have hone := hone (source % 2 ^ maxLenOf t.entries) (Nat.mod_lt _ (Nat.two_pow_pos _))
  obtain ⟨e, he, hmatch⟩ := List.countP_pos_iff.1 (hone ▸ Nat.one_pos)
  rw [matchesPattern_iff, mod_maxLen_mod_codeLen source he] at hmatch
  exact ⟨e, he, hmatch⟩

theorem decodeEntry_of_match (w : t.wellFormed = true) (he : e ∈ t.entries)
    (hcode : source % 2 ^ e.codeLen.toNat = e.code.toNat) :
    decodeEntry (TableStore.build t) source = .ok e := by
  rw [decodeEntry, lookup?_of_match w he hcode]

/-- Decoding an entry from a pattern, with an accepted table: the one entry whose code the pattern's low
bits are (41_code_tables.md R144, R145). -/
theorem decodeEntry_build_iff (w : t.wellFormed = true) :
    decodeEntry (TableStore.build t) source = .ok e ↔
      e ∈ t.entries ∧ source % 2 ^ e.codeLen.toNat = e.code.toNat := by
  refine ⟨fun h => ?_, fun ⟨he, hcode⟩ => decodeEntry_of_match w he hcode⟩
  obtain ⟨a, ha, hcode⟩ := exists_entry_of_pattern w source
  rw [decodeEntry_of_match w ha hcode] at h
  cases h
  exact ⟨ha, hcode⟩

/-- CT-KIND: with any extra bits an entry of an accepted table gives a well-formed command
(30_encoding.md R84). -/
theorem exists_decodeFields_wellFormed (w : t.wellFormed = true) (he : e ∈ t.entries)
    (extras : Nat) : ∃ i, decodeFields e extras = .ok i ∧ i.wellFormed t = true := by
  obtain ⟨-, -, -, -, hkinds⟩ := t.wellFormed_iff.1 w
  have hkind := List.all_eq_true.1 hkinds e he
  rw [decodeFields]
  cases hcmd : e.cmd with
  | none => simp [hcmd] at hkind
  | some kind =>
    cases kind <;> exact ⟨_, rfl, by simp [Instr.wellFormed, he, hcmd, Nat.mod_lt]⟩

end Lookup

/-! ### The selector -/

/-- Every selector names a table of an accepted catalog (30_encoding.md R89). -/
theorem selectedTable?_buildStore {c : Catalog} (w : Catalog.wellFormed c = true) (sel : BitVec 2) :
    ∃ t, t.wellFormed = true ∧
      Machine.selectedTable? (buildStore c) sel = some (TableStore.build t) := by
  obtain ⟨hlen, htables⟩ := (Catalog.wellFormed_iff c).1 w
  have hsel : sel.toNat < c.length := hlen ▸ sel.isLt
  refine ⟨c.get ⟨sel.toNat, hsel⟩, htables _ (List.get_mem c _), ?_⟩
  rw [Machine.selectedTable?, buildStore, List.getElem?_map, List.getElem?_eq_getElem hsel]
  rfl

/-- Settles O4: a table for each selector, an entry for each pattern, a command for any extra bits. -/
theorem noPatternIsIllegal : Obligations.NoPatternIsIllegal := by
  unfold Obligations.NoPatternIsIllegal
  intro c sel w
  obtain ⟨t, wt, ht⟩ := selectedTable?_buildStore w sel
  refine ⟨_, ht, fun source => ?_⟩
  obtain ⟨e, he, hcode⟩ := exists_entry_of_pattern wt source
  exact ⟨e, he, (decodeEntry_build_iff wt).2 ⟨he, hcode⟩, hcode,
    exists_decodeFields_wellFormed wt he⟩

end Sys2Proof
end

section
/-! SUPPORT. The decoder on a stream of bits: what the extra-bit fields are read from, the encoder's inverse
(30_encoding.md R82 to R86), and the words of 41_code_tables.md R149's rows. -/

namespace Sys2Proof

/-! ### The extra-bit fields -/

section Fields

variable {e : CodeTableEntry} {i : Instr} {extras : Nat}

theorem decodeFields_lit (hcmd : e.cmd = some .copyLiteralByte) (extras : Nat) :
    decodeFields e extras = .ok (.lit e) := by
  rw [decodeFields, hcmd]

theorem decodeFields_raw (hcmd : e.cmd = some .copyBytesFromInput) (extras : Nat) :
    decodeFields e extras = .ok (.raw e (extras % 2 ^ e.lenExtraBits.toNat)) := by
  rw [decodeFields, hcmd]

theorem decodeFields_match (hcmd : e.cmd = some .copyBytesFromOutput) (extras : Nat) :
    decodeFields e extras =
      .ok (.matchCopy e (extras % 2 ^ e.lenExtraBits.toNat)
        ((extras >>> e.lenExtraBits.toNat) % 2 ^ e.offsetExtraBits.toNat)) := by
  rw [decodeFields, hcmd]

/-- What the extra-bit fields of an entry can give: a command of the entry's kind (30_encoding.md R84). -/
theorem decodeFields_ok_cases (h : decodeFields e extras = .ok i) :
    (e.cmd = some .copyLiteralByte ∧ i = .lit e) ∨
    (e.cmd = some .copyBytesFromInput ∧ i = .raw e (extras % 2 ^ e.lenExtraBits.toNat)) ∨
    (e.cmd = some .copyBytesFromOutput ∧
      i = .matchCopy e (extras % 2 ^ e.lenExtraBits.toNat)
        ((extras >>> e.lenExtraBits.toNat) % 2 ^ e.offsetExtraBits.toNat)) := by
  cases hcmd : e.cmd with
  | none => rw [decodeFields, hcmd] at h; cases h
  | some kind =>
    cases kind
    case copyLiteralByte =>
      rw [decodeFields_lit hcmd] at h; cases h; exact .inl ⟨rfl, rfl⟩
    case copyBytesFromInput =>
      rw [decodeFields_raw hcmd] at h; cases h; exact .inr (.inl ⟨rfl, rfl⟩)
    case copyBytesFromOutput =>
      rw [decodeFields_match hcmd] at h; cases h; exact .inr (.inr ⟨rfl, rfl⟩)

theorem entry_of_decodeFields (h : decodeFields e extras = .ok i) : i.entry = e := by
  rcases decodeFields_ok_cases h with ⟨-, rfl⟩ | ⟨-, rfl⟩ | ⟨-, rfl⟩ <;> rfl

/-- The fields of a command depend on its own extra bits alone (30_encoding.md R84, R86). -/
theorem decodeFields_mod {n : Nat} (h : decodeFields e extras = .ok i)
    (hn : i.bitLength ≤ e.codeLen.toNat + n) : decodeFields e (extras % 2 ^ n) = .ok i := by
  rcases decodeFields_ok_cases h with ⟨hcmd, rfl⟩ | ⟨hcmd, rfl⟩ | ⟨hcmd, rfl⟩
  · exact decodeFields_lit hcmd _
  · have hlen : e.lenExtraBits.toNat ≤ n := Nat.le_of_add_le_add_left hn
    rw [decodeFields_raw hcmd, Nat.mod_mod_of_dvd _ (Nat.pow_dvd_pow 2 hlen)]
  · have hboth : e.lenExtraBits.toNat + e.offsetExtraBits.toNat ≤ n := by
      rw [Instr.bitLength] at hn
      omega
    have hsplit : 2 ^ n = 2 ^ e.lenExtraBits.toNat * 2 ^ (n - e.lenExtraBits.toNat) := by
      rw [← Nat.pow_add, Nat.add_sub_cancel' (by omega)]
    rw [decodeFields_match hcmd, Nat.mod_mod_of_dvd _ (Nat.pow_dvd_pow 2 (by omega)),
      Nat.shiftRight_eq_div_pow, Nat.shiftRight_eq_div_pow, hsplit, Nat.mod_mul_right_div_self,
      Nat.mod_mod_of_dvd _ (Nat.pow_dvd_pow 2 (by omega))]

end Fields

/-! ### Decode inverts encode -/

/-- What the decoder reads: an entry for the stream's low bits and its fields from the bits above the
code. -/
theorem decodeStream_ok {t : TableStore} {i : Instr} {stream rest : Nat}
    (h : decodeStream t stream = .ok (i, rest)) :
    ∃ e, decodeEntry t stream = .ok e ∧ decodeFields e (stream >>> e.codeLen.toNat) = .ok i := by
  rw [decodeStream] at h
  cases he : decodeEntry t stream with
  | error r => rw [he] at h; cases h
  | ok e =>
    simp only [he] at h
    cases hi : decodeFields e (stream >>> e.codeLen.toNat) with
    | error r => rw [hi] at h; cases h
    | ok i' => rw [hi] at h; cases h; exact ⟨e, rfl, hi⟩

/-- The low `a` bits of a field with a number above it. -/
theorem field_mod {a x : Nat} (hx : x < 2 ^ a) (above : Nat) : (x + 2 ^ a * above) % 2 ^ a = x := by
  rw [Nat.add_mul_mod_self_left, Nat.mod_eq_of_lt hx]

/-- The number above a field of `a` bits. -/
theorem field_shiftRight {a x : Nat} (hx : x < 2 ^ a) (above : Nat) :
    (x + 2 ^ a * above) >>> a = above := by
  rw [Nat.shiftRight_eq_div_pow, Nat.add_mul_div_left _ _ (Nat.two_pow_pos a), Nat.div_eq_of_lt hx,
    Nat.zero_add]

/-- A stream that begins with an entry's code: its fields are read from the bits above the code
(30_encoding.md R84). -/
theorem decodeStream_of_code {t : CodeTable} {e : CodeTableEntry} {i : Instr} (w : t.wellFormed = true)
    (he : e ∈ t.entries) (extras : Nat) (hfields : decodeFields e extras = .ok i) :
    decodeStream (TableStore.build t) (e.code.toNat + 2 ^ e.codeLen.toNat * extras) =
      .ok (i, (e.code.toNat + 2 ^ e.codeLen.toNat * extras) >>> i.bitLength) := by
  obtain ⟨-, hcode⟩ := Laws.entry_code_fits w he
  rw [decodeStream, (decodeEntry_build_iff w).2 ⟨he, field_mod hcode extras⟩]
  simp only [field_shiftRight hcode, hfields]

section RoundTrip

variable {t : CodeTable} {e : CodeTableEntry} {x y : Nat}

/-- LIT: the code alone. -/
theorem decodeStream_encode_lit (w : t.wellFormed = true) (he : e ∈ t.entries)
    (hcmd : e.cmd = some .copyLiteralByte) (rest : Nat) :
    decodeStream (TableStore.build t)
      ((Instr.lit e).encode + 2 ^ (Instr.lit e).bitLength * rest) = .ok (.lit e, rest) := by
  rw [Instr.encode, Instr.bitLength, decodeStream_of_code w he rest (decodeFields_lit hcmd rest),
    Instr.bitLength, field_shiftRight (Laws.entry_code_fits w he).2]

/-- RAW: above the code `extraLen`. -/
theorem decodeStream_encode_raw (w : t.wellFormed = true) (he : e ∈ t.entries)
    (hcmd : e.cmd = some .copyBytesFromInput) (hx : x < 2 ^ e.lenExtraBits.toNat) (rest : Nat) :
    decodeStream (TableStore.build t)
      ((Instr.raw e x).encode + 2 ^ (Instr.raw e x).bitLength * rest) = .ok (.raw e x, rest) := by
  have hfields := decodeFields_raw hcmd (x + 2 ^ e.lenExtraBits.toNat * rest)
  rw [field_mod hx] at hfields
  have hstream : (Instr.raw e x).encode + 2 ^ (Instr.raw e x).bitLength * rest =
      e.code.toNat + 2 ^ e.codeLen.toNat * (x + 2 ^ e.lenExtraBits.toNat * rest) := by
    rw [Instr.encode, Instr.bitLength]
    ring
  rw [hstream, decodeStream_of_code w he _ hfields, Instr.bitLength, Nat.shiftRight_add,
    field_shiftRight (Laws.entry_code_fits w he).2, field_shiftRight hx]

/-- MATCH: above the code `extraLen`, and above that `extraOff`. -/
theorem decodeStream_encode_match (w : t.wellFormed = true) (he : e ∈ t.entries)
    (hcmd : e.cmd = some .copyBytesFromOutput) (hx : x < 2 ^ e.lenExtraBits.toNat)
    (hy : y < 2 ^ e.offsetExtraBits.toNat) (rest : Nat) :
    decodeStream (TableStore.build t)
      ((Instr.matchCopy e x y).encode + 2 ^ (Instr.matchCopy e x y).bitLength * rest) =
        .ok (.matchCopy e x y, rest) := by
  have hfields := decodeFields_match hcmd
    (x + 2 ^ e.lenExtraBits.toNat * (y + 2 ^ e.offsetExtraBits.toNat * rest))
  rw [field_mod hx, field_shiftRight hx, field_mod hy] at hfields
  have hstream : (Instr.matchCopy e x y).encode + 2 ^ (Instr.matchCopy e x y).bitLength * rest =
      e.code.toNat + 2 ^ e.codeLen.toNat *
        (x + 2 ^ e.lenExtraBits.toNat * (y + 2 ^ e.offsetExtraBits.toNat * rest)) := by
    rw [Instr.encode, Instr.bitLength]
    ring
  rw [hstream, decodeStream_of_code w he _ hfields, Instr.bitLength, Nat.shiftRight_add,
    Nat.shiftRight_add, field_shiftRight (Laws.entry_code_fits w he).2, field_shiftRight hx,
    field_shiftRight hy]

end RoundTrip

/-- Settles O2, command by command. -/
theorem decodeInvertsEncode : Obligations.DecodeInvertsEncode := by
  unfold Obligations.DecodeInvertsEncode
  intro t i rest w hi
  cases i with
  | lit e =>
    simp only [Instr.wellFormed, Bool.and_eq_true, decide_eq_true_eq, beq_iff_eq] at hi
    obtain ⟨he, hcmd⟩ := hi
    exact decodeStream_encode_lit w he hcmd rest
  | raw e x =>
    simp only [Instr.wellFormed, Bool.and_eq_true, decide_eq_true_eq, beq_iff_eq] at hi
    obtain ⟨⟨he, hcmd⟩, hx⟩ := hi
    exact decodeStream_encode_raw w he hcmd hx rest
  | matchCopy e x y =>
    simp only [Instr.wellFormed, Bool.and_eq_true, decide_eq_true_eq, beq_iff_eq] at hi
    obtain ⟨⟨⟨he, hcmd⟩, hx⟩, hy⟩ := hi
    exact decodeStream_encode_match w he hcmd hx hy rest

/-! ### Words of EXCAT's table 0 -/

/-- Settles O1, by running the decoder on each of the four streams. -/
theorem encodingWordsDecode : Obligations.EncodingWordsDecode := by
  unfold Obligations.EncodingWordsDecode
  refine ⟨?_, ?_, ?_, ?_⟩ <;> decide

end Sys2Proof
end

section
/-! SUPPORT. The engine and the block's bits: stream bits as byte bits (30_encoding.md R81), the command the
engine reads against the one the decoder reads (R82, R87), and that a running engine never stops (R89;
42_block_decoder.md R175). -/

namespace Sys2Proof.Machine

/-- Settles O14: a stream bit as its byte's, and as the stream number's. -/
theorem streamBitIsItsBytesBit : Obligations.StreamBitIsItsBytesBit := by
  unfold Obligations.StreamBitIsItsBytesBit
  exact fun s k => ⟨streamBit_eq_fetchByte s k, streamBit_eq_testBit s k⟩

section Running

variable {s : State} {e : CodeTableEntry}

/-- A running engine's store gives every selector an accepted table (30_encoding.md R89). -/
theorem selectedTable?_of_running (hs : s.Inv) (hrun : s.engine.phase.running) (sel : BitVec 2) :
    ∃ t, t.wellFormed = true ∧ selectedTable? s.store sel = some (TableStore.build t) := by
  obtain ⟨-, -, hstore, hcat, hdec, -⟩ := hs
  rw [hstore]
  exact selectedTable?_buildStore (hcat (by simp [hdec hrun])) sel

/-! ### The command the engine reads -/

/-- The accumulator's low bits are the stream's, as far as they are live (10_state.md R24, R36). -/
theorem acc_mod_of_accTracks (ha : s.AccTracks) {n : Nat} (hn : s.engine.pendingBits + n ≤ 32) :
    s.engine.acc.toNat % 2 ^ n = (s.blockStream >>> s.engine.streamPos) % 2 ^ n := by
  rw [ha (by omega), Nat.mod_mod_of_dvd _ (Nat.pow_dvd_pow 2 (by omega))]

/-- The extra-bit fields are read from the 32 stream bits above the code (30_encoding.md R82, R87). -/
theorem extraBitsAt_eq (hinv : s.engine.br.Inv) (hf : s.engine.br.Follows s.fetchWord)
    (hd : 32 ≤ s.engine.br.delivered) (ha : s.AccTracks) (h1 : 1 ≤ e.codeLen.toNat)
    (hcode : s.engine.pendingBits + e.codeLen.toNat ≤ 32) :
    extraBitsAt e s =
      (s.blockStream >>> s.engine.streamPos >>> e.codeLen.toNat) % 2 ^ 32 := by
  obtain ⟨r, br, hn⟩ := next_ok_of_range s.fetchWord s.engine.br
    (Nat.le_add_left_of_le h1 : 1 ≤ s.engine.pendingBits + e.codeLen.toNat) hcode
  rw [extraBitsAt, refill_after_code hn]
  refine Nat.eq_of_testBit_eq fun j => ?_
  simp only [withEngine_engine, withAcc_acc, BitVec.testBit_toNat]
  rw [Nat.testBit_mod_two_pow, Nat.testBit_shiftRight, Nat.testBit_shiftRight,
    ← streamBit_eq_testBit]
  by_cases hj : j < 32
  · rw [refilled_bit (s := s.consumeCode e) hinv hf hd (accTracks_consumeCode e hd ha) hn hj,
      (sameBlock_consumeCode e).streamBit, next_delivered hinv hf hn, Engine.streamPos,
      show s.engine.br.delivered + (s.engine.pendingBits + e.codeLen.toNat) - 32 + j =
        s.engine.br.delivered - (32 - s.engine.pendingBits) + (e.codeLen.toNat + j) by omega]
    simp [hj]
  · rw [BitVec.getLsbD_of_ge _ _ (Nat.le_of_not_lt hj)]
    simp [hj]

/-- What the engine reads, where its lookup answers. -/
theorem fetch_of_decodeEntry {t : TableStore} (ht : selectedTable? s.store s.engine.tableSel = some t)
    (he : decodeEntry t s.engine.acc.toNat = .ok e) :
    fetch s = decodeFields e (extraBitsAt e s) := by
  simp only [fetch, ht, he]

end Running

/-- Settles O42: the live bits hold the code, the refilled accumulator the extra bits. -/
theorem engineDecodesTheBlockStream : Obligations.EngineDecodesTheBlockStream := by
  unfold Obligations.EngineDecodesTheBlockStream
  intro s t i rest hs hst hp ht hdecode hcode hextra
  obtain ⟨hf, hd, ha⟩ := hst.2 (.inr hp)
  obtain ⟨tab, w, htab⟩ := selectedTable?_of_running hs (.inr (.inr hp)) s.engine.tableSel
  obtain rfl : t = TableStore.build tab := Option.some.inj (ht.symm.trans htab)
  obtain ⟨e, he, hfields⟩ := decodeStream_ok hdecode
  obtain rfl := entry_of_decodeFields hfields
  obtain ⟨hmem, hlow⟩ := (decodeEntry_build_iff w).1 he
  have hlookup : decodeEntry (TableStore.build tab) s.engine.acc.toNat = .ok i.entry :=
    (decodeEntry_build_iff w).2 ⟨hmem, (acc_mod_of_accTracks ha hcode).trans hlow⟩
  obtain ⟨-, ⟨hinv, -⟩, -⟩ := hs
  rw [fetch_of_decodeEntry ht hlookup,
    extraBitsAt_eq hinv hf hd ha (Laws.entry_code_fits w hmem).1 hcode]
  exact decodeFields_mod hfields hextra

/-! ### No stop of the model -/

section NoStop

variable {s : State}

/-- SETUP answers a next state: the selector names a table. -/
theorem exists_setupStep_next (hs : s.Inv) (hp : s.engine.phase = .setup) :
    ∃ t, setupStep s = .next t := by
  obtain ⟨r₁, br₁, r₂, br₂, f, br₃, -, -, -, heq⟩ := setupStep_eq s
  obtain ⟨tab, -, htab⟩ := selectedTable?_of_running hs (.inl hp) (f.setWidth 2)
  rw [heq, htab]
  split <;> exact ⟨_, rfl⟩

theorem exists_checkStep_next (s : State) : ∃ t, checkStep s = .next t := by
  rw [checkStep]
  split <;> exact ⟨_, rfl⟩

/-- A copy that ends at or below `logicalCapacity` stays inside the window (42_block_decoder.md R175). -/
theorem not_leavesWindow {g : Engine} {amount : Nat} (hb : g.BoundsInv)
    (h : g.written + amount ≤ g.logicalCapacity) : ¬g.leavesWindow amount :=
  fun hl => Nat.not_lt_of_le (h.trans hb.2.1) hl.2

theorem exists_execLit_next (e : CodeTableEntry) (hb : s.engine.BoundsInv) :
    ∃ t, execLit e s = .next t := by
  rw [execLit_eq]
  split
  · exact ⟨_, rfl⟩
  · next hw =>
    split
    · exact ⟨_, rfl⟩
    · rw [if_neg (not_leavesWindow hb (Nat.lt_of_le_of_ne hb.1 hw))]
      exact ⟨_, rfl⟩

theorem exists_execRaw_next (e : CodeTableEntry) (x : Nat) (hb : s.engine.BoundsInv) :
    ∃ t, execRaw e x s = .next t := by
  rcases refill_split e s with hf | ⟨r, br, hn⟩
  · exact ⟨_, execRaw_refill_fault e x hf⟩
  · rw [execRaw_eq x hn, if_neg (not_leavesWindow hb (clamp_le _ _ hb.1))]
    split <;> exact ⟨_, rfl⟩

theorem exists_execMatch_next (e : CodeTableEntry) (x y : Nat) (hb : s.engine.BoundsInv) :
    ∃ t, execMatch e x y s = .next t := by
  rcases refill_split e s with hf | ⟨r, br, hn⟩
  · exact ⟨_, execMatch_refill_fault e x y hf⟩
  · rw [execMatch_eq x y hn, if_neg (not_leavesWindow hb (clamp_le _ _ hb.1))]
    split <;> exact ⟨_, rfl⟩

/-- A command whose engine keeps the bounds of 42_block_decoder.md R175 answers a next state: its copy
never leaves the window. -/
theorem exists_exec_next (i : Instr) (hb : s.engine.BoundsInv) : ∃ t, exec i s = .next t := by
  cases i with
  | lit e => exact exists_execLit_next e hb
  | raw e x => exact exists_execRaw_next e x hb
  | matchCopy e x y => exact exists_execMatch_next e x y hb

/-- Every accumulator gives a command (30_encoding.md R89). -/
theorem exists_fetch_ok (hs : s.Inv) (hrun : s.engine.phase.running) : ∃ i, fetch s = .ok i := by
  obtain ⟨tab, w, htab⟩ := selectedTable?_of_running hs hrun s.engine.tableSel
  obtain ⟨e, he, hcode⟩ := exists_entry_of_pattern w s.engine.acc.toNat
  obtain ⟨i, hi, -⟩ := exists_decodeFields_wellFormed w he (extraBitsAt e s)
  exact ⟨i, (fetch_of_decodeEntry htab ((decodeEntry_build_iff w).2 ⟨he, hcode⟩)).trans hi⟩

theorem exists_decodeStep_next (hs : s.Inv) (hp : s.engine.phase = .decode) :
    ∃ t, decodeStep s = .next t := by
  obtain ⟨i, hi⟩ := exists_fetch_ok hs (.inr (.inr hp))
  obtain ⟨-, ⟨-, -, hpast, -⟩, -⟩ := hs
  obtain ⟨-, hb, -⟩ := hpast (.inr (.inl hp))
  rw [decodeStep, hi]
  exact exists_exec_next i hb

end NoStop

/-- Settles O38, phase by phase of a running engine. -/
theorem runningEngineNeverStops : Obligations.RunningEngineNeverStops := by
  unfold Obligations.RunningEngineNeverStops
  intro s hs hrun
  rw [State.noStop, step_running hrun]
  rcases hrun with hp | hp | hp <;> simp only [engineStep, hp]
  · exact exists_setupStep_next hs hp
  · exact exists_checkStep_next s
  · exact exists_decodeStep_next hs hp

end Sys2Proof.Machine
end

section
/-! SUPPORT. What NEXT answers and leaves alone (40_bit_reader.md R111 to R117, R122), and sequences of
requests that follow START: the bits they deliver and where they leave the reader (R118, R119). -/

namespace Sys2Proof.Machine

/-! ### One request -/

/-- Settles O7: the fault's record is NEXT's, and `raise` writes phase and status alone. -/
theorem nextOutOfRangeRaises : Obligations.NextOutOfRangeRaises := by
  unfold Obligations.NextOutOfRangeRaises
  intro s n hn
  refine ⟨(nextBits_error_iff n s _).2 ⟨hn, rfl⟩, fun st => ?_⟩
  rw [raise_engine, takeFault_br]

/-- Settles O8, by the equation of each branch. -/
theorem nextTakesItsBranches : Obligations.NextTakesItsBranches := by
  unfold Obligations.NextTakesItsBranches
  intro fetch n br h1 h32 hu
  refine ⟨?wholeWord, ?startWord, ?restOfWord, ?withinWord, ?acrossWords⟩
  case wholeWord => rintro hz rfl; exact next_wholeWord hz
  case startWord => exact fun hz hn => next_startWord hz h1 hn
  case restOfWord => rintro hp rfl; exact next_restOfWord hp hu
  case withinWord => exact fun hp hn => next_withinWord hp h1 hn
  case acrossWords => exact fun hp hn => next_acrossWords hp hn h32

/-- A word is a multiple of `2 ^ k` exactly where its low `k` bits are zero. -/
theorem toNat_mod_two_pow_eq_zero_iff (w : Word) (k : Nat) :
    w.toNat % 2 ^ k = 0 ↔ ∀ j, j < k → w.getLsbD j = false := by
  refine ⟨fun h j hj => ?_, fun h => Nat.eq_of_testBit_eq fun j => ?_⟩
  · have hbit := Nat.testBit_mod_two_pow w.toNat k j
    simpa [h, hj, BitVec.testBit_toNat] using hbit.symm
  · rw [Nat.testBit_mod_two_pow, Nat.zero_testBit, BitVec.testBit_toNat]
    by_cases hj : j < k
    · simp [h j hj]
    · simp [hj]

/-- Every result is left-justified, since the remainder's used bits are zero (40_bit_reader.md R117). -/
theorem next_result_low_bit {fetch : Nat → Word} {n j : Nat} {br br' : BitReader} {r : Word}
    (hinv : br.Inv) (h : br.next fetch n = .ok (r, br')) (hj : j < 32 - n) :
    r.getLsbD j = false := by
  obtain ⟨hu, -, hrem⟩ := hinv
  replace hrem := fun hp => (toNat_mod_two_pow_eq_zero_iff _ _).1 (hrem hp)
  rcases next_ok_cases hu h with ⟨-, rfl, -, -⟩ | ⟨-, -, rfl, -⟩ | ⟨hp, hn, rfl, -⟩ |
    ⟨hp, hn, rfl, -⟩ | ⟨m, hp, -, hm, hn, rfl, -⟩
  · omega
  · simp [BitVec.getLsbD_shiftLeft, hj]
  · exact hrem hp j (by omega)
  · rw [BitVec.getLsbD_shiftLeft]
    by_cases hb : j < 32 - (br.bitsUsed + n)
    · simp [hb]
    · simp [hrem hp (j - (32 - (br.bitsUsed + n))) (by omega)]
  · rw [BitVec.getLsbD_or, BitVec.getLsbD_ushiftRight, hrem hp (m + j) (by omega),
      BitVec.getLsbD_shiftLeft]
    simp [show j < 32 - m by omega]

/-- Settles O9, from the bits of the result. -/
theorem nextResultLowBitsZero : Obligations.NextResultLowBitsZero := by
  unfold Obligations.NextResultLowBitsZero
  exact fun fetch n br br' r hinv h =>
    (toNat_mod_two_pow_eq_zero_iff r (32 - n)).2 fun j hj => next_result_low_bit hinv h hj

/-- Settles O11: NEXT's answer is a function of the reader and the word fetch. -/
theorem nextTouchesOnlyTheReader : Obligations.NextTouchesOnlyTheReader := by
  unfold Obligations.NextTouchesOnlyTheReader
  intro s u t n r h
  obtain ⟨br, hn, rfl⟩ := (nextBits_ok_iff n s r t).1 h
  refine ⟨rfl, fun hbr hfetch => (nextBits_ok_iff n u r _).2 ⟨br, ?_, rfl⟩⟩
  rw [hbr, funext hfetch]
  exact hn

/-! ### Requests that follow START -/

/-- The reader stands at bit `D` of the stream of a word fetch: its registers are what `D` delivered bits
leave (10_state.md R20 to R23, R36). -/
structure BitReader.At (fetch : Nat → Word) (D : Nat) (br : BitReader) : Prop where
  inv : br.Inv
  follows : br.Follows fetch
  delivered : br.delivered = D

section At

variable {fetch : Nat → Word} {D n : Nat} {br br' : BitReader} {r : Word}

/-- NEXT(n) moves the reader by `n` bits. -/
theorem BitReader.At.next (h : br.At fetch D) (hn : br.next fetch n = .ok (r, br')) :
    br'.At fetch (D + n) where
  inv := next_keeps_inv h.inv hn
  follows := next_keeps_follows h.inv h.follows hn
  delivered := by rw [next_delivered h.inv h.follows hn, h.delivered]

/-- The result of NEXT(n) at bit `D` holds stream bit `D + j` at bit `32 - n + j`. -/
theorem BitReader.At.getLsbD_next (h : br.At fetch D) (hn : br.next fetch n = .ok (r, br')) {j : Nat}
    (hj : j < n) : r.getLsbD (32 - n + j) = wordStreamBit fetch (D + j) := by
  obtain ⟨-, hn32⟩ := next_ok_range hn
  rw [next_result_bit h.inv h.follows hn (by omega), h.delivered, Nat.add_sub_cancel_left]
  simp

/-- The registers of a reader at bit `D` (40_bit_reader.md R119). -/
theorem BitReader.At.registers (h : br.At fetch D) :
    br.bitsUsed = D % 32 ∧ br.word = fetch (br.fetchPtr - 4) ∧
      br.fetchPtr = if br.bitsUsed = 0 then 4 * (D / 32 + 1) else 4 * (D / 32 + 2) := by
  obtain ⟨hinv, hf, hd⟩ := h
  have ⟨hu, hfp, _⟩ := hinv
  obtain ⟨hw, h4, h8⟩ := hf
  rcases Nat.eq_zero_or_pos br.bitsUsed with hz | hp
  · rw [delivered_of_unused hinv hz] at hd
    rw [if_pos hz]
    exact ⟨by omega, hw, by omega⟩
  · obtain ⟨h8, -⟩ := h8 hp
    rw [delivered_of_used hinv hp] at hd
    rw [if_neg hp.ne']
    exact ⟨by omega, hw, by omega⟩

end At

/-- START leaves the reader at the first bit of the block's stream (70_reset_and_hazards.md R270). -/
theorem start_readerAt {l : Launch} {s₀ s : State} (h : start l s₀ = .ok s) :
    s.engine.br.At s.fetchWord 0 := by
  obtain ⟨-, rfl⟩ := (start_ok_iff l s₀ s).1 h
  refine ⟨?inv, ?follows, started_delivered _ _⟩
  case inv => simp [BitReader.Inv, Engine.started]
  case follows => exact ⟨rfl, le_refl 4, fun h0 => absurd h0 (lt_irrefl 0)⟩

section Requests

variable {s t : State} {n D : Nat} {ns : List Nat} {rs : List Word}

/-- The answer of a sequence is NEXT's, then the rest's in the state whose reader NEXT has moved. -/
theorem requestAll_cons_ok_iff :
    s.requestAll (n :: ns) = .ok (rs, t) ↔
      ∃ r br rs', s.engine.br.next s.fetchWord n = .ok (r, br) ∧
        (s.withEngine (s.engine.withReader br)).requestAll ns = .ok (rs', t) ∧ rs = r :: rs' := by
  rw [State.requestAll, State.nextBits]
  cases s.engine.br.next s.fetchWord n with
  | error st => simp
  | ok p =>
    obtain ⟨r, br⟩ := p
    dsimp only
    cases hrest : State.requestAll ns (s.withEngine (s.engine.withReader br)) with
    | error st => simp [hrest]
    | ok q => simp [hrest, Prod.ext_iff, eq_comm, and_comm]

/-- Counts from 1 to 32 are all answered. -/
theorem exists_requestAll_ok (s : State) (hns : ∀ n ∈ ns, 1 ≤ n ∧ n ≤ 32) :
    ∃ rs t, s.requestAll ns = .ok (rs, t) := by
  induction ns generalizing s with
  | nil => exact ⟨[], s, rfl⟩
  | cons n ns ih =>
    rw [List.forall_mem_cons] at hns
    obtain ⟨⟨h1, h32⟩, hns⟩ := hns
    obtain ⟨r, br, hn⟩ := next_ok_of_range s.fetchWord s.engine.br h1 h32
    obtain ⟨rs, t, hrest⟩ := ih (s.withEngine (s.engine.withReader br)) hns
    exact ⟨r :: rs, t, requestAll_cons_ok_iff.2 ⟨r, br, rs, hn, hrest, rfl⟩⟩

theorem length_requestAll (h : s.requestAll ns = .ok (rs, t)) : rs.length = ns.length := by
  induction ns generalizing s rs with
  | nil => cases h; rfl
  | cons n ns ih =>
    obtain ⟨r, br, rs', -, hrest, rfl⟩ := requestAll_cons_ok_iff.1 h
    rw [List.length_cons, List.length_cons, ih hrest]

/-- A sequence of requests moves the reader by the sum of its counts. -/
theorem requestAll_readerAt (hat : s.engine.br.At s.fetchWord D)
    (h : s.requestAll ns = .ok (rs, t)) : t.engine.br.At s.fetchWord (D + ns.sum) := by
  induction ns generalizing s rs D with
  | nil => cases h; exact hat
  | cons n ns ih =>
    obtain ⟨r, br, rs', hn, hrest, -⟩ := requestAll_cons_ok_iff.1 h
    rw [List.sum_cons, ← Nat.add_assoc]
    exact ih (s := s.withEngine (s.engine.withReader br)) (hat.next hn) hrest

/-- Request `i` delivers the stream bits that follow those of the requests before it
(40_bit_reader.md R118). -/
theorem requestAll_result_bit (hat : s.engine.br.At s.fetchWord D)
    (h : s.requestAll ns = .ok (rs, t)) {i j : Nat} {r : Word} (hi : ns[i]? = some n)
    (hr : rs[i]? = some r) (hj : j < n) :
    r.getLsbD (32 - n + j) = s.streamBit (D + ((ns.take i).sum + j)) := by
  induction ns generalizing s rs D i with
  | nil => cases hi
  | cons n₀ ns ih =>
    obtain ⟨r₀, br, rs', hn, hrest, rfl⟩ := requestAll_cons_ok_iff.1 h
    cases i with
    | zero =>
      cases hi
      cases hr
      rw [List.take_zero, List.sum_nil, Nat.zero_add]
      exact hat.getLsbD_next hn hj
    | succ i =>
      rw [List.getElem?_cons_succ] at hi hr
      rw [List.take_succ_cons, List.sum_cons, Nat.add_assoc, ← Nat.add_assoc D]
      exact ih (s := s.withEngine (s.engine.withReader br)) (hat.next hn) hrest hi hr

end Requests

/-- Settles O12: the requests start at stream bit 0. -/
theorem requestsDeliverTheStream : Obligations.RequestsDeliverTheStream := by
  unfold Obligations.RequestsDeliverTheStream
  intro l s₀ s ns hstart hns
  obtain ⟨rs, t, h⟩ := exists_requestAll_ok s hns
  refine ⟨rs, t, h, length_requestAll h, fun i n r hi hr j hj => ?_⟩
  have hbit := requestAll_result_bit (start_readerAt hstart) h hi hr hj
  rwa [Nat.zero_add] at hbit

/-- Settles O13: the reader stands at the stream bit that is the sum of the counts. -/
theorem readerStaysOneWordAhead : Obligations.ReaderStaysOneWordAhead := by
  unfold Obligations.ReaderStaysOneWordAhead
  intro l s₀ s t ns rs hstart _ h
  have hat := requestAll_readerAt (start_readerAt hstart) h
  rw [Nat.zero_add] at hat
  exact hat.registers

end Sys2Proof.Machine
end


section
/-! SUPPORT. The decode index of an accepted table, read in both directions (41_code_tables.md R144). -/

namespace Sys2Proof

/-- Settles O3: CT-COMPLETE gives the entry that matches the slot, and the index holds every entry that
does. -/
theorem indexSlotHoldsTheMatchingEntry : Obligations.IndexSlotHoldsTheMatchingEntry := by
  unfold Obligations.IndexSlotHoldsTheMatchingEntry
  intro t p w hp
  refine ⟨?_, fun k e hk hcode => getElem?_buildIndex w hp hk hcode⟩
  obtain ⟨e, he, hcode⟩ := exists_entry_of_pattern w p
  obtain ⟨k, hk⟩ := List.getElem?_of_mem he
  exact ⟨k, e, getElem?_buildIndex w hp hk hcode, hk, hcode⟩

end Sys2Proof
end

section
/-! SUPPORT. The block decoder (42_block_decoder.md): what SETUP, CHECK and the three commands write and
leave alone, the phases they lead to, and the bytes MATCH repeats (R161 to R174). -/

namespace Sys2Proof.Machine

/-! ### What every command can do -/

/-- The writes a command makes before any copy: reader, accumulator and the count of consumed bits
(42_block_decoder.md R164, R166, R167). -/
def State.withBits (br : BitReader) (acc : Word) (pendingBits : Nat) (s : State) : State :=
  s.withEngine ((s.engine.withReader br).withAcc acc pendingBits)

/-- The writes of a copy of `n` bytes, `k` of them literal bytes, that leaves buffer `m`. -/
def State.afterCopy (n k : Nat) (p : Phase) (m : Memory) (s : State) : State :=
  (s.withBuf m).withEngine (((s.engine.advanceOut n).advanceIn k).withPhase p)

/-- The buffer `m` differs from the state's only in the `n` bytes of OUT from `written` on. -/
def State.SameOutside (s : State) (n : Nat) (m : Memory) : Prop :=
  ∀ a, a < s.engine.windowBase + s.engine.written ∨ s.engine.windowBase + s.engine.written + n ≤ a →
    m.read a = s.buf.read a

section Commands

variable {e : CodeTableEntry} {x y : Nat} {i : Instr} {s t : State}

/-- A next state of a command: a fault after its bits were taken, or a copy made. -/
theorem exec_next_cases (h : exec i s = .next t) :
    ∃ br acc p,
      (∃ st, t = (s.withBits br acc p).raise st) ∨
      ∃ n k ph m, ph.pastSetup ∧ s.SameOutside n m ∧ t = (s.withBits br acc p).afterCopy n k ph m := by
  cases i with
  | lit e =>
    rcases execLit_next h with ⟨st, rfl⟩ | ⟨-, -, rfl⟩
    · exact ⟨_, _, _, .inl ⟨st, rfl⟩⟩
    · exact ⟨_, _, _, .inr ⟨1, 1, .check, _, .inl rfl,
        fun a ha => read_write_other s.buf _ (by omega), rfl⟩⟩
  | raw e x =>
    rcases execRaw_next h with ⟨st, rfl⟩ | ⟨r, br, -, ⟨st, rfl⟩ | ⟨-, rfl⟩⟩
    · exact ⟨_, _, _, .inl ⟨st, rfl⟩⟩
    · exact ⟨_, _, _, .inl ⟨st, rfl⟩⟩
    · exact ⟨_, _, _, .inr ⟨_, _, .check, _, .inl rfl,
        fun a ha => copyInput_read_other _ _ _ _ s.buf ha, rfl⟩⟩
  | matchCopy e x y =>
    rcases execMatch_next h with ⟨st, rfl⟩ | ⟨r, br, -, ⟨st, rfl⟩ | ⟨-, rfl⟩⟩
    · exact ⟨_, _, _, .inl ⟨st, rfl⟩⟩
    · exact ⟨_, _, _, .inl ⟨st, rfl⟩⟩
    · exact ⟨br, (matchReady e r br s).engine.acc, e.lenExtraBits.toNat + e.offsetExtraBits.toNat,
        .inr ⟨s.engine.clamp (copyLength e x), 0, .decode, _, .inr (.inl rfl),
          fun a ha => copyOutput_read_other _ _ _ s.buf ha, rfl⟩⟩

end Commands

/-- Settles O25: a fault moves no cursor and writes no byte, a copy writes the bytes it moves over. -/
theorem commandsLeaveTheRestAlone : Obligations.CommandsLeaveTheRestAlone := by
  unfold Obligations.CommandsLeaveTheRestAlone
  intro i s t h
  obtain ⟨br, acc, p, ⟨st, rfl⟩ | ⟨n, k, ph, m, -, hm, rfl⟩⟩ := exec_next_cases h
  · exact ⟨rfl, rfl, rfl, rfl, rfl, rfl, rfl, rfl, rfl, rfl, rfl, rfl, fun hp => absurd rfl hp,
      le_refl _, le_refl _, fun _ _ => rfl⟩
  · refine ⟨rfl, rfl, rfl, rfl, rfl, rfl, rfl, rfl, rfl, rfl, rfl, rfl, fun _ => rfl,
      Nat.le_add_right _ n, Nat.le_add_right _ k, fun a ha => hm a ?_⟩
    rwa [Nat.add_assoc]

/-! ### The phases -/

section Phases

variable {e : CodeTableEntry} {x y : Nat} {s t : State}

/-- Where SETUP leads: its three requests are in range, so that its only fault is the capacity's. -/
theorem setupStep_phase (h : setupStep s = .next t) :
    t.engine.phase = .check ∨
      t.engine.phase = .fault ∧ t.engine.status.kind = .invalidCapacity := by
  obtain ⟨r₁, br₁, r₂, br₂, f, br₃, -, -, -, heq⟩ := setupStep_eq s
  rw [heq] at h
  split at h
  · cases h; exact .inr ⟨rfl, rfl⟩
  · split at h
    · cases h
    · cases h; exact .inl rfl

/-- Where LIT leads, with its faults (42_block_decoder.md R172). -/
theorem execLit_phase (h : execLit e s = .next t) :
    t.engine.phase = .check ∨ t.engine.phase = .fault ∧
      (t.engine.status.kind = .capacityOverrun ∨ t.engine.status.kind = .truncatedBlock) := by
  rw [execLit_eq] at h
  split at h
  · cases h; exact .inr ⟨rfl, .inl rfl⟩
  · split at h
    · cases h; exact .inr ⟨rfl, .inr rfl⟩
    · split at h
      · cases h
      · cases h; exact .inl rfl

/-- Where RAW leads, with its faults (42_block_decoder.md R171). -/
theorem execRaw_phase (h : execRaw e x s = .next t) :
    t.engine.phase = .check ∨ t.engine.phase = .fault ∧
      (t.engine.status.kind = .invalidBitRequest ∨ t.engine.status.kind = .truncatedBlock) := by
  rcases refill_split e s with hf | ⟨r, br, hn⟩
  · rw [execRaw_refill_fault e x hf] at h
    cases h; exact .inr ⟨rfl, .inl rfl⟩
  · rw [execRaw_eq x hn] at h
    split at h
    · cases h; exact .inr ⟨rfl, .inr rfl⟩
    · split at h
      · cases h
      · cases h; exact .inl rfl

/-- Where MATCH leads, with its faults (42_block_decoder.md R168). -/
theorem execMatch_phase (h : execMatch e x y s = .next t) :
    t.engine.phase = .decode ∨ t.engine.phase = .fault ∧
      (t.engine.status.kind = .invalidBitRequest ∨
        t.engine.status.kind = .invalidBackReference) := by
  rcases refill_split e s with hf | ⟨r, br, hn⟩
  · rw [execMatch_refill_fault e x y hf] at h
    cases h; exact .inr ⟨rfl, .inl rfl⟩
  · rw [execMatch_eq x y hn] at h
    split at h
    · cases h; exact .inr ⟨rfl, .inr rfl⟩
    · split at h
      · cases h
      · cases h; exact .inl rfl

/-- The container decoder writes no register of the engine but by START. -/
theorem containerStep_engine (h : containerStep s = .next t) :
    t.engine = s.engine ∨ t.engine.phase = .setup := by
  rcases containerStep_next h with ⟨-, h⟩ | ⟨-, h⟩ | ⟨-, h⟩ | ⟨-, h⟩
  · obtain ⟨-, rfl⟩ := powerUpStep_next h
    exact .inl rfl
  · rcases checkFileStep_next h with ⟨st, rfl⟩ | ⟨blocks, -, rfl⟩ <;> exact .inl rfl
  · rcases nextBlockStep_next h with rfl | ⟨b, u, -, hu, rfl⟩
    · exact .inl rfl
    · obtain ⟨-, rfl⟩ := (start_ok_iff _ _ _).1 hu
      exact .inr rfl
  · rcases collectStep_next h with ⟨-, rfl⟩ | ⟨-, rfl⟩ <;> exact .inl rfl

/-- CHECK's step writes the phase alone. -/
theorem checkStep_eq (s : State) :
    checkStep s = .next (s.withEngine (s.engine.withPhase
      (if s.engine.written = s.engine.logicalCapacity then .done else .decode))) := by
  rw [checkStep]
  split <;> rfl

end Phases

/-- Settles O31, phase by phase, and in DECODE command by command. -/
theorem phaseTransitionsAreListed : Obligations.PhaseTransitionsAreListed := by
  unfold Obligations.PhaseTransitionsAreListed
  intro s t h
  rcases step_next_cases h with ⟨hp, h⟩ | ⟨hp, h⟩ | ⟨hp, h⟩ | ⟨hrest, h⟩
  · rw [hp]
    exact setupStep_phase h
  · rw [hp]
    rw [checkStep_eq] at h
    cases h
    rfl
  · rw [hp]
    obtain ⟨i, hi, hexec⟩ := decodeStep_next h
    refine ⟨i, hi, ?_⟩
    cases i with
    | lit e => exact execLit_phase hexec
    | raw e x => exact execRaw_phase hexec
    | matchCopy e x y => exact execMatch_phase hexec
  · have heng := containerStep_engine h
    rcases resting_of_not_running hrest with hp | hp | hp <;> rw [hp] <;> exact heng

/-- Settles O18: CHECK's one equation, and of the listed transitions those that lead to CHECK. -/
theorem checkTestsForTheEnd : Obligations.CheckTestsForTheEnd := by
  unfold Obligations.CheckTestsForTheEnd
  refine ⟨fun s hp => ?_, fun s t h hc => ?_⟩
  · rw [step_running (.inr (.inl hp)), engineStep, hp]
    exact checkStep_eq s
  · rcases step_next_cases h with ⟨hp, -⟩ | ⟨-, h⟩ | ⟨hp, h⟩ | ⟨hrest, h⟩
    · exact .inl hp
    · rcases checkStep_next h with ⟨-, rfl⟩ | ⟨-, rfl⟩ <;> cases hc
    · obtain ⟨i, hi, hexec⟩ := decodeStep_next h
      refine .inr ⟨hp, i, hi, ?_⟩
      cases i with
      | lit e => exact .inl ⟨e, rfl⟩
      | raw e x => exact .inr ⟨e, x, rfl⟩
      | matchCopy e x y =>
        rcases execMatch_phase hexec with hd | ⟨hf, -⟩
        · rw [hc] at hd; cases hd
        · rw [hc] at hf; cases hf
    · rcases containerStep_engine h with heng | hp
      · exact absurd (.inr (.inl (heng ▸ hc))) hrest
      · rw [hp] at hc
        cases hc

/-! ### The bytes MATCH repeats -/

/-- A copy inside one memory to `b` bytes above its source repeats the `b` bytes before its target
(42_block_decoder.md R169): each byte is read after every earlier write. -/
theorem copyOutput_read_periodic {n b from_ j : Nat} {m : Memory} (w : m.wf = true) (hb : 0 < b)
    (hj : j < n) :
    (copyOutput n from_ (from_ + b) m).read (from_ + b + j) = m.read (from_ + j % b) := by
  induction n generalizing from_ m j with
  | zero => omega
  | succ n ih =>
    rw [copyOutput]
    cases j with
    | zero =>
      rw [copyOutput_read_other _ _ _ _ (by omega), Nat.add_zero, read_write_same w, Nat.zero_mod,
        Nat.add_zero]
    | succ j =>
      have hread := ih (from_ := from_ + 1) (wf_write w (from_ + b) (m.read from_))
        (Nat.lt_of_succ_lt_succ hj)
      have hmod := Nat.mod_lt j hb
      rw [show from_ + b + 1 = from_ + 1 + b by omega,
        show from_ + b + (j + 1) = from_ + 1 + b + j by omega, hread, ← Nat.mod_add_mod]
      rcases Nat.lt_or_eq_of_le (Nat.succ_le_of_lt hmod) with hlt | hlast
      · rw [Nat.mod_eq_of_lt hlt, read_write_other _ _ (by omega), Nat.add_assoc, Nat.add_comm 1]
      · rw [show from_ + 1 + j % b = from_ + b by omega, read_write_same w,
          show j % b + 1 = b from hlast, Nat.mod_self, Nat.add_zero]

/-- Byte `j` of a MATCH's copy, its offset being inside the bytes written. -/
theorem matchDone_read {e : CodeTableEntry} {n b j : Nat} {r : Word} {br : BitReader} {s : State}
    (hbuf : s.buf.wf = true) (hb : 0 < b) (hle : b ≤ s.engine.written) (hj : j < n) :
    (matchDone e n b r br s).buf.read (s.engine.windowBase + s.engine.written + j) =
      s.buf.read (s.engine.windowBase + (s.engine.written - b) + j % b) := by
  have hto : s.engine.windowBase + s.engine.written =
      s.engine.windowBase + (s.engine.written - b) + b := by omega
  show (copyOutput n (s.engine.windowBase + (s.engine.written - b))
    (s.engine.windowBase + s.engine.written) s.buf).read _ = _
  rw [hto]
  exact copyOutput_read_periodic hbuf hb hj

/-- Of a MATCH that copies a byte the offset is inside the bytes written (42_block_decoder.md R168). -/
theorem backOffset_bounds {e : CodeTableEntry} {x y : Nat} {s : State} (hgood : ¬badReference e x y s)
    (h : 0 < s.engine.clamp (copyLength e x)) :
    0 < backOffsetOf e s.engine.offsetShift y ∧
      backOffsetOf e s.engine.offsetShift y ≤ s.engine.written := by
  rw [badReference] at hgood
  omega

/-- Settles O24: a MATCH that stays in DECODE has made its copy. -/
theorem matchRepeatsItsSource : Obligations.MatchRepeatsItsSource := by
  unfold Obligations.MatchRepeatsItsSource
  intro e x y s t hbuf h hp
  rcases execMatch_next h with ⟨st, rfl⟩ | ⟨r, br, -, ⟨st, rfl⟩ | ⟨hgood, rfl⟩⟩
  · cases hp
  · cases hp
  · refine ⟨fun j hj => ?_, fun a ha => copyOutput_read_other _ _ _ _ ha⟩
    obtain ⟨hb, hle⟩ := backOffset_bounds hgood (Nat.zero_lt_of_lt hj)
    exact matchDone_read hbuf hb hle hj

/-! ### The refill -/

/-- Settles O44: NEXT's result lies above the live bits, and the accumulator is zero there. -/
theorem refillPutsStreamBitsAbove : Obligations.RefillPutsStreamBitsAbove := by
  unfold Obligations.RefillPutsStreamBitsAbove
  intro s t hinv hf hacc h j hj
  obtain ⟨r, br, hn, rfl⟩ := (refill_ok_iff s t).1 h
  obtain ⟨-, hn32⟩ := next_ok_range hn
  rw [accInv_iff_lt, min_eq_left hn32] at hacc
  rw [withEngine_engine, withAcc_acc, BitVec.getLsbD_or, next_result_bit hinv hf hn hj, streamBit_eq]
  by_cases hlive : j < 32 - s.engine.pendingBits
  · simp [hlive, Nat.not_le_of_lt hlive]
  · have hvacated : s.engine.acc.getLsbD j = false := by
      rw [← BitVec.testBit_toNat]
      exact Nat.testBit_lt_two_pow
        (hacc.trans_le (Nat.pow_le_pow_right Nat.two_pos (Nat.le_of_not_lt hlive)))
    simp [hvacated, hlive, Nat.le_of_not_lt hlive]

end Sys2Proof.Machine
end

section
/-! SUPPORT. The rules of the three commands as equations on the state (42_block_decoder.md R168 to R172),
the command a DECODE step runs (R164), and SETUP after START (R161, R162). -/

namespace Sys2Proof.Machine

/-! ### The commands' rules -/

/-- Settles O20, check by check of LIT. -/
theorem litFollowsItsRule : Obligations.LitFollowsItsRule := by
  unfold Obligations.LitFollowsItsRule
  refine fun e s => ⟨fun hfull => ?_, fun hroom hend => ?_, fun hroom hin hwin => ?_⟩ <;>
    rw [exec, execLit_eq]
  · rw [if_pos hfull]
    rfl
  · rw [if_neg hroom, if_pos hend]
    rfl
  · have hinside : ¬s.engine.leavesWindow 1 := fun hl => Nat.not_lt_of_le hwin hl.2
    rw [if_neg hroom, if_neg (Nat.not_le_of_lt hin), if_neg hinside]
    rfl

/-- Settles O21: a refill out of NEXT's range, else RAW's equation and its tests. -/
theorem rawFollowsItsRule : Obligations.RawFollowsItsRule := by
  unfold Obligations.RawFollowsItsRule
  refine fun e x s => ⟨fun hf => execRaw_refill_fault e x hf, fun h1 h32 => ?_⟩
  obtain ⟨r, br, hn⟩ := next_ok_of_range s.fetchWord s.engine.br h1 h32
  refine ⟨r, br, hn, fun ha hend => ?_, fun hok => ?_⟩ <;> rw [exec, execRaw_eq x hn]
  · rw [if_pos ⟨ha, hend⟩]
    rfl
  · have hin : ¬(0 < s.engine.clamp (copyLength e x) ∧
        s.engine.inLen < s.engine.inPtr + s.engine.clamp (copyLength e x)) := fun hbad =>
      hok.elim hbad.1.ne' fun h => Nat.not_lt_of_le h.1 hbad.2
    have hinside : ¬s.engine.leavesWindow (s.engine.clamp (copyLength e x)) := fun hl =>
      hok.elim hl.1.ne' fun h => Nat.not_lt_of_le h.2 hl.2
    rw [if_neg hin, if_neg hinside]
    rfl

/-- The offset as 42_block_decoder.md R168 writes it, the shift a power of two. -/
theorem backOffsetOf_eq (e : CodeTableEntry) (shift y : Nat) :
    backOffsetOf e shift y = e.offsetBase.toNat + y * 2 ^ shift := by
  rw [backOffsetOf, Nat.shiftLeft_eq]

/-- Settles O22: a refill out of NEXT's range, else MATCH's equation and its tests. -/
theorem matchFollowsItsRule : Obligations.MatchFollowsItsRule := by
  unfold Obligations.MatchFollowsItsRule
  intro e x y s
  simp only [← backOffsetOf_eq]
  refine ⟨fun hf => execMatch_refill_fault e x y hf, fun h1 h32 => ?_⟩
  obtain ⟨r, br, hn⟩ := next_ok_of_range s.fetchWord s.engine.br h1 h32
  refine ⟨r, br, hn, fun ha hbad => ?_, fun hok => ?_⟩ <;> rw [exec, execMatch_eq x y hn]
  · rw [if_pos ⟨ha, hbad⟩]
    rfl
  · have hgood : ¬badReference e x y s := fun hbad =>
      hok.elim hbad.1.ne' fun ⟨hpos, hle, _⟩ => hbad.2.elim hpos.ne' (Nat.not_lt_of_le hle)
    have hinside : ¬s.engine.leavesWindow (s.engine.clamp (copyLength e x)) := fun hl =>
      hok.elim hl.1.ne' fun ⟨_, _, hwin⟩ => Nat.not_lt_of_le hwin hl.2
    rw [if_neg hgood, if_neg hinside]
    rfl

/-! ### The command a DECODE step runs -/

section Decoded

variable {e : CodeTableEntry} {i : Instr} {s : State}

/-- The extra bits where the refill answers: the refilled accumulator (42_block_decoder.md R167). -/
theorem extraBitsAt_of_next {r : Word} {br : BitReader}
    (h : s.engine.br.next s.fetchWord (s.engine.pendingBits + e.codeLen.toNat) = .ok (r, br)) :
    extraBitsAt e s = ((s.engine.acc >>> e.codeLen.toNat) ||| r).toNat := by
  rw [extraBitsAt, refill_after_code h]
  rfl

/-- The extra bits where the refill faults: there are none (log 14). -/
theorem extraBitsAt_of_refill_fault
    (h : s.engine.pendingBits + e.codeLen.toNat < 1 ∨ 32 < s.engine.pendingBits + e.codeLen.toNat) :
    extraBitsAt e s = 0 := by
  have hr := (refill_error_iff (s.consumeCode e) (refillFault e s)).2 ⟨h, rfl⟩
  simp only [extraBitsAt, hr]

/-- A command read is one of the entry that the selected table's lookup gives. -/
theorem fetch_ok (h : fetch s = .ok i) :
    ∃ t, selectedTable? s.store s.engine.tableSel = some t ∧
      decodeEntry t s.engine.acc.toNat = .ok i.entry ∧
      decodeFields i.entry (extraBitsAt i.entry s) = .ok i := by
  rw [fetch] at h
  split at h
  · cases h
  · next t ht =>
    split at h
    · cases h
    · next e he =>
      obtain rfl := entry_of_decodeFields h
      exact ⟨t, ht, he, h⟩

/-- A lookup that answers has read the entry's index in the decode index (41_code_tables.md R145). -/
theorem decodeEntry_ok {t : TableStore} {source : Nat} (h : decodeEntry t source = .ok e) :
    ∃ k, t.decodeIndex[source &&& (2 ^ t.maxLen - 1)]? = some (some k) ∧
      t.table.entries[k]? = some e := by
  rw [decodeEntry] at h
  split at h
  · next e' he =>
    cases h
    obtain ⟨k, hk, hentry⟩ := Option.bind_eq_some_iff.1 he
    rw [TableStore.slot?, Option.getD_eq_iff] at hk
    exact ⟨k, hk.resolve_right nofun, hentry⟩
  · cases h

end Decoded

/-- Settles O19: the lookup's slot, and the kind and the fields that `decodeFields` gives of the refilled
accumulator. -/
theorem stepRunsTheDecodedCommand : Obligations.StepRunsTheDecodedCommand := by
  unfold Obligations.StepRunsTheDecodedCommand
  intro s i hp hi
  obtain ⟨t, ht, hlookup, hfields⟩ := fetch_ok hi
  obtain ⟨k, hk, hentry⟩ := decodeEntry_ok hlookup
  refine ⟨?step, ⟨t, k, ht, hk, hentry⟩, ?kind, fun r br hn => ?operands⟩
  case step => simp only [step_running (.inr (.inr hp)), engineStep, hp, decodeStep, hi]
  case kind =>
    rcases decodeFields_ok_cases hfields with ⟨hcmd, hi⟩ | ⟨hcmd, hi⟩ | ⟨hcmd, hi⟩ <;>
      rw [hi] <;> exact hcmd
  case operands =>
    rw [extraBitsAt_of_next hn] at hfields
    rcases decodeFields_ok_cases hfields with ⟨-, hi⟩ | ⟨-, hi⟩ | ⟨-, hi⟩ <;> rw [hi]
    · trivial
    · rfl
    · exact ⟨rfl, rfl⟩

/-! ### SETUP after START -/

section Header

variable {s : State} {br br' : BitReader} {r : Word} {a : Nat}

/-- The bits of `LE16(IN, a)` are stream bits (30_encoding.md R81). -/
theorem getLsbD_le16 (s : State) (a : Nat) {j : Nat} (hj : j < 16) :
    (s.fetchByte (a + 1) ++ s.fetchByte a).getLsbD j = s.streamBit (8 * a + j) := by
  rw [streamBit_eq_fetchByte, BitVec.getLsbD_append]
  by_cases hlow : j < 8
  · rw [if_pos hlow, show (8 * a + j) / 8 = a by omega, show (8 * a + j) % 8 = j by omega]
  · rw [if_neg hlow, show (8 * a + j) / 8 = a + 1 by omega, show (8 * a + j) % 8 = j - 8 by omega]

/-- A 16-bit field read at byte `a` is `LE16(IN, a)` (40_bit_reader.md R118, R121). -/
theorem fieldValue_eq_le16 (hat : br.At s.fetchWord (8 * a))
    (hn : br.next s.fetchWord 16 = .ok (r, br')) :
    fieldValue 16 r = (s.fetchByte (a + 1) ++ s.fetchByte a : Half).toNat := by
  refine Nat.eq_of_testBit_eq fun j => ?_
  rw [fieldValue, Nat.testBit_shiftRight, BitVec.testBit_toNat, BitVec.testBit_toNat]
  by_cases hj : j < 16
  · rw [hat.getLsbD_next hn hj, ← streamBit_eq, getLsbD_le16 s a hj]
  · rw [BitVec.getLsbD_of_ge _ _ (by omega : 32 ≤ 32 - 16 + j), BitVec.getLsbD_of_ge _ _ (by omega)]

/-- A word read at byte `a`, a multiple of 4, is the word fetched there. -/
theorem next_word_eq_fetchWord (ha : a % 4 = 0) (hat : br.At s.fetchWord (8 * a))
    (hn : br.next s.fetchWord 32 = .ok (r, br')) : r = s.fetchWord a :=
  BitVec.eq_of_getLsbD_eq fun j hj => by
    have hbit := hat.getLsbD_next hn hj
    rw [getLsbD_fetch _ ha hj]
    simpa using hbit

end Header

/-- Settles O17: three requests from stream bit 0 on read the bytes 0 to 7. -/
theorem setupReadsTheBlockHeader : Obligations.SetupReadsTheBlockHeader := by
  unfold Obligations.SetupReadsTheBlockHeader
  intro l s₀ s t hstart unpackInfo capField selector
  have hat := start_readerAt hstart
  obtain ⟨-, hs⟩ := (start_ok_iff l s₀ s).1 hstart
  have hp : s.engine.phase = .setup := by rw [hs]; rfl
  have hwin : s.engine.windowCapacity = l.windowCapacity := by rw [hs]; rfl
  obtain ⟨r₁, br₁, r₂, br₂, f, br₃, h₁, h₂, h₃, heq⟩ := setupStep_eq s
  have hat₁ := hat.next h₁
  have hat₂ := hat₁.next h₂
  obtain ⟨hu, hw, hfp⟩ := (hat₂.next h₃).registers
  replace hu : br₃.bitsUsed = 0 := hu
  replace hfp : br₃.fetchPtr = 12 := by rw [hfp, if_pos hu]
  have hinfo : fieldValue 16 r₁ = unpackInfo.toNat := fieldValue_eq_le16 (a := 0) hat h₁
  have hcap : fieldValue 16 r₂ = capField.toNat := fieldValue_eq_le16 (a := 2) hat₁ h₂
  obtain rfl : f = selector := next_word_eq_fetchWord (a := 4) rfl hat₂ h₃
  have hstep : step s = setupStep s := by simp only [step_running (.inl hp), engineStep, hp]
  rw [hinfo, BitVec.ofNat_toNat, BitVec.setWidth_eq, hcap, hwin, Config.maxBlockOutput] at heq
  rw [hstep, heq]
  refine ⟨fun hbad => ⟨br₂, ?_⟩, fun hle hfit ht => ⟨br₃, ?_, ?_, hu, hfp⟩⟩
  · rw [if_pos hbad]
    rfl
  · rw [if_neg (by rw [not_or, not_lt, not_lt]; exact ⟨hle, hfit⟩), ht]
    rfl
  · rw [hw, hfp]

/-! ### The bounds -/

section Bounds

variable {s t : State}

/-- Of a running engine's steps only a command's copy writes OUT, from the old `written` up to the new
one. -/
theorem step_running_buf (hrun : s.engine.phase.running) (h : step s = .next t) :
    t.buf = s.buf ∨
      t.engine.phase.pastSetup ∧
        ∀ a, a < s.engine.windowBase + s.engine.written ∨
            s.engine.windowBase + t.engine.written ≤ a → t.buf.read a = s.buf.read a := by
  rcases step_next_cases h with ⟨-, h⟩ | ⟨-, h⟩ | ⟨-, h⟩ | ⟨hrest, -⟩
  · obtain ⟨_, _, _, _, _, _, -, -, -, ⟨st, rfl⟩ | ⟨tab, -, -, rfl⟩⟩ := setupStep_next h <;>
      exact .inl rfl
  · rcases checkStep_next h with ⟨-, rfl⟩ | ⟨-, rfl⟩ <;> exact .inl rfl
  · obtain ⟨i, -, hexec⟩ := decodeStep_next h
    obtain ⟨br, acc, p, ⟨st, rfl⟩ | ⟨n, k, ph, m, hph, hm, rfl⟩⟩ := exec_next_cases hexec
    · exact .inl rfl
    · exact .inr ⟨hph, fun a ha => hm a (ha.imp_right fun ha => by rwa [Nat.add_assoc])⟩
  · exact absurd hrun hrest

/-- A MATCH that copies has its offset inside the bytes written (42_block_decoder.md R168). -/
theorem execMatch_backOffset_bounds {e : CodeTableEntry} {x y : Nat} (h : execMatch e x y s = .next t)
    (hlt : s.engine.written < t.engine.written) :
    0 < backOffsetOf e s.engine.offsetShift y ∧
      backOffsetOf e s.engine.offsetShift y ≤ s.engine.written := by
  rcases execMatch_next h with ⟨st, rfl⟩ | ⟨r, br, -, ⟨st, rfl⟩ | ⟨hgood, rfl⟩⟩
  · exact absurd hlt (lt_irrefl _)
  · exact absurd hlt (lt_irrefl _)
  · exact backOffset_bounds hgood (Nat.pos_of_lt_add_right hlt)

end Bounds

/-- Settles O37: the invariant's bounds, the bytes a command's copy writes, and MATCH's test of its
offset. -/
theorem outputStaysInBounds : Obligations.OutputStaysInBounds := by
  unfold Obligations.OutputStaysInBounds
  intro s t hs h
  have hbounds : t.engine.phase.pastSetup → t.engine.BoundsInv := by
    obtain ⟨-, ⟨-, -, hpast, -⟩, -⟩ := stepKeepsTheInvariant s t hs h
    exact fun hp => (hpast hp).2.1
  refine ⟨hbounds, fun hrun a ha => ?_, fun e x y hp hf hlt => ?_⟩
  · rcases step_running_buf hrun h with hbuf | ⟨hp, hother⟩
    · rw [hbuf]
    · obtain ⟨hle, -⟩ := hbounds hp
      exact hother a (by omega)
  · rw [step_running (.inr (.inr hp)), engineStep, hp] at h
    obtain ⟨i, hi, hexec⟩ := decodeStep_next h
    rw [hf] at hi
    cases hi
    exact execMatch_backOffset_bounds hexec hlt

end Sys2Proof.Machine
end

section
/-! SUPPORT. A block's steps depend on its own input bytes, its own written bytes and the parameters alone
(42_block_decoder.md R176): a simulation between two machines that agree on these, step by step. -/

namespace Sys2Proof.Machine

/-! ### What a block sees -/

/-- The same engine with the same parameters, beside another file, buffer and container decoder. -/
def State.beside (f : FileImage) (m : Memory) (c : Container) (s : State) : State :=
  { s with file := f, buf := m, container := c }

/-- File `f` and buffer `m` agree with the state's own on the bytes its block can read: its input, and
what it has written of OUT. -/
structure State.Agrees (s : State) (f : FileImage) (m : Memory) : Prop where
  input : ∀ k, k < s.engine.inLen →
    f.bytes.read (s.engine.inBase + k) = s.file.bytes.read (s.engine.inBase + k)
  output : ∀ j, j < s.engine.written →
    m.read (s.engine.windowBase + j) = s.buf.read (s.engine.windowBase + j)

section View

variable {f : FileImage} {m : Memory} {c : Container} {s t : State}

@[simp] theorem beside_store : (s.beside f m c).store = s.store := rfl
@[simp] theorem beside_literalStart : (s.beside f m c).literalStart = s.literalStart := rfl
@[simp] theorem beside_engine : (s.beside f m c).engine = s.engine := rfl

/-- The word fetch reads the block's own bytes alone (20_memory.md R53). -/
theorem State.Agrees.fetchWord (h : s.Agrees f m) : (s.beside f m c).fetchWord = s.fetchWord := by
  have hbyte : (s.beside f m c).fetchByte = s.fetchByte := by
    funext k
    rw [State.fetchByte, State.fetchByte, beside_engine]
    split
    · next hk => exact h.input k hk
    · rfl
  funext a
  simp only [State.fetchWord, hbyte]

/-- NEXT gives the same answer. -/
theorem State.Agrees.next_ok {n : Nat} {r : Word} {br : BitReader} (h : s.Agrees f m)
    (hn : s.engine.br.next s.fetchWord n = .ok (r, br)) :
    (s.beside f m c).engine.br.next (s.beside f m c).fetchWord n = .ok (r, br) := by
  rwa [h.fetchWord]

/-- The extra bits come from the engine's registers and the block's words. -/
theorem State.Agrees.extraBitsAt (h : s.Agrees f m) (e : CodeTableEntry) :
    extraBitsAt e (s.beside f m c) = extraBitsAt e s := by
  rcases refill_split e s with hf | ⟨r, br, hn⟩
  · rw [extraBitsAt_of_refill_fault hf, extraBitsAt_of_refill_fault (s := s.beside f m c) hf]
  · rw [extraBitsAt_of_next hn, extraBitsAt_of_next (h.next_ok hn), beside_engine]

/-- The same command is read. -/
theorem State.Agrees.fetch (h : s.Agrees f m) : fetch (s.beside f m c) = fetch s := by
  simp only [Machine.fetch, beside_store, beside_engine, h.extraBitsAt]

/-- A step that writes no byte of OUT keeps the agreement. -/
theorem State.Agrees.kept (h : s.Agrees f m) (hb : SameBlock s t) (hbuf : t.buf = s.buf)
    (hw : t.engine.written = s.engine.written) : t.Agrees f m where
  input := by rw [hb.inLen, hb.inBase, hb.file]; exact h.input
  output := by rw [hw, hb.windowBase, hbuf]; exact h.output

/-- A copy whose `n` bytes are the same in both buffers keeps the agreement. -/
theorem State.Agrees.copied {n : Nat} {m' : Memory} (h : s.Agrees f m) (hb : SameBlock s t)
    (hw : t.engine.written = s.engine.written + n) (hbuf : s.SameOutside n t.buf)
    (hbuf' : (s.beside f m c).SameOutside n m')
    (hnew : ∀ j, j < n → m'.read (s.engine.windowBase + s.engine.written + j) =
      t.buf.read (s.engine.windowBase + s.engine.written + j)) : t.Agrees f m' where
  input := by rw [hb.inLen, hb.inBase, hb.file]; exact h.input
  output j hj := by
    rw [hb.windowBase]
    rcases Nat.lt_or_ge j s.engine.written with hold | hge
    · have hbelow := Nat.add_lt_add_left hold s.engine.windowBase
      rw [hbuf _ (.inl hbelow), hbuf' _ (.inl hbelow)]
      exact h.output j hold
    · have hread := hnew (j - s.engine.written) (by omega)
      rwa [Nat.add_assoc, Nat.add_sub_cancel' hge] at hread

end View

/-! ### The simulation -/

/-- Where the first outcome is a next state, the second is the same one beside `f`, `c` and a buffer that
agrees with it. -/
def Simulates (f : FileImage) (c : Container) (o o' : Host.Outcome State Fault Refusal) : Prop :=
  ∀ t, o = .next t → ∃ m, o' = .next (t.beside f m c) ∧ t.Agrees f m

section Simulation

variable {f : FileImage} {m : Memory} {c : Container} {s t : State} {e : CodeTableEntry} {x y : Nat}

theorem simulates_next (h : t.Agrees f m) : Simulates f c (.next t) (.next (t.beside f m c)) :=
  fun _ ht => ⟨m, by cases ht; exact ⟨rfl, h⟩⟩

theorem simulates_fault (r : Fault) : Simulates f c (.fault r) (.fault r) :=
  fun _ ht => by cases ht

theorem simulates_refused (r : Refusal) : Simulates f c (.refused r) (.refused r) :=
  fun _ ht => by cases ht

/-- Both machines take the same branch of a test. -/
theorem simulates_ite {p : Prop} [Decidable p] {o₁ o₁' o₂ o₂' : Host.Outcome State Fault Refusal}
    (h₁ : p → Simulates f c o₁ o₁') (h₂ : ¬p → Simulates f c o₂ o₂') :
    Simulates f c (if p then o₁ else o₂) (if p then o₁' else o₂') := by
  split
  · next hp => exact h₁ hp
  · next hp => exact h₂ hp

/-- SETUP reads the block's first words and the parameters. -/
theorem setupStep_simulates (h : s.Agrees f m) :
    Simulates f c (setupStep s) (setupStep (s.beside f m c)) := by
  obtain ⟨r₁, br₁, r₂, br₂, w, br₃, h₁, h₂, h₃, heq⟩ := setupStep_eq s
  obtain ⟨_, _, _, _, _, _, h₁', h₂', h₃', heq'⟩ := setupStep_eq (s.beside f m c)
  rw [h.fetchWord, beside_engine, h₁] at h₁'
  cases h₁'
  rw [h.fetchWord, h₂] at h₂'
  cases h₂'
  rw [h.fetchWord, h₃] at h₃'
  cases h₃'
  rw [heq, heq']
  refine simulates_ite (fun _ => ?fault) (fun _ => ?done)
  case fault => exact simulates_next (h.kept ((sameBlock_headerRead br₂ _).raise _) rfl rfl)
  case done =>
    rw [beside_store]
    split
    · exact simulates_refused _
    · next tab _ => exact simulates_next (h.kept (sameBlock_setupDone _ w br₃ _ tab) rfl rfl)

/-- CHECK tests two engine registers. -/
theorem checkStep_simulates (h : s.Agrees f m) :
    Simulates f c (checkStep s) (checkStep (s.beside f m c)) := by
  rw [checkStep_eq, checkStep_eq]
  exact simulates_next (h.kept (sameBlock_withPhase _) rfl rfl)

/-- LIT copies a byte of the block's input. -/
theorem execLit_simulates (h : s.Agrees f m) (hs : s.buf.wf = true) (hm : m.wf = true) :
    Simulates f c (execLit e s) (execLit e (s.beside f m c)) := by
  rw [execLit_eq, execLit_eq]
  refine simulates_ite (fun _ => ?full) fun _ => simulates_ite (fun _ => ?ended) fun hin =>
    simulates_ite (fun _ => simulates_fault _) fun _ => ?done
  case full => exact simulates_next (h.kept ((sameBlock_consumeCode e).raise _) rfl rfl)
  case ended => exact simulates_next (h.kept ((sameBlock_consumeCode e).raise _) rfl rfl)
  case done =>
    refine simulates_next (t := litDone e s)
      (h.copied (c := c) (n := 1) (sameBlock_litDone e) rfl ?below ?below' ?new)
    case below => exact fun a ha => read_write_other s.buf _ (by omega)
    case below' => exact fun a ha => read_write_other m _ (by rw [beside_engine] at ha ⊢; omega)
    case new =>
      intro j hj
      rw [Nat.lt_one_iff.1 hj, Nat.add_zero, litDone_buf, read_write_same hs]
      exact (read_write_same hm _ _).trans (h.input _ (Nat.lt_of_not_le hin))

/-- RAW copies a run of the block's input. -/
theorem execRaw_simulates (h : s.Agrees f m) (hs : s.buf.wf = true) (hm : m.wf = true) :
    Simulates f c (execRaw e x s) (execRaw e x (s.beside f m c)) := by
  rcases refill_split e s with hf | ⟨r, br, hn⟩
  · rw [execRaw_refill_fault e x hf, execRaw_refill_fault e x (s := s.beside f m c) hf]
    exact simulates_next (h.kept ((sameBlock_consumeCode e).raise _) rfl rfl)
  · rw [execRaw_eq x hn, execRaw_eq x (h.next_ok (c := c) hn)]
    refine simulates_ite (fun _ => ?ended) fun hin =>
      simulates_ite (fun _ => simulates_fault _) fun _ => ?done
    case ended => exact simulates_next (h.kept ((sameBlock_rawReady e r br).raise _) rfl rfl)
    case done =>
      refine simulates_next (t := rawDone e (s.engine.clamp (copyLength e x)) r br s)
        (h.copied (c := c) (sameBlock_rawDone ..) rfl ?below ?below' ?new)
      case below => exact fun a ha => copyInput_read_other _ _ _ _ s.buf ha
      case below' => exact fun a ha => copyInput_read_other _ _ _ _ m ha
      case new =>
        intro j hj
        rw [rawDone_buf, copyInput_read _ _ _ _ hs hj]
        refine (copyInput_read _ _ _ _ hm hj).trans ?_
        rw [beside_engine, Nat.add_assoc]
        exact h.input _ (by omega)

/-- MATCH copies bytes the block has written. -/
theorem execMatch_simulates (h : s.Agrees f m) (hs : s.buf.wf = true) (hm : m.wf = true) :
    Simulates f c (execMatch e x y s) (execMatch e x y (s.beside f m c)) := by
  rcases refill_split e s with hf | ⟨r, br, hn⟩
  · rw [execMatch_refill_fault e x y hf, execMatch_refill_fault e x y (s := s.beside f m c) hf]
    exact simulates_next (h.kept ((sameBlock_consumeCode e).raise _) rfl rfl)
  · rw [execMatch_eq x y hn, execMatch_eq x y (h.next_ok (c := c) hn)]
    refine simulates_ite (fun _ => ?bad) fun hgood =>
      simulates_ite (fun _ => simulates_fault _) fun _ => ?done
    case bad => exact simulates_next (h.kept ((sameBlock_matchReady e r br).raise _) rfl rfl)
    case done =>
      refine simulates_next
        (t := matchDone e (s.engine.clamp (copyLength e x)) (backOffsetOf e s.engine.offsetShift y)
          r br s)
        (h.copied (c := c) (sameBlock_matchDone ..) rfl ?below ?below' ?new)
      case below => exact fun a ha => copyOutput_read_other _ _ _ s.buf ha
      case below' => exact fun a ha => copyOutput_read_other _ _ _ m ha
      case new =>
        intro j hj
        obtain ⟨hb, hle⟩ := backOffset_bounds hgood (Nat.zero_lt_of_lt hj)
        have hmod := Nat.mod_lt j hb
        rw [matchDone_read hs hb hle hj]
        have hread := matchDone_read (s := s.beside f m c) (e := e) (r := r) (br := br) hm hb hle hj
        refine hread.trans ?_
        rw [beside_engine, Nat.add_assoc]
        exact h.output _ (by omega)

/-- DECODE reads and runs the same command. -/
theorem decodeStep_simulates (h : s.Agrees f m) (hs : s.buf.wf = true) (hm : m.wf = true) :
    Simulates f c (decodeStep s) (decodeStep (s.beside f m c)) := by
  rw [decodeStep, decodeStep, h.fetch]
  split
  · exact simulates_refused _
  · next i _ =>
    cases i with
    | lit e => exact execLit_simulates h hs hm
    | raw e x => exact execRaw_simulates h hs hm
    | matchCopy e x y => exact execMatch_simulates h hs hm

/-- A running engine's step is simulated beside any file and buffer that agree. -/
theorem step_simulates (hrun : s.engine.phase.running) (h : s.Agrees f m) (hs : s.buf.wf = true)
    (hm : m.wf = true) : Simulates f c (step s) (step (s.beside f m c)) := by
  rw [step_running hrun, step_running (s := s.beside f m c) hrun, engineStep, engineStep, beside_engine]
  rcases hrun with hp | hp | hp <;> rw [hp]
  · exact setupStep_simulates h
  · exact checkStep_simulates h
  · exact decodeStep_simulates h hs hm

/-- A running engine's step stays on its block. -/
theorem step_running_sameBlock (hrun : s.engine.phase.running) (h : step s = .next t) :
    SameBlock s t := by
  rcases step_next_cases h with ⟨-, h⟩ | ⟨-, h⟩ | ⟨-, h⟩ | ⟨hrest, -⟩
  · obtain ⟨_, _, _, _, _, _, -, -, -, ⟨st, rfl⟩ | ⟨tab, -, -, rfl⟩⟩ := setupStep_next h
    · exact (sameBlock_headerRead _ _).raise st
    · exact sameBlock_setupDone ..
  · rcases checkStep_next h with ⟨-, rfl⟩ | ⟨-, rfl⟩ <;> exact sameBlock_withPhase _
  · obtain ⟨i, -, hexec⟩ := decodeStep_next h
    obtain ⟨br, acc, p, ⟨st, rfl⟩ | ⟨n, k, ph, m, -, -, rfl⟩⟩ := exec_next_cases hexec <;>
      exact ⟨rfl, rfl, rfl, rfl, rfl, rfl, rfl⟩
  · exact absurd hrun hrest

end Simulation

/-- Settles O40: the second machine is the first beside its own file, buffer and container decoder, and
that machine's step simulates the first one's. -/
theorem blocksAreIndependent : Obligations.BlocksAreIndependent := by
  unfold Obligations.BlocksAreIndependent
  intro s t u hs hrun h heng hstore hls hubuf hin hout
  obtain ⟨⟨-, hbuf⟩, -⟩ := hs
  have hu : u = s.beside u.file u.buf u.container := by
    rw [State.beside, ← heng, ← hstore, ← hls]
  have hagrees : s.Agrees u.file u.buf :=
    ⟨fun k hk => hin _ (Nat.le_add_right _ k) (Nat.add_lt_add_left hk _), hout⟩
  obtain ⟨m, hv, hm⟩ := step_simulates (c := u.container) hrun hagrees hbuf hubuf t h
  have hblock := step_running_sameBlock hrun h
  rw [← hu] at hv
  exact ⟨_, hv, rfl, rfl, rfl, hblock.file, hblock.container, hm.output⟩

end Sys2Proof.Machine
end

section
/-! SUPPORT. The file header (45_host_container.md section 1): when a field passes its check, and what the
first field that does not pass reports (R211 to R214). -/

namespace Sys2Proof.Machine

/-! ### Slices of a memory -/

theorem length_slice (m : Memory) (base n : Nat) : (m.slice base n).length = n := by
  simp [Memory.slice]

theorem getElem?_slice (m : Memory) (base : Nat) {n k : Nat} (h : k < n) :
    (m.slice base n)[k]? = some (m.read (base + k)) := by
  rw [Memory.slice, List.getElem?_map, List.getElem?_range h]
  rfl

/-- A slice of a memory is a given list exactly when each of the list's bytes stands at its place. -/
theorem slice_eq_iff (m : Memory) (base : Nat) (bytes : List Byte) :
    m.slice base bytes.length = bytes ↔ ∀ k b, bytes[k]? = some b → m.read (base + k) = b := by
  constructor
  · intro h k b hb
    obtain ⟨hk, -⟩ := List.getElem?_eq_some_iff.1 hb
    rw [← h, getElem?_slice m base hk] at hb
    exact Option.some.inj hb
  · intro h
    refine List.ext_getElem (length_slice m base _) fun k _ hk => ?_
    simpa [Memory.slice] using h k _ (List.getElem?_eq_getElem hk)

/-! ### One field -/

/-- A field passes exactly when the file holds it and its value is as expected
(45_host_container.md R212, R214). -/
theorem fieldFault?_eq_none_iff (f : FileImage) (h : HeaderField) :
    f.fieldFault? h = none ↔
      h.offset + h.size ≤ f.len ∧ h.expected.accepts (f.headerValue h) = true := by
  rw [FileImage.fieldFault?]
  split
  · next hlen => simp [hlen]
  · next hlen =>
    split
    · next hacc => simp [hacc, Nat.le_of_not_lt hlen]
    · next hacc => simp [hacc]

/-- What a field that does not pass reports: no actual value where the file does not hold the field. -/
theorem fieldFault?_eq_some_iff (f : FileImage) (h : HeaderField) (st : Status) :
    f.fieldFault? h = some st ↔
      f.len < h.offset + h.size ∧
          st = { kind := .invalidHeader, info := .header h h.expected none } ∨
        h.offset + h.size ≤ f.len ∧ h.expected.accepts (f.headerValue h) = false ∧
          st = { kind := .invalidHeader, info := .header h h.expected (some (f.headerValue h)) } := by
  rw [FileImage.fieldFault?]
  split
  · next hlen => simp [hlen, Nat.not_le_of_lt hlen, eq_comm (b := st)]
  · next hlen =>
    split
    · next hacc => simp [hacc, hlen]
    · next hacc => simp [hacc, hlen, Nat.le_of_not_lt hlen, eq_comm]

/-! ### The header check -/

/-- Settles O45: the six fields' checks, the last of which reaches up to offset 0x14. -/
theorem headerIsAcceptedExactly : Obligations.HeaderIsAcceptedExactly := by
  unfold Obligations.HeaderIsAcceptedExactly
  intro f
  have hsig : f.bytes.slice 0x04 8 = signatureBytes ↔ _ := slice_eq_iff f.bytes 0x04 signatureBytes
  simp only [FileImage.headerFault?, headerFields, List.findSome?_eq_none_iff, List.forall_mem_cons,
    List.not_mem_nil, false_implies, implies_true, and_true, fieldFault?_eq_none_iff,
    HeaderField.offset, HeaderField.size, HeaderField.expected, FileImage.headerValue,
    HeaderExpected.accepts, decide_eq_true_eq, beq_iff_eq, HeaderValue.num.injEq,
    HeaderValue.text.injEq]
  rw [eq_comm (b := f.bytes.slice _ _), hsig]
  constructor
  · rintro ⟨⟨-, hver⟩, ⟨-, hflag⟩, ⟨-, htext⟩, -, ⟨-, hmode⟩, hlen⟩
    exact ⟨hlen, hver.symm, hflag, htext, hmode.symm⟩
  · rintro ⟨hlen, hver, hflag, htext, hmode⟩
    exact ⟨⟨by omega, hver.symm⟩, ⟨by omega, hflag⟩, ⟨by omega, htext⟩, by omega,
      ⟨by omega, hmode.symm⟩, hlen⟩

/-- A file whose header fails its check fails with the header's fault (60_exceptions.md R248). -/
theorem parse_of_headerFault {f : FileImage} {st : Status} (h : f.headerFault? = some st) :
    f.parse = .error st := by
  rw [FileImage.parse, h]

/-- Of a file whose header passes, the offset table is checked next. -/
theorem parse_of_header {f : FileImage} (h : f.headerFault? = none) : f.parse = f.parseBlocks := by
  rw [FileImage.parse, h]

/-- Settles O46: the fault found is that of the first field with one, so that all fields before it pass. -/
theorem firstWrongHeaderFieldIsReported : Obligations.FirstWrongHeaderFieldIsReported := by
  unfold Obligations.FirstWrongHeaderFieldIsReported
  intro f st hst
  obtain ⟨before, h, rest, hsplit, hfault, hgood⟩ := List.findSome?_eq_some_iff.1 hst
  refine ⟨parse_of_headerFault hst, before.length, h, by simp [hsplit], fun m g hm hg => ?_,
    (fieldFault?_eq_some_iff f h st).1 hfault⟩
  rw [hsplit, List.getElem?_append_left hm] at hg
  exact (fieldFault?_eq_none_iff f g).1 (hgood g (List.mem_of_getElem? hg))

end Sys2Proof.Machine
end

section
/-! SUPPORT. The offset table (45_host_container.md section 2): where the loop that reads it ends, the block
ranges it gives, and the checks of those ranges (R215 to R217). -/

namespace Sys2Proof.Machine

/-! ### The loop over the table -/

/-- The first `n` entries of an offset table at `cur`. -/
def FileImage.tableEnds (f : FileImage) (cur n : Nat) : List Nat :=
  (List.range n).map fun k => (f.le32 (cur + 4 * k)).toNat

theorem tableEnds_succ (f : FileImage) (cur n : Nat) :
    f.tableEnds cur (n + 1) = (f.le32 cur).toNat :: f.tableEnds (cur + 4) n := by
  simp [FileImage.tableEnds, List.range_succ_eq_map, Nat.mul_add, Nat.add_assoc, Nat.add_comm 4]

section Loop

variable {f : FileImage} {v0 fuel cur n : Nat}

/-- A pass of the loop whose entry the file holds. -/
theorem readEnds_succ (hcur : cur < v0) (hfit : cur + 4 ≤ f.len) :
    f.readEnds v0 (fuel + 1) cur =
      (f.readEnds v0 fuel (cur + 4)).map fun p => ((f.le32 cur).toNat :: p.1, p.2) := by
  rw [FileImage.readEnds, if_pos hcur, if_neg (Nat.not_lt_of_le hfit)]
  cases f.readEnds v0 fuel (cur + 4) <;> rfl

/-- Where the file holds every entry below V0, the loop reads them all and ends at the first cursor not
below V0. -/
theorem readEnds_of_fits (hfuel : n ≤ fuel) (hstop : v0 ≤ cur + 4 * n)
    (hlast : 0 < n → cur + 4 * n < v0 + 4) (hfit : 0 < n → cur + 4 * n ≤ f.len) :
    f.readEnds v0 fuel cur = .ok (f.tableEnds cur n, cur + 4 * n) := by
  induction n generalizing fuel cur with
  | zero =>
    cases fuel with
    | zero => rfl
    | succ fuel => exact if_neg (Nat.not_lt_of_le hstop)
  | succ n ih =>
    obtain ⟨fuel, rfl⟩ := Nat.exists_eq_add_of_lt hfuel
    rw [show n + fuel + 1 = (n + fuel) + 1 from rfl, readEnds_succ (by omega) (by omega),
      ih (by omega) (by omega) (by omega) (by omega), tableEnds_succ,
      show cur + 4 + 4 * n = cur + 4 * (n + 1) by omega]
    rfl

/-- An entry below V0 past the file's end is the loop's fault, at that entry's cursor. -/
theorem readEnds_of_entry_past_end (hfuel : n < fuel) (hcur : cur + 4 * n < v0)
    (hfit : 0 < n → cur + 4 * n ≤ f.len) (hend : f.len < cur + 4 * n + 4) :
    f.readEnds v0 fuel cur = .error (offsetTableFault (cur + 4 * n) none) := by
  induction n generalizing fuel cur with
  | zero =>
    obtain ⟨fuel, rfl⟩ := Nat.exists_eq_add_of_lt hfuel
    exact (if_pos hcur).trans (if_pos hend)
  | succ n ih =>
    obtain ⟨fuel, rfl⟩ := Nat.exists_eq_add_of_lt hfuel
    rw [readEnds_succ (by omega) (by omega), ih (by omega) (by omega) (by omega) (by omega),
      show cur + 4 + 4 * n = cur + 4 * (n + 1) by omega]
    rfl

end Loop

/-! ### The block ranges -/

/-- Block `i` as the offset table gives it (45_host_container.md R216). -/
def FileImage.tableBlock (f : FileImage) (i : Nat) : BlockRange :=
  { start := if i = 0 then (f.le32 0x14).toNat else (f.le32 (0x18 + 4 * (i - 1))).toNat
    stop := (f.le32 (0x18 + 4 * i)).toNat }

/-- The blocks of an offset table of `n` entries. -/
def FileImage.tableBlocks (f : FileImage) (n : Nat) : List BlockRange :=
  (List.range n).map f.tableBlock

theorem length_tableBlocks (f : FileImage) (n : Nat) : (f.tableBlocks n).length = n := by
  simp [FileImage.tableBlocks]

theorem getElem?_tableBlocks (f : FileImage) {n i : Nat} (h : i < n) :
    (f.tableBlocks n)[i]? = some (f.tableBlock i) := by
  rw [FileImage.tableBlocks, List.getElem?_map, List.getElem?_range h]
  rfl

/-- Each block starts where its predecessor ends. -/
theorem blockRanges_map_range (first : Nat) (stop : Nat → Nat) (n : Nat) :
    blockRanges first ((List.range n).map stop) =
      (List.range n).map fun i =>
        { start := if i = 0 then first else stop (i - 1), stop := stop i } := by
  induction n generalizing first stop with
  | zero => rfl
  | succ n ih =>
    rw [List.range_succ_eq_map, List.map_cons, List.map_map, blockRanges, ih, List.map_cons,
      List.map_map]
    refine congrArg _ (List.map_congr_left fun i _ => ?_)
    cases i <;> rfl

theorem blockRanges_tableEnds (f : FileImage) (n : Nat) :
    blockRanges (f.le32 0x14).toNat (f.tableEnds 0x18 n) = f.tableBlocks n :=
  blockRanges_map_range _ _ n

/-! ### The range checks -/

/-- The range checks pass over good ranges. -/
theorem rangeFault?_append (fileLength i : Nat) {good : List BlockRange} (bs : List BlockRange)
    (h : ∀ a ∈ good, a.start ≤ a.stop ∧ a.stop ≤ fileLength) :
    rangeFault? fileLength i (good ++ bs) = rangeFault? fileLength (i + good.length) bs := by
  induction good generalizing i with
  | nil => rfl
  | cons a good ih =>
    obtain ⟨⟨hle, hlen⟩, hgood⟩ := List.forall_mem_cons.1 h
    rw [List.cons_append, rangeFault?, if_neg (Nat.not_lt_of_le hle), if_neg (Nat.not_lt_of_le hlen),
      ih _ hgood, List.length_cons, Nat.add_right_comm, Nat.add_assoc]

/-- The fault of the first bad range is that of its own two checks (45_host_container.md R217). -/
theorem rangeFault?_first {fileLength i : Nat} {bs : List BlockRange} {b : BlockRange}
    (hb : bs[i]? = some b)
    (hgood : ∀ j a, j < i → bs[j]? = some a → a.start ≤ a.stop ∧ a.stop ≤ fileLength) :
    (b.stop < b.start → rangeFault? fileLength 0 bs =
      some { kind := .unsupportedOffsetTable, info := .offsetTableBlock i }) ∧
    (b.start ≤ b.stop → fileLength < b.stop → rangeFault? fileLength 0 bs =
      some { kind := .truncatedBlock, info := .truncatedRange i b.stop fileLength }) := by
  obtain ⟨hi, hbi⟩ := List.getElem?_eq_some_iff.1 hb
  have hbefore : ∀ a ∈ bs.take i, a.start ≤ a.stop ∧ a.stop ≤ fileLength := fun a ha => by
    obtain ⟨j, hj⟩ := List.mem_iff_getElem?.1 ha
    rw [List.getElem?_take] at hj
    split at hj
    · next hji => exact hgood j a hji hj
    · cases hj
  have hfirst : rangeFault? fileLength 0 bs = rangeFault? fileLength i (b :: bs.drop (i + 1)) := by
    conv_lhs => rw [← List.take_append_drop i bs, rangeFault?_append _ _ _ hbefore,
      List.drop_eq_getElem_cons hi, hbi, List.length_take, Nat.min_eq_left hi.le, Nat.zero_add]
  rw [hfirst, rangeFault?]
  exact ⟨fun hdec => if_pos hdec, fun hle hend => by
    rw [if_neg (Nat.not_lt_of_le hle), if_pos hend]⟩

/-! ### The table of a file -/

section Table

variable {f : FileImage} {n : Nat}

/-- The table's outcome where its loop ends at `cur` with `n` entries read. -/
theorem parseBlocks_of_readEnds {cur : Nat} (hlen : 0x18 ≤ f.len)
    (h : f.readEnds (f.le32 0x14).toNat (f.le32 0x14).toNat 0x18 = .ok (f.tableEnds 0x18 n, cur)) :
    f.parseBlocks =
      if cur = (f.le32 0x14).toNat then
        (rangeFault? f.len 0 (f.tableBlocks n)).elim (.ok (f.tableBlocks n)) .error
      else .error (offsetTableFault cur (some (f.le32 0x14).toNat)) := by
  simp only [FileImage.parseBlocks, if_neg (Nat.not_lt_of_le hlen), h, blockRanges_tableEnds]
  cases rangeFault? f.len 0 (f.tableBlocks n) <;> rfl

/-- A table of `n` entries that ends inside the file gives its `n` blocks, or their ranges' fault. -/
theorem parseBlocks_of_table (hv0 : (f.le32 0x14).toNat = 0x18 + 4 * n)
    (hend : (f.le32 0x14).toNat ≤ f.len) :
    f.parseBlocks =
      (rangeFault? f.len 0 (f.tableBlocks n)).elim (.ok (f.tableBlocks n)) .error := by
  rw [parseBlocks_of_readEnds (n := n) (by omega)
    (readEnds_of_fits (by omega) (by omega) (by omega) (by omega)), if_pos hv0.symm]

/-- A file with no room for V0. -/
theorem parseBlocks_of_short (hlen : f.len < 0x18) :
    f.parseBlocks = .error (offsetTableFault 0x14 none) := by
  rw [FileImage.parseBlocks, if_pos hlen]

/-- V0 below the table's start: no entry is read. -/
theorem parseBlocks_of_low (hlen : 0x18 ≤ f.len) (hv0 : (f.le32 0x14).toNat < 0x18) :
    f.parseBlocks = .error (offsetTableFault 0x18 (some (f.le32 0x14).toNat)) := by
  rw [parseBlocks_of_readEnds (n := 0) hlen
    (readEnds_of_fits (by omega) (by omega) (by omega) (by omega)), if_neg (by omega)]

/-- V0 past the last whole word of the file. -/
theorem parseBlocks_of_high (hlen : 0x18 ≤ f.len)
    (hv0 : 0x18 + 4 * ((f.len - 0x18) / 4) < (f.le32 0x14).toNat) :
    f.parseBlocks = .error (offsetTableFault (0x18 + 4 * ((f.len - 0x18) / 4)) none) := by
  simp only [FileImage.parseBlocks, if_neg (Nat.not_lt_of_le hlen),
    readEnds_of_entry_past_end (f := f) (n := (f.len - 0x18) / 4) (cur := 0x18)
      (fuel := (f.le32 0x14).toNat) (by omega) hv0 (by omega) (by omega)]

/-- V0 among the file's words, on no entry boundary. -/
theorem parseBlocks_of_misaligned (hlow : 0x18 ≤ (f.le32 0x14).toNat)
    (hhigh : (f.le32 0x14).toNat ≤ 0x18 + 4 * ((f.len - 0x18) / 4)) (hlen : 0x18 ≤ f.len)
    (hmod : ((f.le32 0x14).toNat - 0x18) % 4 ≠ 0) :
    f.parseBlocks = .error (offsetTableFault (0x18 + 4 * (((f.le32 0x14).toNat - 0x18) / 4 + 1))
      (some (f.le32 0x14).toNat)) := by
  rw [parseBlocks_of_readEnds (n := ((f.le32 0x14).toNat - 0x18) / 4 + 1) hlen
    (readEnds_of_fits (by omega) (by omega) (by omega) (by omega)), if_neg (by omega)]

/-- An accepted table has `n` entries up to V0, for some `n`, and ends inside the file. -/
theorem table_of_parseBlocks_ok {blocks : List BlockRange} (h : f.parseBlocks = .ok blocks) :
    ∃ n, (f.le32 0x14).toNat = 0x18 + 4 * n ∧ (f.le32 0x14).toNat ≤ f.len := by
  by_cases hlen : f.len < 0x18
  · rw [parseBlocks_of_short hlen] at h; cases h
  by_cases hlow : (f.le32 0x14).toNat < 0x18
  · rw [parseBlocks_of_low (by omega) hlow] at h; cases h
  by_cases hhigh : 0x18 + 4 * ((f.len - 0x18) / 4) < (f.le32 0x14).toNat
  · rw [parseBlocks_of_high (by omega) hhigh] at h; cases h
  by_cases hmod : ((f.le32 0x14).toNat - 0x18) % 4 = 0
  · exact ⟨((f.le32 0x14).toNat - 0x18) / 4, by omega, by omega⟩
  · rw [parseBlocks_of_misaligned (by omega) (by omega) (by omega) hmod] at h; cases h

/-- What the table's checks accept. -/
theorem parseBlocks_ok_iff (blocks : List BlockRange) :
    f.parseBlocks = .ok blocks ↔
      (f.le32 0x14).toNat = 0x18 + 4 * blocks.length ∧ (f.le32 0x14).toNat ≤ f.len ∧
        blocks = f.tableBlocks blocks.length ∧
        ∀ b ∈ blocks, b.start ≤ b.stop ∧ b.stop ≤ f.len := by
  constructor
  · intro h
    obtain ⟨n, hv0, hend⟩ := table_of_parseBlocks_ok h
    rw [parseBlocks_of_table hv0 hend] at h
    cases hgood : rangeFault? f.len 0 (f.tableBlocks n) with
    | some st => rw [hgood] at h; cases h
    | none =>
      rw [hgood] at h
      cases h
      rw [length_tableBlocks]
      exact ⟨hv0, hend, rfl, (rangeFault?_eq_none_iff _ _ _).1 hgood⟩
  · rintro ⟨hv0, hend, hblocks, hgood⟩
    rw [parseBlocks_of_table hv0 hend, ← hblocks, (rangeFault?_eq_none_iff _ 0 _).2 hgood]
    rfl

/-- The table's blocks, one by one: each ends at its entry and starts at V0 or its predecessor's end. -/
theorem eq_tableBlocks_iff (blocks : List BlockRange) :
    blocks = f.tableBlocks blocks.length ↔
      ∀ i b, blocks[i]? = some b →
        b.stop = (f.le32 (0x18 + 4 * i)).toNat ∧ (i = 0 → b.start = (f.le32 0x14).toNat) ∧
          ∀ j a, i = j + 1 → blocks[j]? = some a → b.start = a.stop := by
  constructor
  · intro h i b hb
    have hi : i < blocks.length := (List.getElem?_eq_some_iff.1 hb).1
    rw [h, getElem?_tableBlocks f hi] at hb
    cases hb
    refine ⟨rfl, fun h0 => if_pos h0, ?_⟩
    rintro j a rfl ha
    rw [h, getElem?_tableBlocks f (by omega)] at ha
    cases ha
    rfl
  · intro h
    refine List.ext_getElem? fun i => ?_
    by_cases hi : i < blocks.length
    · obtain ⟨hstop, hfirst, hnext⟩ := h i _ (List.getElem?_eq_getElem hi)
      rw [List.getElem?_eq_getElem hi, getElem?_tableBlocks f hi]
      have hstart : blocks[i].start = (f.tableBlock i).start := by
        cases i with
        | zero => exact hfirst rfl
        | succ j =>
          have hj := List.getElem?_eq_getElem (show j < blocks.length by omega)
          exact (hnext j _ rfl hj).trans (h j _ hj).1
      exact congrArg some (congrArg₂ BlockRange.mk hstart hstop)
    · rw [List.getElem?_eq_none (by omega), List.getElem?_eq_none (by rw [length_tableBlocks]; omega)]

end Table

/-! ### The obligations -/

/-- Settles O47: an accepted table is one of as many entries as there are blocks, all ranges good. -/
theorem blockRangesComeFromTheTable : Obligations.BlockRangesComeFromTheTable := by
  unfold Obligations.BlockRangesComeFromTheTable
  intro f blocks
  cases hh : f.headerFault? with
  | some st => simp [parse_of_headerFault hh]
  | none =>
    rw [parse_of_header hh, parseBlocks_ok_iff, eq_tableBlocks_iff]
    constructor
    · rintro ⟨hv0, hend, htable, hgood⟩
      refine ⟨rfl, hv0, hend, fun i b hb => ?_⟩
      obtain ⟨hstop, hstart⟩ := htable i b hb
      obtain ⟨hle, hlen⟩ := hgood b (List.mem_of_getElem? hb)
      exact ⟨hstop, hle, hlen, hstart⟩
    · rintro ⟨-, hv0, hend, hblocks⟩
      refine ⟨hv0, hend, fun i b hb => ?_, fun b hb => ?_⟩
      · obtain ⟨hstop, -, -, hstart⟩ := hblocks i b hb
        exact ⟨hstop, hstart⟩
      · obtain ⟨i, hi⟩ := List.mem_iff_getElem?.1 hb
        obtain ⟨-, hle, hlen, -⟩ := hblocks i b hi
        exact ⟨hle, hlen⟩

/-- Settles O48: the four places at which the loop can end but at V0. -/
theorem unreachableTableEndIsUnsupported : Obligations.UnreachableTableEndIsUnsupported := by
  unfold Obligations.UnreachableTableEndIsUnsupported
  intro f hh v0 entries fails
  simp only [fails, parse_of_header hh]
  exact ⟨parseBlocks_of_short, parseBlocks_of_low, parseBlocks_of_high,
    fun hlen hlow hhigh => parseBlocks_of_misaligned hlow hhigh hlen⟩

/-- Settles O49: of a list of ranges the first bad one's own checks, and of a file its table's ranges. -/
theorem firstBadRangeIsReported : Obligations.FirstBadRangeIsReported := by
  unfold Obligations.FirstBadRangeIsReported
  refine ⟨fun fileLength i bs b hb hgood => rangeFault?_first hb hgood, ?_⟩
  intro f n i hh hv0 hend hi stop start hgood
  have hfirst := rangeFault?_first (fileLength := f.len) (getElem?_tableBlocks f hi) fun j a hj ha => by
    rw [getElem?_tableBlocks f (hj.trans hi)] at ha
    cases ha
    exact hgood j hj
  rw [parse_of_header hh, parseBlocks_of_table hv0 hend]
  refine ⟨fun hdec => ?_, fun hle hlt => ?_⟩
  · rw [hfirst.1 hdec]
    rfl
  · rw [hfirst.2 hle hlt]
    rfl

end Sys2Proof.Machine
end

section
/-! SUPPORT. The host's steps (45_host_container.md section 3): what a file handed over changes, the file
check, the launch, the block's result and the returned buffer (R218 to R222, R224). -/

namespace Sys2Proof.Machine

/-! ### A file handed over -/

section Submit

variable {s : State} {bytes : List Byte}

/-- A file handed over while one is awaited, or a result stands, is to be checked; at any other time
nothing changes (log 12). -/
theorem submit_cases (bytes : List Byte) (s : State) :
    s.submit bytes = s ∨
      (s.container.phase = .awaitFile ∨ ∃ r, s.container.phase = .returned r) ∧
        s.submit bytes = { s with
          file := FileImage.ofBytes bytes, container := { s.container with phase := .checkFile } } := by
  cases hp : s.container.phase with
  | awaitFile => exact .inr ⟨.inl rfl, by simp only [State.submit, hp]⟩
  | returned r => exact .inr ⟨.inr ⟨r, rfl⟩, by simp only [State.submit, hp]⟩
  | powerUp | checkFile | nextBlock | decoding => exact .inl (by simp only [State.submit, hp])

/-- An engine runs only while the container decoder waits for its block. -/
theorem decoding_of_running (hs : s.Inv) (hrun : s.engine.phase.running) :
    s.container.phase = .decoding := by
  obtain ⟨-, -, -, -, hdec, -⟩ := hs
  exact hdec hrun

theorem not_running_of_not_decoding (hs : s.Inv) (h : s.container.phase ≠ .decoding) :
    ¬s.engine.phase.running := fun hrun => h (decoding_of_running hs hrun)

/-- A file given is to be checked before any block of it is due: of the machine's invariant the file's
canonical form alone is new. -/
theorem checkFile_inv (hs : s.Inv)
    (hp : s.container.phase = .awaitFile ∨ ∃ r, s.container.phase = .returned r) :
    State.Inv { s with
      file := FileImage.ofBytes bytes, container := { s.container with phase := .checkFile } } := by
  have hrest := not_running_of_not_decoding hs (by rcases hp with hp | ⟨r, hp⟩ <;> simp [hp])
  obtain ⟨⟨-, hbuf⟩, heng, hstore, hcat, -, -, -, hshift⟩ := hs
  have hacc := hcat (by rcases hp with hp | ⟨r, hp⟩ <;> simp [hp])
  exact ⟨⟨wf_ofBytes bytes, hbuf⟩, heng, hstore, fun _ => hacc, fun hrun => absurd hrun hrest, nofun,
    nofun, hshift⟩

end Submit

/-- Settles O36: a file given while the engine rests, with no block due of it yet. -/
theorem submitKeepsTheInvariant : Obligations.SubmitKeepsTheInvariant := by
  unfold Obligations.SubmitKeepsTheInvariant
  intro s bytes hs
  rcases submit_cases bytes s with heq | ⟨hp, heq⟩ <;> rw [heq]
  · exact ⟨hs, id, id, id⟩
  · have hrest := not_running_of_not_decoding hs (by rcases hp with hp | ⟨r, hp⟩ <;> simp [hp])
    exact ⟨checkFile_inv hs hp, fun _ => streamInv_of_not_running hrest, fun _ => ⟨nofun, nofun⟩,
      fun _ => nofun⟩

/-! ### The container decoder's steps, phase by phase -/

section Steps

variable {s : State}

/-- Where the engine rests, the step is the container decoder's. -/
theorem step_of_not_running (h : ¬s.engine.phase.running) : step s = containerStep s :=
  step_resting (resting_of_not_running h)

theorem step_checkFile_error {st : Status} (hp : s.container.phase = .checkFile)
    (hrest : ¬s.engine.phase.running) (h : s.file.parse = .error st) :
    step s = .next (s.withContainer (s.container.fail st none)) := by
  simp only [step_of_not_running hrest, containerStep, hp, checkFileStep, h]

theorem step_checkFile_ok {blocks : List BlockRange} (hp : s.container.phase = .checkFile)
    (hrest : ¬s.engine.phase.running) (h : s.file.parse = .ok blocks) :
    step s = .next ((s.withBuf []).withContainer
      { phase := .nextBlock, totalUncompressedSize := (s.file.le32 0x0C).toNat
        blocks := blocks, blockIndex := 0, writeCursor := 0 }) := by
  simp only [step_of_not_running hrest, containerStep, hp, checkFileStep, h]

/-- With no block left the buffer is returned (45_host_container.md R222). -/
theorem step_nextBlock_none (hp : s.container.phase = .nextBlock) (hrest : ¬s.engine.phase.running)
    (h : s.container.blocks[s.container.blockIndex]? = none) :
    step s = .next (s.withContainer { s.container with phase := .returned .buffer }) := by
  simp only [step_of_not_running hrest, containerStep, hp, nextBlockStep, h]

/-- A block that ended in FAULT is the file's error (45_host_container.md R221). -/
theorem step_collect_fault (hp : s.container.phase = .decoding) (he : s.engine.phase = .fault) :
    step s = .next
      (s.withContainer (s.container.fail s.engine.status (some s.container.blockIndex))) := by
  have hrest : ¬s.engine.phase.running := by simp [he]
  simp [step_of_not_running hrest, containerStep, hp, collectStep, Engine.report, he]

/-- After a block that ended in DONE the next one is due (45_host_container.md R220). -/
theorem step_collect_done (hp : s.container.phase = .decoding) (he : s.engine.phase = .done) :
    step s = .next (s.withContainer
      { s.container with
        phase := .nextBlock
        blockIndex := s.container.blockIndex + 1
        writeCursor := advanceCursor s.container.totalUncompressedSize s.container.writeCursor
          s.engine.written }) := by
  have hrest : ¬s.engine.phase.running := by simp [he]
  simp [step_of_not_running hrest, containerStep, hp, collectStep, Engine.report, he]

/-- A returned result enables no step (log 8). -/
theorem step_returned {r : ContainerResult} (hp : s.container.phase = .returned r)
    (hrest : ¬s.engine.phase.running) : step s = .fault .noStepEnabled := by
  simp only [step_of_not_running hrest, containerStep, hp]

end Steps

/-- Settles O33: the engine's status taken as the file's error, after which nothing is enabled. -/
theorem faultEndsTheFile : Obligations.FaultEndsTheFile := by
  unfold Obligations.FaultEndsTheFile
  intro s hp he
  exact ⟨_, step_collect_fault hp he, rfl, rfl, step_returned rfl (by simp [he])⟩

/-! ### The returned buffer -/

/-- A result that is a buffer is the output buffer's first `totalUncompressedSize` bytes. -/
theorem output_ok_iff (s : State) (bytes : List Byte) :
    s.output = some (.ok bytes) ↔
      s.container.phase = .returned .buffer ∧
        bytes = s.buf.slice 0 s.container.totalUncompressedSize := by
  cases hp : s.container.phase with
  | returned r =>
    cases r with
    | buffer => simp [State.output, hp, eq_comm]
    | error st block => simp [State.output, hp]
  | powerUp | awaitFile | checkFile | nextBlock | decoding => simp [State.output, hp]

theorem returned_bytes {s : State} {bytes : List Byte} (h : s.output = some (.ok bytes)) :
    bytes.length = s.container.totalUncompressedSize ∧
      ∀ k, k < bytes.length → bytes[k]? = some (s.buf.read k) := by
  obtain ⟨-, rfl⟩ := (output_ok_iff s bytes).1 h
  rw [length_slice]
  exact ⟨rfl, fun k hk => by rw [getElem?_slice _ _ hk, Nat.zero_add]⟩

/-- Settles O55: the returning step, and the slice it returns. -/
theorem outputHasTheTotalLength : Obligations.OutputHasTheTotalLength := by
  unfold Obligations.OutputHasTheTotalLength
  refine fun s => ⟨fun hp hrest hnone => ?_, fun bytes h => returned_bytes h⟩
  exact ⟨_, _, step_nextBlock_none hp hrest (List.getElem?_eq_none hnone), rfl, rfl,
    returned_bytes (s := s.withContainer { s.container with phase := .returned .buffer }) rfl⟩

/-- The bytes of an empty memory are 0. -/
theorem slice_nil (base n : Nat) : Memory.slice [] base n = List.replicate n 0 := by
  simp [Memory.slice, read_nil]

/-- A file whose header passes and whose table is empty has no blocks. -/
theorem parse_of_empty_table {f : FileImage} (hh : f.headerFault? = none) (hlen : 0x18 ≤ f.len)
    (hv0 : (f.le32 0x14).toNat = 0x18) : f.parse = .ok [] := by
  rw [parse_of_header hh, parseBlocks_of_table (n := 0) hv0 (hv0.le.trans hlen)]
  rfl

/-- Settles O50: the two outcomes of the file check, and the returning step after it. -/
theorem zeroBlocksGiveZeroBytes : Obligations.ZeroBlocksGiveZeroBytes := by
  unfold Obligations.ZeroBlocksGiveZeroBytes
  intro s hp hrest
  refine ⟨fun st h => ?_, fun blocks h => ?_, fun hh hlen hv0 => ?_⟩
  · exact ⟨_, step_checkFile_error hp hrest h, rfl, rfl⟩
  · exact ⟨_, step_checkFile_ok hp hrest h, rfl, rfl, read_nil⟩
  · refine ⟨_, _, step_checkFile_ok hp hrest (parse_of_empty_table hh hlen hv0),
      step_nextBlock_none rfl hrest rfl, ?_⟩
    exact congrArg (fun bytes => some (Except.ok bytes)) (slice_nil 0 _)

/-! ### The launch -/

section Launch

variable {s : State} {b : BlockRange}

/-- The state after START of block `b`. -/
def State.launchedOn (b : BlockRange) (s : State) : State :=
  (s.withEngine (Engine.started (s.container.launchOf b)
    ((s.withEngine (s.engine.launched (s.container.launchOf b))).fetchWord 0))).withContainer
      { s.container with phase := .decoding }

/-- From the invariant no premise of START is broken: the engine rests, the block lies inside the file
and the window, of at most 0x4000 bytes, inside the buffer (70_reset_and_hazards.md R273). -/
theorem brokenPremise?_of_inv (hs : s.Inv) (hp : s.container.phase = .nextBlock)
    (hb : b ∈ s.container.blocks) : brokenPremise? (s.container.launchOf b) s = none := by
  have hrest := resting_of_not_running (not_running_of_not_decoding hs (by simp [hp]))
  obtain ⟨-, -, -, -, -, -, hblocks, -⟩ := hs
  obtain ⟨hranges, hcursor⟩ := hblocks (.inl hp)
  obtain ⟨hle, hlen⟩ := hranges b hb
  have hin : ¬s.file.len < b.start + (b.stop - b.start) := by omega
  have hwindow : ¬Config.maxBlockOutput < (s.container.launchOf b).windowCapacity :=
    Nat.not_lt_of_le (min_le_left _ _)
  have hout : ¬s.container.totalUncompressedSize < s.container.writeCursor +
      windowCapacityAt s.container.totalUncompressedSize s.container.writeCursor := by
    rw [windowCapacityAt]
    omega
  exact (if_neg (not_not.2 hrest)).trans
    ((if_neg hwindow).trans ((if_neg hin).trans (if_neg hout)))

/-- From the invariant a block that is due is started. -/
theorem step_launch (hs : s.Inv) (hp : s.container.phase = .nextBlock)
    (hb : s.container.blocks[s.container.blockIndex]? = some b) :
    step s = .next (s.launchedOn b) := by
  have hrest := not_running_of_not_decoding hs (by simp [hp])
  have hstart := (start_ok_iff (s.container.launchOf b) s _).2
    ⟨brokenPremise?_of_inv hs hp (List.mem_of_getElem? hb), rfl⟩
  simp only [step_of_not_running hrest, containerStep, hp, nextBlockStep, hb, hstart]
  rfl

end Launch

/-- Settles O51: the launch's values are the rule's. -/
theorem nextBlockIsLaunchedAtTheCursor : Obligations.NextBlockIsLaunchedAtTheCursor := by
  unfold Obligations.NextBlockIsLaunchedAtTheCursor
  intro s b hs hp hb
  exact ⟨_, step_launch hs hp hb, rfl, rfl, rfl, rfl, rfl, rfl, rfl⟩

/-! ### The cursor -/

/-- From the invariant a block that ended DONE wrote no byte past the buffer's end (42_block_decoder.md
R175; 45_host_container.md R219). -/
theorem done_written_le {s : State} (hs : s.Inv) (hp : s.container.phase = .decoding)
    (he : s.engine.phase = .done) :
    s.engine.written ≤ Config.maxBlockOutput ∧
      s.container.writeCursor + s.engine.written ≤ s.container.totalUncompressedSize := by
  obtain ⟨-, ⟨-, -, hpast, -⟩, -, -, -, hlaunch, hblocks, -⟩ := hs
  obtain ⟨-, ⟨hw, hcap, -⟩, -⟩ := hpast (.inr (.inr he))
  obtain ⟨-, -, -, hwindow⟩ := hlaunch hp
  obtain ⟨-, hcursor⟩ := hblocks (.inr hp)
  rw [hwindow, windowCapacityAt] at hcap
  omega

/-- Settles O52: the cursor rounded up by division. -/
theorem cursorIsRoundedUp : Obligations.CursorIsRoundedUp := by
  unfold Obligations.CursorIsRoundedUp
  intro s hs hp he
  obtain ⟨-, hroom⟩ := done_written_le hs hp he
  refine ⟨_, (s.container.writeCursor + s.engine.written + 0x3FFF) / 0x4000, step_collect_done hp he,
    rfl, rfl, by omega, by omega, ?_, ?_⟩
  · simp [advanceCursor, Config.maxBlockOutput, Nat.mul_comm]
  · simp only [withContainer_container, advanceCursor, Config.maxBlockOutput]
    omega

end Sys2Proof.Machine
end

section
/-! SUPPORT. The window bases (45_host_container.md R223, R224): SETUP reads the capacity field of the block in
turn, and every step keeps the cursor at the base the earlier blocks' capacity fields give. -/

namespace Sys2Proof.Machine

/-! ### The capacity field SETUP reads -/

section CapacityField

variable {s : State} {b : BlockRange} {br₁ br₂ : BitReader} {r₁ r₂ : Word}

/-- The second 16-bit field of a block is the upper half of its word 0 (40_bit_reader.md R113, R114). -/
theorem fieldValue_upperHalf (hu : s.engine.br.bitsUsed = 0) (hw : s.engine.br.word = s.fetchWord 0)
    (h₁ : s.engine.br.next s.fetchWord 16 = .ok (r₁, br₁))
    (h₂ : br₁.next s.fetchWord 16 = .ok (r₂, br₂)) :
    fieldValue 16 r₂ = (s.fetchByte 3 ++ s.fetchByte 2 : Half).toNat := by
  rw [next_startWord hu (by omega) (by omega), xor_deliveredBits _ (by omega), hw] at h₁
  obtain ⟨-, hbr₁⟩ := Prod.mk.inj (Except.ok.inj h₁)
  have hu₁ : br₁.bitsUsed = 16 := by rw [← hbr₁]
  have hrem : br₁.remainder = (s.fetchWord 0 >>> 16) <<< 16 := by rw [← hbr₁]
  rw [show 16 = 32 - br₁.bitsUsed by omega, next_restOfWord (by omega) (by omega), hrem] at h₂
  obtain ⟨rfl, -⟩ := Prod.mk.inj (Except.ok.inj h₂)
  refine Nat.eq_of_testBit_eq fun j => ?_
  rw [fieldValue, Nat.testBit_shiftRight, BitVec.testBit_toNat, BitVec.testBit_toNat]
  by_cases hj : j < 16
  · rw [getLsbD_clearLow _ _ (by omega), getLsbD_fetchWord _ _ (by omega), getLsbD_le16 s 2 hj,
      streamBit_eq_fetchByte]
    simp
  · rw [BitVec.getLsbD_of_ge _ _ (by omega : 32 ≤ 32 - 16 + j), BitVec.getLsbD_of_ge _ _ (by omega)]

/-- The engine's view of a block's capacity field is the file's. -/
theorem capField_eq (hbase : s.engine.inBase = b.start) (hlen : s.engine.inLen = b.stop - b.start) :
    s.file.capField b = (s.fetchByte 3 ++ s.fetchByte 2 : Half).toNat := by
  simp only [FileImage.capField, State.fetchByte, hbase, hlen]

/-- SETUP reads the capacity field of the block in turn. -/
theorem setup_reads_capField (hb : s.CurrentBlockInv b) (hp : s.engine.phase = .setup)
    (h₁ : s.engine.br.next s.fetchWord 16 = .ok (r₁, br₁))
    (h₂ : br₁.next s.fetchWord 16 = .ok (r₂, br₂)) : fieldValue 16 r₂ = s.file.capField b := by
  obtain ⟨hbase, hlen, hsetup, -⟩ := hb
  obtain ⟨hu, hw⟩ := hsetup hp
  rw [fieldValue_upperHalf hu hw h₁ h₂, capField_eq hbase hlen]

/-- A capacity above the window's is SETUP's fault (42_block_decoder.md R162). -/
theorem step_setup_overCapacity (hb : s.CurrentBlockInv b) (hp : s.engine.phase = .setup)
    (hover : s.engine.windowCapacity < Config.maxBlockOutput - s.file.capField b) :
    ∃ br v, step s =
      .next ((s.withEngine ((s.engine.withReader br).withUnpackInfo v)).raise
        { kind := .invalidCapacity
          info := .capacity (s.file.capField b) s.engine.windowCapacity }) := by
  obtain ⟨r₁, br₁, r₂, br₂, f, br₃, h₁, h₂, -, heq⟩ := setupStep_eq s
  rw [setup_reads_capField hb hp h₁ h₂, if_pos (.inr hover)] at heq
  rw [step_running (.inl hp), engineStep, hp]
  exact ⟨_, _, heq⟩

/-- START leaves the engine on the block in turn. -/
theorem launchedOn_currentBlockInv (b : BlockRange) (s : State) :
    (s.launchedOn b).CurrentBlockInv b :=
  ⟨rfl, rfl, fun _ => ⟨rfl, rfl⟩, fun h => absurd h (show ¬Phase.setup.pastSetup by decide)⟩

end CapacityField

/-- Settles O53: START, SETUP's fault, and the fault taken as the file's result. -/
theorem blockLargerThanTheRoomFaults : Obligations.BlockLargerThanTheRoomFaults := by
  unfold Obligations.BlockLargerThanTheRoomFaults
  intro s b hs hp hb _ hover
  have hwindow : (s.launchedOn b).engine.windowCapacity < Config.maxBlockOutput - s.file.capField b :=
    (min_le_right _ _).trans_lt hover
  obtain ⟨br, v, hsetup⟩ := step_setup_overCapacity (launchedOn_currentBlockInv b s) rfl hwindow
  exact ⟨_, _, _, step_launch hs hp hb, hsetup, rfl, rfl, step_collect_fault rfl rfl, rfl⟩

/-! ### The cursor's rule -/

/-- A block whose capacity fits moves the cursor from its own window base to the next one's: a block of
capacity 0 leaves it, any other takes it up to the next multiple of 0x4000 (45_host_container.md R220,
R223). -/
theorem advanceCursor_windowBaseOf {f : FileImage} {total i : Nat} {blocks : List BlockRange}
    {b : BlockRange} (hb : blocks[i]? = some b)
    (hroom : windowBaseOf f total blocks i + (Config.maxBlockOutput - f.capField b) ≤ total) :
    advanceCursor total (windowBaseOf f total blocks i) (Config.maxBlockOutput - f.capField b) =
      windowBaseOf f total blocks (i + 1) := by
  have hcount : windowBaseOf f total blocks (i + 1) =
      min (Config.maxBlockOutput *
        ((blocks.take i).countP (fun a => decide (f.capField a < Config.maxBlockOutput)) +
          if f.capField b < Config.maxBlockOutput then 1 else 0)) total := by
    simp [windowBaseOf, List.take_add_one, hb, List.countP_append, List.countP_singleton]
  by_cases hcap : f.capField b < Config.maxBlockOutput
  · rw [hcount, if_pos hcap]
    simp only [windowBaseOf, advanceCursor, Config.maxBlockOutput] at hroom hcap ⊢
    omega
  · rw [hcount, if_neg hcap]
    simp only [windowBaseOf, advanceCursor, Config.maxBlockOutput] at hroom hcap ⊢
    omega

section Cursor

variable {s t : State}

/-- The cursor's invariant while no block is launched is the cursor's place alone. -/
theorem cursorInv_of_not_decoding (hp : t.container.phase ≠ .decoding)
    (h : t.container.phase = .nextBlock → t.container.writeCursor =
      windowBaseOf t.file t.container.totalUncompressedSize t.container.blocks t.container.blockIndex) :
    t.CursorInv :=
  ⟨fun hp' => h (hp'.resolve_right hp), fun hp' => absurd hp' hp⟩

/-- On the same block the cursor's invariant keeps what the engine's capacity register says alone to be
shown. -/
theorem SameBlock.keeps_cursorInv (hb : SameBlock s t) (hc : s.CursorInv)
    (hdec : s.container.phase = .decoding) (hp : t.engine.phase ≠ .setup)
    (hcap : ∀ b, s.CurrentBlockInv b → t.engine.phase.pastSetup →
      t.engine.logicalCapacity = Config.maxBlockOutput - s.file.capField b) : t.CursorInv := by
  obtain ⟨hcursor, hblock⟩ := hc
  obtain ⟨b, hmem, hcur⟩ := hblock hdec
  rw [State.CursorInv, hb.container, hb.file]
  refine ⟨hcursor, fun _ => ⟨b, hmem, ?_, ?_, fun h => absurd h hp, ?_⟩⟩
  · rw [hb.inBase, hcur.1]
  · rw [hb.inLen, hcur.2.1]
  · rw [hb.file]
    exact hcap b hcur

/-- A running engine's step keeps the cursor's invariant: SETUP computes the capacity from the block's
field, and no later step writes it. -/
theorem step_running_keeps_cursorInv (hs : s.Inv) (hc : s.CursorInv)
    (hrun : s.engine.phase.running) (h : step s = .next t) : t.CursorInv := by
  have hb := step_running_sameBlock hrun h
  have hdec := decoding_of_running hs hrun
  rcases step_next_cases h with ⟨hp, h⟩ | ⟨hp, h⟩ | ⟨hp, h⟩ | ⟨hrest, -⟩
  · obtain ⟨r₁, br₁, r₂, br₂, f, br₃, h₁, h₂, -, ⟨st, rfl⟩ | ⟨tab, -, -, rfl⟩⟩ := setupStep_next h
    · exact hb.keeps_cursorInv hc hdec nofun fun _ _ hpast => absurd hpast (by simp)
    · refine hb.keeps_cursorInv hc hdec nofun fun b hcur _ => ?_
      rw [← setup_reads_capField hcur hp h₁ h₂]
      rfl
  · have hcap : ∀ b, s.CurrentBlockInv b → s.engine.logicalCapacity = _ :=
      fun b ⟨_, _, _, hcap⟩ => hcap (.inl hp)
    rcases checkStep_next h with ⟨-, rfl⟩ | ⟨-, rfl⟩ <;>
      exact hb.keeps_cursorInv hc hdec nofun fun b hcur _ => hcap b hcur
  · have hcap : ∀ b, s.CurrentBlockInv b → s.engine.logicalCapacity = _ :=
      fun b ⟨_, _, _, hcap⟩ => hcap (.inr (.inl hp))
    obtain ⟨i, -, hexec⟩ := decodeStep_next h
    obtain ⟨br, acc, p, ⟨st, rfl⟩ | ⟨n, k, ph, m, hph, -, rfl⟩⟩ := exec_next_cases hexec
    · exact hb.keeps_cursorInv hc hdec nofun fun _ _ hpast => absurd hpast (by simp)
    · refine hb.keeps_cursorInv hc hdec ?_ fun b hcur _ => hcap b hcur
      exact fun (hsetup : ph = .setup) => absurd hph (by simp [hsetup])
  · exact absurd hrun hrest

/-- A block that ended DONE wrote its whole capacity at its window base. -/
theorem done_written_eq (hs : s.Inv) (hc : s.CursorInv) (hp : s.container.phase = .decoding)
    (he : s.engine.phase = .done) :
    ∃ b, s.container.blocks[s.container.blockIndex]? = some b ∧
      s.engine.written = Config.maxBlockOutput - s.file.capField b := by
  obtain ⟨-, ⟨-, -, -, -, hdone⟩, -⟩ := hs
  obtain ⟨b, hmem, -, -, -, hcap⟩ := hc.2 hp
  exact ⟨b, hmem, (hdone he).trans (hcap (.inr (.inr he)))⟩

/-- A step of the container decoder keeps the cursor's invariant. -/
theorem containerStep_keeps_cursorInv (hs : s.Inv) (hc : s.CursorInv)
    (h : containerStep s = .next t) : t.CursorInv := by
  rcases containerStep_next h with ⟨-, h⟩ | ⟨-, h⟩ | ⟨hp, h⟩ | ⟨hp, h⟩
  · obtain ⟨-, rfl⟩ := powerUpStep_next h
    exact cursorInv_of_not_decoding nofun nofun
  · rcases checkFileStep_next h with ⟨st, rfl⟩ | ⟨blocks, -, rfl⟩
    · exact cursorInv_of_not_decoding nofun nofun
    · exact cursorInv_of_not_decoding nofun fun _ => (Nat.zero_min _).symm
  · rcases nextBlockStep_next h with rfl | ⟨b, u, hb, hu, rfl⟩
    · exact cursorInv_of_not_decoding nofun nofun
    · obtain ⟨-, rfl⟩ := (start_ok_iff _ _ _).1 hu
      exact ⟨fun _ => hc.1 (.inl hp), fun _ => ⟨b, hb, launchedOn_currentBlockInv b s⟩⟩
  · rcases collectStep_next h with ⟨-, rfl⟩ | ⟨he, rfl⟩
    · exact cursorInv_of_not_decoding nofun nofun
    · refine cursorInv_of_not_decoding nofun fun _ => ?_
      obtain ⟨b, hb, hw⟩ := done_written_eq hs hc hp he
      obtain ⟨-, hroom⟩ := done_written_le hs hp he
      rw [hc.1 (.inr hp), hw] at hroom
      show advanceCursor _ s.container.writeCursor s.engine.written = _
      rw [hc.1 (.inr hp), hw]
      exact advanceCursor_windowBaseOf hb hroom

end Cursor

/-- Settles O54: the engine's steps keep the block in turn, the container decoder's the cursor. -/
theorem windowBasesComeFromCapacityFields : Obligations.WindowBasesComeFromCapacityFields := by
  unfold Obligations.WindowBasesComeFromCapacityFields
  intro s t hs hc h
  by_cases hrun : s.engine.phase.running
  · exact step_running_keeps_cursorInv hs hc hrun h
  · rw [step_of_not_running hrun] at h
    exact containerStep_keeps_cursorInv hs hc h

end Sys2Proof.Machine
end

section
/-! SUPPORT. The bytes no block writes (45_host_container.md R220, R222): every step keeps them 0. -/

namespace Sys2Proof.Machine

section Padding

variable {s t : State}

/-- A running engine never takes back a byte it has written. -/
theorem step_running_written_le (hrun : s.engine.phase.running) (h : step s = .next t) :
    s.engine.written ≤ t.engine.written := by
  rcases step_next_cases h with ⟨-, h⟩ | ⟨-, h⟩ | ⟨-, h⟩ | ⟨hrest, -⟩
  · obtain ⟨_, _, _, _, _, _, -, -, -, ⟨st, rfl⟩ | ⟨tab, -, -, rfl⟩⟩ := setupStep_next h <;>
      exact le_refl _
  · rcases checkStep_next h with ⟨-, rfl⟩ | ⟨-, rfl⟩ <;> exact le_refl _
  · obtain ⟨i, -, hexec⟩ := decodeStep_next h
    obtain ⟨br, acc, p, ⟨st, rfl⟩ | ⟨n, k, ph, m, -, -, rfl⟩⟩ := exec_next_cases hexec
    · exact le_refl _
    · exact Nat.le_add_right _ n
  · exact absurd hrun hrest

/-- On the same block the bytes written stay so while `written` does not fall. -/
theorem SameBlock.writtenByABlock {a : Nat} (hb : SameBlock s t)
    (hle : s.engine.written ≤ t.engine.written) (h : s.WrittenByABlock a) : t.WrittenByABlock a := by
  rw [State.WrittenByABlock, hb.container, hb.file, hb.windowBase]
  exact h.imp_right fun ⟨hdec, hlo, hhi⟩ => ⟨hdec, hlo, by omega⟩

/-- A running engine's step changes the buffer only between the old `written` and the new one. -/
theorem step_running_keeps_paddingInv (hs : s.Inv) (hpad : s.PaddingInv)
    (hrun : s.engine.phase.running) (h : step s = .next t) : t.PaddingInv := by
  have hb := step_running_sameBlock hrun h
  have hle := step_running_written_le hrun h
  have hdec := decoding_of_running hs hrun
  intro _ a ha
  have hzero := hpad (.inr (.inl hdec)) a fun hw => ha (hb.writtenByABlock hle hw)
  rcases step_running_buf hrun h with hbuf | ⟨-, hother⟩
  · rw [hbuf, hzero]
  · have houtside : ¬(s.engine.windowBase ≤ a ∧ a < s.engine.windowBase + t.engine.written) :=
      fun hin => ha (.inr ⟨hb.container ▸ hdec, hb.windowBase ▸ hin⟩)
    rw [hother a (by omega), hzero]

/-- A step of the container decoder that leaves the buffer alone keeps the padding where every byte
written stays so. -/
theorem paddingInv_of_same_buf (hpad : s.PaddingInv) (hbuf : t.buf = s.buf)
    (hp : s.container.phase = .nextBlock ∨ s.container.phase = .decoding)
    (hwritten : ∀ a, s.WrittenByABlock a → t.WrittenByABlock a) : t.PaddingInv := fun _ a ha => by
  rw [hbuf]
  exact hpad (hp.imp_right .inl) a fun hw => ha (hwritten a hw)

/-- While a block is due, the bytes written are the earlier blocks' alone. -/
theorem writtenByABlock_of_not_decoding {a : Nat} (hp : s.container.phase ≠ .decoding)
    (h : s.WrittenByABlock a) :
    ∃ k b, k < s.container.blockIndex ∧ s.container.blocks[k]? = some b ∧
      windowBaseOf s.file s.container.totalUncompressedSize s.container.blocks k ≤ a ∧
      a < windowBaseOf s.file s.container.totalUncompressedSize s.container.blocks k
        + (Config.maxBlockOutput - s.file.capField b) :=
  h.resolve_right fun ⟨hdec, _⟩ => hp hdec

/-- A block that ended DONE is one of the earlier blocks once the next one is due: it wrote its whole
capacity at its window base. -/
theorem writtenByABlock_collect {a : Nat} {c : Container} (hs : s.Inv) (hc : s.CursorInv)
    (hp : s.container.phase = .decoding) (he : s.engine.phase = .done)
    (htotal : c.totalUncompressedSize = s.container.totalUncompressedSize)
    (hblocks : c.blocks = s.container.blocks) (hindex : c.blockIndex = s.container.blockIndex + 1)
    (h : s.WrittenByABlock a) : (s.withContainer c).WrittenByABlock a := by
  refine .inl ?_
  rw [withContainer_container, withContainer_file, htotal, hblocks, hindex]
  rcases h with ⟨k, b, hk, hrange⟩ | ⟨-, hlo, hhi⟩
  · exact ⟨k, b, by omega, hrange⟩
  · obtain ⟨b, hb, hw⟩ := done_written_eq hs hc hp he
    obtain ⟨-, -, -, -, -, hlaunch, -⟩ := hs
    obtain ⟨-, -, hbase, -⟩ := hlaunch hp
    rw [hbase, hc.1 (.inr hp)] at hlo hhi
    exact ⟨_, b, Nat.lt_succ_self _, hb, hlo, hw ▸ hhi⟩

/-- A step of the container decoder writes no byte of an allocated buffer. -/
theorem containerStep_keeps_paddingInv (hs : s.Inv) (hc : s.CursorInv) (hpad : s.PaddingInv)
    (h : containerStep s = .next t) : t.PaddingInv := by
  rcases containerStep_next h with ⟨-, h⟩ | ⟨-, h⟩ | ⟨hp, h⟩ | ⟨hp, h⟩
  · obtain ⟨-, rfl⟩ := powerUpStep_next h
    exact fun hphase => absurd hphase (by simp)
  · rcases checkFileStep_next h with ⟨st, rfl⟩ | ⟨blocks, -, rfl⟩
    · exact fun hphase => absurd hphase (by simp [Container.fail])
    · exact fun _ a _ => read_nil a
  · have hearlier := fun a => writtenByABlock_of_not_decoding (s := s) (a := a) (by simp [hp])
    rcases nextBlockStep_next h with rfl | ⟨b, u, hb, hu, rfl⟩
    · exact paddingInv_of_same_buf hpad rfl (.inl hp) fun a hw => .inl (hearlier a hw)
    · obtain ⟨-, rfl⟩ := (start_ok_iff _ _ _).1 hu
      exact paddingInv_of_same_buf hpad rfl (.inl hp) fun a hw => .inl (hearlier a hw)
  · rcases collectStep_next h with ⟨-, rfl⟩ | ⟨he, rfl⟩
    · exact fun hphase => absurd hphase (by simp [Container.fail])
    · exact paddingInv_of_same_buf hpad rfl (.inr hp)
        fun a => writtenByABlock_collect hs hc hp he rfl rfl rfl

/-- A byte of a returned buffer that no block has written is 0. -/
theorem returned_byte_eq_zero {bytes : List Byte} {k : Nat} (hpad : s.PaddingInv)
    (h : s.output = some (.ok bytes)) (hk : k < bytes.length) (hw : ¬s.WrittenByABlock k) :
    bytes[k]? = some 0 := by
  obtain ⟨hp, -⟩ := (output_ok_iff s bytes).1 h
  rw [(returned_bytes h).2 k hk, hpad (.inr (.inr hp)) k hw]

end Padding

/-- Settles O56: the engine writes what it counts as written, the container decoder writes nothing. -/
theorem unwrittenBytesStayZero : Obligations.UnwrittenBytesStayZero := by
  unfold Obligations.UnwrittenBytesStayZero
  refine ⟨fun s t hs hc hpad h => ?_, fun s bytes hpad h k hk hw => returned_byte_eq_zero hpad h hk hw⟩
  by_cases hrun : s.engine.phase.running
  · exact step_running_keeps_paddingInv hs hpad hrun h
  · rw [step_of_not_running hrun] at h
    exact containerStep_keeps_paddingInv hs hc hpad h

end Sys2Proof.Machine
end

section
/-! SUPPORT. Faults and results (60_exceptions.md R246 to R250, R258): which fault a command raises
and what it leaves alone, how `status` and FAULT are left, and what the host may read of an engine. -/

namespace Sys2Proof.Machine

/-! ### Taking a fault -/

/-- Settles O28: the definition of taking a fault, in the state's own fields. -/
theorem faultEntryWritesStatusAndPhase : Obligations.FaultEntryWritesStatusAndPhase := by
  unfold Obligations.FaultEntryWritesStatusAndPhase
  intro s kind info
  rfl

section Commands

variable {e : CodeTableEntry} {x y : Nat} {i : Instr} {s t : State}

/-- A command that answers FAULT raised it once its bits were taken, before any copy. -/
theorem exec_fault (h : exec i s = .next t) (hp : t.engine.phase = .fault) :
    ∃ br acc p st, t = (s.withBits br acc p).raise st := by
  obtain ⟨br, acc, p, ⟨st, ht⟩ | ⟨n, k, ph, m, hph, -, rfl⟩⟩ := exec_next_cases h
  · exact ⟨br, acc, p, st, ht⟩
  · have hfault : ph = .fault := hp
    rw [hfault] at hph
    exact absurd hph (by decide)

/-- LIT tests the block's room first, then its input (42_block_decoder.md R172). -/
theorem execLit_fault_kind (h : execLit e s = .next t) (hp : t.engine.phase = .fault) :
    t.engine.status.kind =
      if s.engine.written = s.engine.logicalCapacity then .capacityOverrun else .truncatedBlock := by
  rw [execLit_eq] at h
  split at h
  · next hfull => cases h; exact (if_pos hfull).symm
  · next hroom =>
    rw [if_neg hroom]
    split at h
    · cases h; rfl
    · split at h
      · cases h
      · cases h; cases hp

/-- RAW refills first, then tests its input (42_block_decoder.md R171). -/
theorem execRaw_fault_kind (h : execRaw e x s = .next t) (hp : t.engine.phase = .fault) :
    t.engine.status.kind =
      if s.engine.pendingBits + e.codeLen.toNat < 1 ∨ 32 < s.engine.pendingBits + e.codeLen.toNat
      then .invalidBitRequest else .truncatedBlock := by
  rcases refill_split e s with hf | ⟨r, br, hn⟩
  · rw [execRaw_refill_fault e x hf] at h
    cases h; exact (if_pos hf).symm
  · obtain ⟨hlo, hhi⟩ := next_ok_range hn
    rw [if_neg (by omega)]
    rw [execRaw_eq x hn] at h
    split at h
    · cases h; rfl
    · split at h
      · cases h
      · cases h; cases hp

/-- MATCH refills first, then tests its offset (42_block_decoder.md R168). -/
theorem execMatch_fault_kind (h : execMatch e x y s = .next t) (hp : t.engine.phase = .fault) :
    t.engine.status.kind =
      if s.engine.pendingBits + e.codeLen.toNat < 1 ∨ 32 < s.engine.pendingBits + e.codeLen.toNat
      then .invalidBitRequest else .invalidBackReference := by
  rcases refill_split e s with hf | ⟨r, br, hn⟩
  · rw [execMatch_refill_fault e x y hf] at h
    cases h; exact (if_pos hf).symm
  · obtain ⟨hlo, hhi⟩ := next_ok_range hn
    rw [if_neg (by omega)]
    rw [execMatch_eq x y hn] at h
    split at h
    · cases h; rfl
    · split at h
      · cases h
      · cases h; cases hp

end Commands

/-- Settles O29: the fault is raised before any copy, and raising it moves no cursor. -/
theorem faultingCommandWritesNoByte : Obligations.FaultingCommandWritesNoByte := by
  unfold Obligations.FaultingCommandWritesNoByte
  intro i s t h hp
  obtain ⟨br, acc, p, st, rfl⟩ := exec_fault h hp
  exact ⟨rfl, rfl, rfl⟩

/-- Settles O30, command by command. -/
theorem faultsComeInOrder : Obligations.FaultsComeInOrder := by
  unfold Obligations.FaultsComeInOrder
  intro i s t h hp
  cases i with
  | lit e => exact execLit_fault_kind h hp
  | raw e x => exact execRaw_fault_kind h hp
  | matchCopy e x y => exact execMatch_fault_kind h hp

/-! ### Leaving `status` and FAULT -/

section Status

variable {i : Instr} {s t : State}

/-- A command's fault is never NONE. -/
theorem exec_fault_kind_ne_none (h : exec i s = .next t) (hp : t.engine.phase = .fault) :
    t.engine.status.kind ≠ .none := by
  cases i with
  | lit e => rw [execLit_fault_kind h hp]; split <;> decide
  | raw e x => rw [execRaw_fault_kind h hp]; split <;> decide
  | matchCopy e x y => rw [execMatch_fault_kind h hp]; split <;> decide

/-- A running engine's step writes `status` only by raising a fault. -/
theorem step_running_status (hrun : s.engine.phase.running) (h : step s = .next t) :
    t.engine.status = s.engine.status ∨
      t.engine.phase = .fault ∧ t.engine.status.kind ≠ .none := by
  rcases step_next_cases h with ⟨-, h⟩ | ⟨-, h⟩ | ⟨-, h⟩ | ⟨hrest, -⟩
  · have hphase := setupStep_phase h
    obtain ⟨_, _, _, _, _, _, -, -, -, ⟨st, rfl⟩ | ⟨tab, -, -, rfl⟩⟩ := setupStep_next h
    · rcases hphase with hcheck | ⟨hfault, hkind⟩
      · cases hcheck
      · exact .inr ⟨hfault, by rw [hkind]; decide⟩
    · exact .inl rfl
  · rcases checkStep_next h with ⟨-, rfl⟩ | ⟨-, rfl⟩ <;> exact .inl rfl
  · obtain ⟨i, -, hexec⟩ := decodeStep_next h
    obtain ⟨br, acc, p, ⟨st, rfl⟩ | ⟨n, k, ph, m, -, -, rfl⟩⟩ := exec_next_cases hexec
    · exact .inr ⟨rfl, exec_fault_kind_ne_none hexec rfl⟩
    · exact .inl rfl
  · exact absurd hrun hrest

/-- The container decoder writes the engine by START alone. -/
theorem containerStep_engine_of_start (h : containerStep s = .next t) :
    t.engine = s.engine ∨ ∃ l u, start l s = .ok u ∧ t.engine = u.engine := by
  rcases containerStep_next h with ⟨-, h⟩ | ⟨-, h⟩ | ⟨-, h⟩ | ⟨-, h⟩
  · obtain ⟨-, rfl⟩ := powerUpStep_next h
    exact .inl rfl
  · rcases checkFileStep_next h with ⟨st, rfl⟩ | ⟨blocks, -, rfl⟩ <;> exact .inl rfl
  · rcases nextBlockStep_next h with rfl | ⟨b, u, -, hu, rfl⟩
    · exact .inl rfl
    · exact .inr ⟨_, u, hu, rfl⟩
  · rcases collectStep_next h with ⟨-, rfl⟩ | ⟨-, rfl⟩ <;> exact .inl rfl

/-- START leaves SETUP with a cleared `status` (70_reset_and_hazards.md R270). -/
theorem start_setup_clear {l : Launch} (h : start l s = .ok t) :
    t.engine.phase = .setup ∧ t.engine.status = Status.clear := by
  obtain ⟨-, rfl⟩ := (start_ok_iff _ _ _).1 h
  exact ⟨rfl, rfl⟩

end Status

/-- Settles O32: a running engine only raises, the container decoder only starts. -/
theorem statusIsSticky : Obligations.StatusIsSticky := by
  unfold Obligations.StatusIsSticky
  intro s t h
  by_cases hrun : s.engine.phase.running
  · refine ⟨?_, fun hp => absurd hrun (by rw [hp]; decide)⟩
    exact (step_running_status hrun h).imp_right .inl
  · rw [step_of_not_running hrun] at h
    rcases containerStep_engine_of_start h with heng | ⟨l, u, hu, heng⟩
    · exact ⟨.inl (by rw [heng]), fun _ => .inl heng⟩
    · have hclear := start_setup_clear hu
      rw [← heng] at hclear
      exact ⟨.inr (.inr ⟨hrun, hclear⟩), fun _ => .inr hclear⟩

/-! ### The host's reading -/

/-- The host reads an engine in DONE and FAULT, and nothing but its three registers. -/
theorem report_eq_some_iff (e : Engine) (r : Report) :
    e.report = some r ↔ (e.phase = .done ∨ e.phase = .fault) ∧
      r = { phase := e.phase, written := e.written, status := e.status } := by
  unfold Engine.report
  cases hp : e.phase <;> simp [eq_comm]

theorem report_isSome_iff (e : Engine) :
    e.report.isSome = true ↔ e.phase = .done ∨ e.phase = .fault := by
  simp only [Option.isSome_iff_exists, report_eq_some_iff, exists_and_left, exists_eq, and_true]

/-- Settles O57: who may be read, and what the reading holds. -/
theorem resultsAreReadOnlyAtTheEnd : Obligations.ResultsAreReadOnlyAtTheEnd := by
  unfold Obligations.ResultsAreReadOnlyAtTheEnd
  refine fun e => ⟨report_isSome_iff e, fun r hr => ?_⟩
  obtain ⟨-, rfl⟩ := (report_eq_some_iff e r).1 hr
  exact ⟨rfl, rfl, rfl⟩

end Sys2Proof.Machine
end

section
/-! SUPPORT. What an engine's step does to the buffer is an update of its own window: it reads and
writes no byte elsewhere (20_memory.md R52; 60_exceptions.md R256), so that two such updates of disjoint
windows commute (R257). -/

namespace Sys2Proof.Machine

/-! ### Updates of a window -/

/-- Two memories hold the same bytes from `lo` up to `hi`. -/
def Memory.SameOn (lo hi : Nat) (m m' : Memory) : Prop :=
  ∀ a, lo ≤ a → a < hi → m.read a = m'.read a

/-- An update of a memory that reads and writes only the bytes from `lo` up to `hi`. -/
structure LocalTo (lo hi : Nat) (f : Memory → Memory) : Prop where
  wf : ∀ m : Memory, m.wf = true → (f m).wf = true
  outside : ∀ (m : Memory) (a : Nat), a < lo ∨ hi ≤ a → (f m).read a = m.read a
  inside : ∀ m m' : Memory, m.wf = true → m'.wf = true → m.SameOn lo hi m' →
    (f m).SameOn lo hi (f m')

section Updates

variable {lo hi lo' hi' a n from_ to_ : Nat} {f g : Memory → Memory} {m : Memory}

theorem LocalTo.id : LocalTo lo hi id := ⟨fun _ w => w, fun _ _ _ => rfl, fun _ _ _ _ h => h⟩

theorem LocalTo.comp (hf : LocalTo lo hi f) (hg : LocalTo lo hi g) :
    LocalTo lo hi (fun m => f (g m)) where
  wf m w := hf.wf _ (hg.wf m w)
  outside m a ha := (hf.outside _ a ha).trans (hg.outside m a ha)
  inside m m' w w' h := hf.inside _ _ (hg.wf m w) (hg.wf m' w') (hg.inside m m' w w' h)

/-- One byte written in the window, of a value that the window's bytes fix. -/
theorem LocalTo.write {v : Memory → Byte} (hlo : lo ≤ a) (hhi : a < hi)
    (hv : ∀ m m' : Memory, m.SameOn lo hi m' → v m = v m') :
    LocalTo lo hi (fun m => m.write a (v m)) where
  wf m w := wf_write w a _
  outside m b hb := read_write_other m _ (by omega)
  inside m m' w w' h b hb hb' := by
    by_cases hab : b = a
    · rw [hab, read_write_same w, read_write_same w', hv m m' h]
    · rw [read_write_other m _ hab, read_write_other m' _ hab, h b hb hb']

/-- RAW's copy to places in the window. -/
theorem LocalTo.copyInput (src : Memory) (hlo : lo ≤ to_) (hhi : 0 < n → to_ + n ≤ hi) :
    LocalTo lo hi (copyInput src n from_ to_) := by
  induction n generalizing from_ to_ with
  | zero => exact .id
  | succ n ih =>
    have hend := hhi n.succ_pos
    exact (ih (by omega) (by omega)).comp (.write hlo (by omega) fun _ _ _ => rfl)

/-- MATCH's copy from places in the window to others in it. -/
theorem LocalTo.copyOutput (hlo : lo ≤ to_) (hhi : 0 < n → to_ + n ≤ hi)
    (hfrom : 0 < n → lo ≤ from_ ∧ from_ ≤ to_) : LocalTo lo hi (copyOutput n from_ to_) := by
  induction n generalizing from_ to_ with
  | zero => exact .id
  | succ n ih =>
    have hend := hhi n.succ_pos
    obtain ⟨hlo', hle⟩ := hfrom n.succ_pos
    exact (ih (by omega) (by omega) (by omega)).comp
      (.write hlo (by omega) fun _ _ h => h from_ hlo' (by omega))

/-- Beside the window of `g`, `f` leaves what it would leave without `g`. -/
theorem LocalTo.read_after (hf : LocalTo lo hi f) (hg : LocalTo lo' hi' g)
    (hd : hi ≤ lo' ∨ hi' ≤ lo) (w : m.wf = true) (ha : a < lo' ∨ hi' ≤ a) :
    (f (g m)).read a = (f m).read a := by
  by_cases hin : lo ≤ a ∧ a < hi
  · have hsame : (g m).SameOn lo hi m := fun b hb hb' => hg.outside m b (by omega)
    exact hf.inside _ _ (hg.wf m w) w hsame a hin.1 hin.2
  · rw [hf.outside _ a (by omega), hf.outside m a (by omega), hg.outside m a ha]

/-- Updates of disjoint windows commute. -/
theorem LocalTo.commute (hf : LocalTo lo hi f) (hg : LocalTo lo' hi' g)
    (hd : hi ≤ lo' ∨ hi' ≤ lo) (w : m.wf = true) : f (g m) = g (f m) := by
  refine memory_ext (hf.wf _ (hg.wf m w)) (hg.wf _ (hf.wf m w)) fun a => ?_
  by_cases ha : a < lo' ∨ hi' ≤ a
  · rw [hf.read_after hg hd w ha, hg.outside _ a ha]
  · have ha' : a < lo ∨ hi ≤ a := by omega
    rw [hg.read_after hf hd.symm w ha', hf.outside _ a ha']

end Updates

/-! ### An engine's step -/

/-- With any buffer in place of its own the state makes the same step under `run`, and the buffer is
updated in the engine's window alone, by the same update each time. -/
def StepsInWindow (run : State → Host.Outcome State Fault Refusal) (s t : State) : Prop :=
  ∃ f, LocalTo s.engine.windowBase (s.engine.windowBase + s.engine.windowCapacity) f ∧
    ∀ m, run (s.withBuf m) = .next (t.withBuf (f m))

section Steps

variable {run run' : State → Host.Outcome State Fault Refusal} {e : CodeTableEntry} {x y : Nat}
  {s t : State}

theorem StepsInWindow.congr (h : StepsInWindow run s t)
    (hrun : ∀ m, run' (s.withBuf m) = run (s.withBuf m)) : StepsInWindow run' s t := by
  obtain ⟨f, hf, hm⟩ := h
  exact ⟨f, hf, fun m => (hrun m).trans (hm m)⟩

/-- A step that leaves every buffer alone. -/
theorem stepsInWindow_of_same_buf (h : ∀ m, run (s.withBuf m) = .next (t.withBuf m)) :
    StepsInWindow run s t := ⟨id, .id, h⟩

theorem setupStep_inWindow (h : setupStep s = .next t) : StepsInWindow setupStep s t := by
  refine stepsInWindow_of_same_buf fun m => ?_
  obtain ⟨r₁, br₁, r₂, br₂, w, br₃, h₁, h₂, h₃, heq⟩ := setupStep_eq s
  obtain ⟨_, _, _, _, _, _, h₁', h₂', h₃', heq'⟩ := setupStep_eq (s.withBuf m)
  cases h₁.symm.trans h₁'
  cases h₂.symm.trans h₂'
  cases h₃.symm.trans h₃'
  rw [heq] at h
  rw [heq', withBuf_engine, withBuf_store]
  split at h
  · next hc => cases h; rw [if_pos hc]; rfl
  · next hc =>
    rw [if_neg hc]
    split at h
    · cases h
    · cases h; rfl

theorem checkStep_inWindow (h : checkStep s = .next t) : StepsInWindow checkStep s t := by
  rw [checkStep_eq] at h
  cases h
  exact stepsInWindow_of_same_buf fun m => checkStep_eq (s.withBuf m)

/-- LIT writes at `written`, below `windowCapacity`. -/
theorem execLit_inWindow (h : execLit e s = .next t) : StepsInWindow (execLit e) s t := by
  rw [execLit_eq] at h
  split at h
  · next hfull =>
    cases h
    exact stepsInWindow_of_same_buf fun m => (execLit_eq e _).trans (if_pos hfull)
  · next hroom =>
    split at h
    · next hend =>
      cases h
      exact stepsInWindow_of_same_buf fun m =>
        (execLit_eq e _).trans ((if_neg hroom).trans (if_pos hend))
    · next hin =>
      split at h
      · cases h
      · next hfits =>
        cases h
        exact ⟨_, .write (Nat.le_add_right _ s.engine.written) (by omega) fun _ _ _ => rfl,
          fun m => (execLit_eq e _).trans
            ((if_neg hroom).trans ((if_neg hin).trans (if_neg hfits)))⟩

/-- RAW writes its run from `written` on, up to `windowCapacity` at most. -/
theorem execRaw_inWindow (h : execRaw e x s = .next t) : StepsInWindow (execRaw e x) s t := by
  rcases refill_split e s with hf | ⟨r, br, hn⟩
  · rw [execRaw_refill_fault e x hf] at h
    cases h
    exact stepsInWindow_of_same_buf fun m => execRaw_refill_fault e x (s := s.withBuf m) hf
  · rw [execRaw_eq x hn] at h
    split at h
    · next hend =>
      cases h
      exact stepsInWindow_of_same_buf fun m =>
        (execRaw_eq x (s := s.withBuf m) hn).trans (if_pos hend)
    · next hin =>
      split at h
      · cases h
      · next hfits =>
        cases h
        exact ⟨_, .copyInput s.file.bytes (n := s.engine.clamp (copyLength e x))
            (from_ := s.engine.inBase + s.engine.inPtr)
            (Nat.le_add_right _ s.engine.written) (by omega),
          fun m => (execRaw_eq x (s := s.withBuf m) hn).trans
            ((if_neg hin).trans (if_neg hfits))⟩

/-- MATCH reads below `written` and writes from there on, up to `windowCapacity` at most. -/
theorem execMatch_inWindow (h : execMatch e x y s = .next t) :
    StepsInWindow (execMatch e x y) s t := by
  rcases refill_split e s with hf | ⟨r, br, hn⟩
  · rw [execMatch_refill_fault e x y hf] at h
    cases h
    exact stepsInWindow_of_same_buf fun m => execMatch_refill_fault e x y (s := s.withBuf m) hf
  · rw [execMatch_eq x y hn] at h
    split at h
    · next hbad =>
      cases h
      exact stepsInWindow_of_same_buf fun m =>
        (execMatch_eq x y (s := s.withBuf m) hn).trans (if_pos hbad)
    · next hgood =>
      split at h
      · cases h
      · next hfits =>
        cases h
        exact ⟨_, .copyOutput (n := s.engine.clamp (copyLength e x))
            (from_ := s.engine.windowBase +
              (s.engine.written - backOffsetOf e s.engine.offsetShift y))
            (Nat.le_add_right _ s.engine.written) (by omega) (by omega),
          fun m => (execMatch_eq x y (s := s.withBuf m) hn).trans
            ((if_neg hgood).trans (if_neg hfits))⟩

/-- The command read does not depend on the buffer. -/
theorem fetch_withBuf (s : State) (m : Memory) : fetch (s.withBuf m) = fetch s := by
  have hbits : ∀ e, extraBitsAt e (s.withBuf m) = extraBitsAt e s := fun e => by
    rcases refill_split e s with hf | ⟨r, br, hn⟩
    · rw [extraBitsAt_of_refill_fault hf, extraBitsAt_of_refill_fault (s := s.withBuf m) hf]
    · rw [extraBitsAt_of_next hn, extraBitsAt_of_next (s := s.withBuf m) hn, withBuf_engine]
  simp only [fetch, withBuf_store, withBuf_engine, hbits]

theorem decodeStep_inWindow (h : decodeStep s = .next t) : StepsInWindow decodeStep s t := by
  obtain ⟨i, hi, hexec⟩ := decodeStep_next h
  have hmoves : StepsInWindow (exec i) s t := by
    cases i with
    | lit e => exact execLit_inWindow hexec
    | raw e x => exact execRaw_inWindow hexec
    | matchCopy e x y => exact execMatch_inWindow hexec
  exact hmoves.congr fun m => by rw [decodeStep, fetch_withBuf, hi]

/-- An engine that steps is running, and its step is the machine's. -/
theorem engineStep_next (h : engineStep s = .next t) :
    s.engine.phase.running ∧ step s = .next t := by
  have hrun : s.engine.phase.running := by
    by_contra hrest
    rcases resting_of_not_running hrest with hp | hp | hp <;> rw [engineStep, hp] at h <;> cases h
  exact ⟨hrun, (step_running hrun).trans h⟩

/-- Every step of an engine updates its window alone. -/
theorem engineStep_inWindow (h : engineStep s = .next t) : StepsInWindow engineStep s t := by
  obtain ⟨hrun, hstep⟩ := engineStep_next h
  rcases step_next_cases hstep with ⟨hp, h⟩ | ⟨hp, h⟩ | ⟨hp, h⟩ | ⟨hrest, -⟩
  · exact (setupStep_inWindow h).congr fun m => by rw [engineStep, withBuf_engine, hp]
  · exact (checkStep_inWindow h).congr fun m => by rw [engineStep, withBuf_engine, hp]
  · exact (decodeStep_inWindow h).congr fun m => by rw [engineStep, withBuf_engine, hp]
  · exact absurd hrun hrest

/-- The step's own buffer is the update of the state's. -/
theorem buf_of_update {f : Memory → Memory} (h : run s = .next t)
    (hm : ∀ m, run (s.withBuf m) = .next (t.withBuf (f m))) : t.buf = f s.buf := by
  have hown : t = t.withBuf (f s.buf) := Host.Outcome.next.inj (h.symm.trans (hm s.buf))
  exact congrArg State.buf hown

end Steps

end Sys2Proof.Machine
end

section
/-! SUPPORT. Several instances (60_exceptions.md R256, R257; 45_host_container.md R221 to R223): their
steps commute and stay in their windows, a START is that of the next block in order, and the lowest
faulted block's fault is the file's error. -/

namespace Sys2Proof.Machine

/-! ### One engine's step among the others -/

section Instances

variable {c d : Cluster} {j k : Nat} {a b : Slot}

/-- A step of the engine in slot `j`, with what it does to the buffer. -/
theorem stepAt_next (ha : c.slots[j]? = some a) (h : c.stepAt j = .next d) :
    ∃ s f, SameBlock (c.view a.engine) s ∧
      LocalTo a.engine.windowBase (a.engine.windowBase + a.engine.windowCapacity) f ∧
      (∀ m, engineStep ((c.view a.engine).withBuf m) = .next (s.withBuf (f m))) ∧
      s.buf = f c.buf ∧ d = c.put j a.block s := by
  obtain ⟨slot, s, hslot, hs, rfl⟩ := (stepAt_next_iff c d j).1 h
  cases ha.symm.trans hslot
  obtain ⟨hrun, hstep⟩ := engineStep_next hs
  obtain ⟨f, hf, hm⟩ := engineStep_inWindow hs
  exact ⟨s, f, step_running_sameBlock hrun hstep, hf, hm, buf_of_update hs hm, rfl⟩

/-- An engine steps after another one as it would have before it, on the buffer the other left. -/
theorem stepAt_put {n : Nat} {s t : State} {f : Memory → Memory} (hjk : j ≠ k)
    (hb : c.slots[k]? = some b)
    (hm : ∀ m, engineStep ((c.view b.engine).withBuf m) = .next (t.withBuf (f m))) :
    (c.put j n s).stepAt k = .next ((c.put j n s).put k b.block (t.withBuf (f s.buf))) := by
  refine (stepAt_next_iff _ _ _).2 ⟨b, _, ?_, ?_, rfl⟩
  · rw [Cluster.put_slots, List.getElem?_set_ne hjk, hb]
  · rw [Cluster.put_view]
    exact hm s.buf

/-- Two instances moved, in either order: the same slots, and the buffer of the last. -/
theorem put_comm {n p : Nat} {s t : State} {m : Memory} (hjk : j ≠ k) :
    (c.put j n s).put k p (t.withBuf m) = (c.put k p t).put j n (s.withBuf m) := by
  simp only [Cluster.put, withBuf_buf, withBuf_engine, List.set_comm _ _ hjk]

end Instances

/-- Settles O58: each engine updates its own window, and updates of disjoint windows commute. -/
theorem instancesDoNotInterfere : Obligations.InstancesDoNotInterfere := by
  unfold Obligations.InstancesDoNotInterfere
  intro c c₁ c₂ j k a b hwf hjk ha hb hdisjoint h₁ h₂
  obtain ⟨s, f, -, hf, hfm, hsbuf, rfl⟩ := stepAt_next ha h₁
  obtain ⟨t, g, -, hg, hgm, htbuf, rfl⟩ := stepAt_next hb h₂
  refine ⟨_, stepAt_put hjk hb hgm, ?_⟩
  rw [stepAt_put hjk.symm ha hfm, put_comm hjk, hsbuf, htbuf, hf.commute hg hdisjoint hwf]

/-! ### START of a block -/

/-- START of a block leaves the engine of 70_reset_and_hazards.md R270 on that block's launch. -/
theorem startBlock_engine {c : Cluster} {l : Launch} {s : State}
    (h : start l (c.view Engine.powerUp) = .ok s) :
    ∃ w, s.engine = Engine.started l w ∧ w = (c.view s.engine).fetchWord 0 := by
  obtain ⟨-, rfl⟩ := (start_ok_iff _ _ _).1 h
  exact ⟨_, rfl, rfl⟩

/-- Settles O59: the step's update of its window, and the START that is made. -/
theorem instanceStaysInItsWindow : Obligations.InstanceStaysInItsWindow := by
  unfold Obligations.InstanceStaysInItsWindow
  refine ⟨fun c d j a hwf ha h => ?step, fun c d i h => ?start⟩
  case step =>
    obtain ⟨s, f, hblock, hf, -, hbuf, rfl⟩ := stepAt_next ha h
    obtain ⟨hj, -⟩ := List.getElem?_eq_some_iff.1 ha
    rw [Cluster.put_buf, hbuf]
    refine ⟨hf.wf _ hwf, by rw [← hbuf]; rfl, fun k hk => List.getElem?_set_ne hk.symm,
      ⟨_, List.getElem?_set_self hj, rfl, hblock.windowBase, hblock.windowCapacity⟩, hf.outside _⟩
  case start =>
    obtain ⟨b, s, hb, hmay, hs, hshares, rfl⟩ := (startBlock_next_iff c d i).1 h
    obtain ⟨hi, hlimit, hfault⟩ := (mayStart_iff c i).1 hmay
    obtain ⟨w, heng, hword⟩ := startBlock_engine hs
    refine ⟨hi.symm, hlimit, hfault, b, s.engine, hb, rfl, ?_, ?_, ?_, ?reader, ?_, ?_, ?_, ?_,
      (sharesWindow_eq_false_iff c s.engine).1 hshares⟩
    case reader => rw [← hword, heng]; rfl
    all_goals rw [heng]; rfl

/-! ### The reported fault -/

section Reported

variable {slot : Slot} {slots : List Slot} {i : Nat} {st : Status}

theorem reportedFault_cons_of_not_fault (h : slot.engine.phase ≠ .fault) :
    reportedFault (slot :: slots) = reportedFault slots := by
  rw [reportedFault]
  split
  · next hp _ => exact absurd hp h
  · next hp _ => exact absurd hp h
  · rfl

theorem reportedFault_cons_of_first (h : slot.engine.phase = .fault)
    (hr : reportedFault slots = none) :
    reportedFault (slot :: slots) = some (slot.block, slot.engine.status) := by
  simp only [reportedFault, h, hr]

theorem reportedFault_cons_of_another (h : slot.engine.phase = .fault)
    (hr : reportedFault slots = some (i, st)) :
    reportedFault (slot :: slots) =
      if slot.block ≤ i then some (slot.block, slot.engine.status) else some (i, st) := by
  simp only [reportedFault, h, hr]

/-- No fault is reported exactly where none of the instances has faulted. -/
theorem reportedFault_eq_none_iff (slots : List Slot) :
    reportedFault slots = none ↔ ∀ slot ∈ slots, slot.engine.phase ≠ .fault := by
  induction slots with
  | nil => simp [reportedFault]
  | cons slot slots ih =>
    rw [List.forall_mem_cons]
    by_cases h : slot.engine.phase = .fault
    · refine iff_of_false (fun hnone => ?_) fun hall => hall.1 h
      cases hr : reportedFault slots with
      | none => rw [reportedFault_cons_of_first h hr] at hnone; cases hnone
      | some p =>
        rw [reportedFault_cons_of_another (i := p.1) (st := p.2) h hr] at hnone
        split at hnone <;> cases hnone
    · rw [reportedFault_cons_of_not_fault h, ih, and_iff_right h]

/-- The reported fault is the status of one of the faulted instances, of the lowest block among
them. -/
theorem reportedFault_eq_some {slots : List Slot} {i : Nat} {st : Status}
    (h : reportedFault slots = some (i, st)) :
    (∃ slot ∈ slots, slot.engine.phase = .fault ∧ slot.block = i ∧ slot.engine.status = st) ∧
      ∀ slot ∈ slots, slot.engine.phase = .fault → i ≤ slot.block := by
  induction slots generalizing i st with
  | nil => cases h
  | cons slot slots ih =>
    rw [List.exists_mem_cons_iff, List.forall_mem_cons]
    by_cases hp : slot.engine.phase = .fault
    · cases hr : reportedFault slots with
      | none =>
        rw [reportedFault_cons_of_first hp hr] at h
        cases h
        exact ⟨.inl ⟨hp, rfl, rfl⟩, fun _ => le_refl _,
          fun other hother hf => absurd hf ((reportedFault_eq_none_iff slots).1 hr other hother)⟩
      | some p =>
        obtain ⟨k, st'⟩ := p
        obtain ⟨hfound, hlowest⟩ := ih hr
        rw [reportedFault_cons_of_another hp hr] at h
        split at h
        · next hle =>
          cases h
          exact ⟨.inl ⟨hp, rfl, rfl⟩, fun _ => le_refl _,
            fun other hother hf => hle.trans (hlowest other hother hf)⟩
        · next hgt =>
          cases h
          exact ⟨.inr hfound, fun _ => (Nat.lt_of_not_le hgt).le, hlowest⟩
    · rw [reportedFault_cons_of_not_fault hp] at h
      obtain ⟨hfound, hlowest⟩ := ih h
      exact ⟨.inr hfound, fun hf => absurd hf hp, hlowest⟩

end Reported

/-! ### The file's result -/

section Result

variable {c : Cluster} {n : Nat}

/-- Block `k` has been started, and it is DONE. -/
def Cluster.isDone (c : Cluster) (k : Nat) : Prop :=
  ∃ slot ∈ c.slots, slot.block = k ∧ slot.engine.phase = .done

theorem ended_iff (c : Cluster) (k : Nat) :
    c.ended k = true ↔
      ∃ slot ∈ c.slots, slot.block = k ∧
        (slot.engine.phase = .done ∨ slot.engine.phase = .fault) := by
  simp only [Cluster.ended, List.any_eq_true, Bool.and_eq_true, beq_iff_eq, report_isSome_iff]

/-- Where no block below `n` has faulted, the blocks below `n` that have ended are DONE. -/
theorem all_ended_iff (h : ∀ slot ∈ c.slots, slot.engine.phase = .fault → n ≤ slot.block) :
    (List.range n).all c.ended = true ↔ ∀ k, k < n → c.isDone k := by
  simp only [List.all_eq_true, List.mem_range, ended_iff]
  refine forall₂_congr fun k hk => exists_congr fun slot => and_congr_right fun hslot =>
    and_congr_right fun hblock => or_iff_left fun hfault => ?_
  have hle := h slot hslot hfault
  omega

/-- The result while a fault is reported. -/
theorem output_of_fault {i : Nat} {st : Status} (h : reportedFault c.slots = some (i, st)) :
    c.output = if (List.range i).all c.ended then some (.error (st, some i)) else none := by
  simp only [Cluster.output, h]

/-- The result while none is reported. -/
theorem output_of_no_fault (h : reportedFault c.slots = none) :
    c.output =
      if (List.range c.container.blocks.length).all c.ended then
        some (.ok (c.buf.slice 0 c.container.totalUncompressedSize))
      else none := by
  simp only [Cluster.output, h]

/-- When a file's error stands. -/
theorem cluster_output_error_iff (c : Cluster) (i : Nat) (st : Status) :
    c.output = some (.error (st, some i)) ↔
      reportedFault c.slots = some (i, st) ∧ ∀ k, k < i → c.isDone k := by
  cases hr : reportedFault c.slots with
  | none => rw [output_of_no_fault hr]; split <;> simp
  | some p =>
    obtain ⟨n, st'⟩ := p
    obtain ⟨-, hlowest⟩ := reportedFault_eq_some hr
    rw [output_of_fault hr]
    constructor
    · intro h
      split at h
      · next hall => cases h; exact ⟨rfl, (all_ended_iff hlowest).1 hall⟩
      · cases h
    · rintro ⟨hsame, hdone⟩
      cases hsame
      exact if_pos ((all_ended_iff hlowest).2 hdone)

/-- When a file's buffer is returned. -/
theorem cluster_output_ok_iff (c : Cluster) (bytes : List Byte) :
    c.output = some (.ok bytes) ↔
      reportedFault c.slots = none ∧ (∀ k, k < c.container.blocks.length → c.isDone k) ∧
        bytes = c.buf.slice 0 c.container.totalUncompressedSize := by
  cases hr : reportedFault c.slots with
  | none =>
    have hnone := (reportedFault_eq_none_iff c.slots).1 hr
    rw [output_of_no_fault hr, ← all_ended_iff fun slot hs hf => absurd hf (hnone slot hs)]
    constructor
    · intro h
      split at h
      · next hall => cases h; exact ⟨rfl, hall, rfl⟩
      · cases h
    · rintro ⟨-, hall, rfl⟩
      exact if_pos hall
  | some p => rw [output_of_fault (i := p.1) (st := p.2) hr]; split <;> simp

end Result

/-- Settles O60: the lowest fault by induction on the instances, the result by the two readings of
`Cluster.output`. -/
theorem lowestBlocksFaultIsReported : Obligations.LowestBlocksFaultIsReported := by
  unfold Obligations.LowestBlocksFaultIsReported
  exact ⟨fun slots => ⟨reportedFault_eq_none_iff slots, fun _ _ => reportedFault_eq_some⟩,
    fun c => ⟨cluster_output_error_iff c, cluster_output_ok_iff c⟩⟩

end Sys2Proof.Machine
end

section
/-! SUPPORT. Power-up, START and its premises, and the RAW that ends a filled block
(70_reset_and_hazards.md R270, R271, R273, R276). -/

namespace Sys2Proof.Machine

/-! ### A RAW in a full block -/

section FullBlock

variable {s : State} {e : CodeTableEntry}

/-- A command that a running engine reads has a code of at least one bit (41_code_tables.md R141
CT-LEN). -/
theorem one_le_codeLen_of_fetch {i : Instr} (hs : s.Inv) (hrun : s.engine.phase.running)
    (h : fetch s = .ok i) : 1 ≤ i.entry.codeLen.toNat := by
  obtain ⟨t, ht, hlookup, -⟩ := fetch_ok h
  obtain ⟨tab, w, htab⟩ := selectedTable?_of_running hs hrun s.engine.tableSel
  obtain rfl : t = TableStore.build tab := Option.some.inj (ht.symm.trans htab)
  exact (Laws.entry_code_fits w ((decodeEntry_build_iff w).1 hlookup).1).1

/-- In a full block the clamp leaves nothing of an amount (30_encoding.md R85). -/
theorem clamp_of_full {g : Engine} (amount : Nat) (h : g.written = g.logicalCapacity) :
    g.clamp amount = 0 := by
  rw [Engine.clamp, h, Nat.sub_self, Nat.min_zero]

/-- A RAW in a full block whose refill is in range goes to CHECK with a run of no byte, which neither
faults nor leaves the window (70_reset_and_hazards.md R276; log 10). -/
theorem execRaw_of_full (x : Nat) (hfull : s.engine.written = s.engine.logicalCapacity)
    (h1 : 1 ≤ s.engine.pendingBits + e.codeLen.toNat)
    (h32 : s.engine.pendingBits + e.codeLen.toNat ≤ 32) :
    ∃ r br, execRaw e x s = .next (rawDone e 0 r br s) := by
  obtain ⟨r, br, hn⟩ := next_ok_of_range s.fetchWord s.engine.br h1 h32
  refine ⟨r, br, ?_⟩
  rw [execRaw_eq x hn, clamp_of_full _ hfull, if_neg fun h => h.1.false, if_neg fun h => h.1.false]
  rfl

end FullBlock

/-- Settles O27: the RAW copies nothing, so that CHECK finds the block as full as before. -/
theorem rawEndsAFilledBlock : Obligations.RawEndsAFilledBlock := by
  unfold Obligations.RawEndsAFilledBlock
  intro s e x hs hp hfull hfetch h32
  have hcode : 1 ≤ e.codeLen.toNat := one_le_codeLen_of_fetch hs (.inr (.inr hp)) hfetch
  obtain ⟨r, br, hraw⟩ := execRaw_of_full x hfull (Nat.le_add_left_of_le hcode) h32
  obtain ⟨hexec, -⟩ := stepRunsTheDecodedCommand s (.raw e x) hp hfetch
  obtain ⟨hcheck, -⟩ := checkTestsForTheEnd
  exact ⟨rawDone e 0 r br s, _, hexec.trans hraw, hcheck _ rfl, if_pos hfull, rfl, rfl, rfl⟩

/-! ### Power-up -/

/-- The store holds the tables it was built from. -/
theorem catalogOf_buildStore (c : Catalog) : catalogOf (buildStore c) = c := by
  rw [catalogOf, buildStore, List.map_map]
  exact List.map_id c

/-- Settles O5: the step is the container decoder's, and the catalog it checks is the store's. -/
theorem catalogIsCheckedFirst : Obligations.CatalogIsCheckedFirst := by
  unfold Obligations.CatalogIsCheckedFirst
  intro c ls
  have hstep : step (State.powerUp c ls) = powerUpStep (State.powerUp c ls) :=
    step_resting (.inl rfl)
  have hcatalog : catalogOf (State.powerUp c ls).store = c := catalogOf_buildStore c
  rw [hstep, powerUpStep, hcatalog]
  cases Catalog.defect? c <;> rfl

/-- An engine in IDLE has no bits in use and is past no SETUP. -/
theorem powerUp_engine_inv : Engine.powerUp.Inv := by
  simp [Engine.Inv, BitReader.Inv, Engine.powerUp, Phase.pastSetup]

/-- After power-up the memories are empty, the engine rests and no file has been given, whatever the
catalog is. -/
theorem powerUp_inv (c : Catalog) (ls : LiteralStart) : (State.powerUp c ls).Inv := by
  have hstore : buildStore c = buildStore (catalogOf (buildStore c)) := by rw [catalogOf_buildStore]
  exact ⟨⟨rfl, rfl⟩, powerUp_engine_inv, hstore, fun h => absurd rfl h, nofun, nofun, nofun, nofun⟩

/-- Settles O34: the state after power-up with the parameters of Config. -/
theorem resetMeetsTheInvariant : Obligations.ResetMeetsTheInvariant := by
  unfold Obligations.ResetMeetsTheInvariant
  exact ⟨powerUp_inv _ _, streamInv_of_not_running nofun, cursorInv_of_not_decoding nofun nofun,
    rfl, rfl⟩

/-! ### START -/

section Start

variable {l : Launch} {s : State}

theorem resting_iff_not_running (p : Phase) :
    (p = .idle ∨ p = .done ∨ p = .fault) ↔ ¬p.running := by
  refine ⟨fun h => ?_, resting_of_not_running⟩
  rcases h with rfl | rfl | rfl <;> nofun

/-- The premises of START in their order, the first of them on the phase: a block must not run
(70_reset_and_hazards.md R270, R273; log 19). -/
theorem brokenPremise?_eq (l : Launch) (s : State) :
    brokenPremise? l s =
      if s.engine.phase.running then some .enginePhase
      else if 0x4000 < l.windowCapacity then some .windowTooLarge
      else if s.file.len < l.inBase + l.inLen then some .inputOutsideFile
      else if s.container.totalUncompressedSize < l.windowBase + l.windowCapacity then
        some .windowOutsideBuffer
      else none := by
  simp only [brokenPremise?, resting_iff_not_running, not_not]
  rfl

/-- The name of a broken premise is START's answer. -/
theorem start_refused {p : LaunchPremise} (h : brokenPremise? l s = some p) :
    start l s = .error p := by
  simp only [start, h]

end Start

/-- Settles O15: with no premise broken START leaves `Engine.started`, beside any buffer. -/
theorem startLeavesTheStartState : Obligations.StartLeavesTheStartState := by
  unfold Obligations.StartLeavesTheStartState
  intro l s hrest hwindow hin hout
  have hpremises : brokenPremise? l s = none := by
    rw [brokenPremise?_eq, if_neg ((resting_iff_not_running _).1 hrest),
      if_neg (Nat.not_lt_of_le hwindow), if_neg (Nat.not_lt_of_le hin),
      if_neg (Nat.not_lt_of_le hout)]
  exact ⟨_, (start_ok_iff l s _).2 ⟨hpremises, rfl⟩, rfl,
    fun m => (start_ok_iff l (s.withBuf m) _).2 ⟨hpremises, rfl⟩⟩

/-- Settles O16: each premise in turn, those before it being met. -/
theorem startRefusesABrokenPremise : Obligations.StartRefusesABrokenPremise := by
  unfold Obligations.StartRefusesABrokenPremise
  refine fun l s => ⟨fun hrun => ?phase, fun hrest hlarge => ?window,
    fun hrest hwindow hlong => ?input, fun hrest hwindow hin hpast => ?output⟩ <;>
    refine start_refused ?_ <;> rw [brokenPremise?_eq]
  case phase => rw [if_pos hrun]
  case window => rw [if_neg hrest, if_pos hlarge]
  case input => rw [if_neg hrest, if_neg (Nat.not_lt_of_le hwindow), if_pos hlong]
  case output =>
    rw [if_neg hrest, if_neg (Nat.not_lt_of_le hwindow), if_neg (Nat.not_lt_of_le hin), if_pos hpast]

end Sys2Proof.Machine
end
